-- ==== Sys2Proof/Word.lean ====
section
/-! DEFINITION. The word types of the block (R9: all values are unsigned, bit 0 is the least significant). -/

namespace Sys2Proof

/-- One byte: a byte of a wire frame, of the record, of an input register (R9, R64, R98). -/
abbrev Byte := BitVec 8

/-- A 16-bit value: a register of the metering IC, an element of `BUF`, a field of the record (R33, R40, R61). -/
abbrev Half := BitVec 16

/-- A tick value or a Deadline, `W = 32` bits (R7, R24, R107, D1). -/
abbrev Tick := BitVec 32

/-- An event word, kind and id (R37, R100). -/
abbrev EventWord := BitVec 9

/-- A command word `CW` (R91). -/
abbrev CommandWord := BitVec 56

/-- The 24 bits of a wire frame, first bit on the wire the most significant (R99). -/
abbrev FrameWord := BitVec 24

end Sys2Proof
end

