-- ==== Sys2Proof/Syntax.lean ====
section
/-! DEFINITION. The operations of the block (R2, R94) and the two wire frames (R99): one constructor per row of
spec/opcode_table.json. Operands stand in the order of R105. -/

namespace Sys2Proof

/-- The class of an operation (R92), and the wire frames, which have no operation byte. -/
inductive OpClass where
  | foreground
  | internal
  | interrupt
  | wire
  deriving DecidableEq, Repr

/-- One operation with its operands (R93, R94), or one wire frame (R99). -/
inductive Instr where
  | snapshot
  | computeDeadline (durationMs : BitVec 16)
  | isExpired (deadline : Tick)
  | blockUntil (deadline : Tick)
  | formatElapsed
  | writeTransaction (addr : Byte) (data : Half)
  | readTransaction (addr : Byte)
  | writeBlock (first last : Byte)
  | readBlock (first last : Byte)
  | registerButton (loc mask id : Byte)
  | pollEvent
  | calLoad
  | calReadField (offset : Byte)
  | calUpdateField (offset : Byte) (value : Half)
  | calPersist
  | startCond
  | exchangeBit (out : Bool)
  | exchangeByte (out : Byte)
  | push (event : EventWord)
  | crc16 (n : Half)
  | advance
  | service
  | frameWrite (addr : BitVec 7) (data : Half)
  | frameRead (addr : BitVec 7) (dummy : Half)
  deriving DecidableEq, Repr

/-- The class of R94 (for a frame: wire). -/
def Instr.opClass : Instr → OpClass
  | .snapshot | .computeDeadline _ | .isExpired _ | .blockUntil _ | .formatElapsed
  | .writeTransaction _ _ | .readTransaction _ | .writeBlock _ _ | .readBlock _ _
  | .registerButton _ _ _ | .pollEvent
  | .calLoad | .calReadField _ | .calUpdateField _ _ | .calPersist => .foreground
  | .startCond | .exchangeBit _ | .exchangeByte _ | .push _ | .crc16 _ => .internal
  | .advance | .service => .interrupt
  | .frameWrite _ _ | .frameRead _ _ => .wire

end Sys2Proof
end

