-- ==== Sys2Proof/Decode.lean ====
section
/-! DEFINITION. The decoder of the command word (R91 to R96) and of the wire frame (R98, R99), and after it the
encoder, from the same tables. -/

namespace Sys2Proof

/-- Why a command word is no operation (R96). -/
inductive Reject where
  /-- An `op` that R94 does not assign (R96 a). -/
  | reservedOp
  /-- Class `0b11` (R96 c). -/
  | reservedClass
  deriving DecidableEq, Repr

/-- The words an operation or a frame is written in: a command word (R91) or a wire frame (R99). -/
inductive Word where
  | command (cw : CommandWord)
  | frame (f : FrameWord)
  deriving DecidableEq, Repr

/-- `op = CW[55:48]` (R91). -/
def cwOp (cw : CommandWord) : Byte := cw.extractLsb' 48 8

/-- The first operand `a = CW[47:16]` (R91). -/
def cwA (cw : CommandWord) : BitVec 32 := cw.extractLsb' 16 32

/-- The second operand `b = CW[15:0]` (R91). -/
def cwB (cw : CommandWord) : BitVec 16 := cw.extractLsb' 0 16

/-- A command word from its three fields (R91). -/
def mkCw (op : Byte) (a : BitVec 32) (b : BitVec 16) : CommandWord := op ++ a ++ b

/-- The operation an operation byte and its operand fields request (R93, R94, R95): `none` for an operation byte
that R94 does not assign. -/
def decodeOp (op : Byte) (a : BitVec 32) (b : BitVec 16) : Option Instr :=
  match op.toNat with
  | 0x00 => some .snapshot
  | 0x08 => some (.computeDeadline b)
  | 0x09 => some (.isExpired a)
  | 0x0A => some (.blockUntil a)
  | 0x0B => some .formatElapsed
  | 0x10 => some (.writeTransaction (a.extractLsb' 0 8) b)
  | 0x11 => some (.readTransaction (a.extractLsb' 0 8))
  | 0x12 => some (.writeBlock (a.extractLsb' 0 8) (a.extractLsb' 8 8))
  | 0x13 => some (.readBlock (a.extractLsb' 0 8) (a.extractLsb' 8 8))
  | 0x18 => some (.registerButton (a.extractLsb' 8 8) (a.extractLsb' 0 8) (b.extractLsb' 0 8))
  | 0x19 => some .pollEvent
  | 0x20 => some .calLoad
  | 0x21 => some (.calReadField (b.extractLsb' 0 8))
  | 0x22 => some (.calUpdateField (b.extractLsb' 0 8) (a.extractLsb' 0 16))
  | 0x23 => some .calPersist
  | 0x50 => some .startCond
  | 0x51 => some (.exchangeBit (b.getLsbD 0))
  | 0x52 => some (.exchangeByte (b.extractLsb' 0 8))
  | 0x58 => some (.push (b.extractLsb' 0 9))
  | 0x60 => some (.crc16 (a.extractLsb' 0 16))
  | 0x80 => some .advance
  | 0x98 => some .service
  | _ => none

/-- The operation a command word requests (R91 to R96). -/
def decodeCw (cw : CommandWord) : Except Reject Instr :=
  match decodeOp (cwOp cw) (cwA cw) (cwB cw) with
  | some i => .ok i
  | none => if (cwOp cw).extractLsb' 6 2 = 0b11#2 then .error .reservedClass else .error .reservedOp

/-- The frame 24 bits on `SDO` are (R98, R99): bit 23 is the direction, every pattern is a frame. -/
def decodeFrame (f : FrameWord) : Instr :=
  if f.getLsbD 23 then .frameRead (f.extractLsb' 16 7) (f.extractLsb' 0 16)
  else .frameWrite (f.extractLsb' 16 7) (f.extractLsb' 0 16)

/-- Total on any words. -/
def decode : Word → Except Reject Instr
  | .command cw => decodeCw cw
  | .frame f => .ok (decodeFrame f)

/-- The words of an instruction (R91 to R95, R99); bits a format does not name are sent as 0 (R93). -/
def encode : Instr → Word
  | .snapshot => .command (mkCw 0x00 0 0)
  | .computeDeadline d => .command (mkCw 0x08 0 d)
  | .isExpired t => .command (mkCw 0x09 t 0)
  | .blockUntil t => .command (mkCw 0x0A t 0)
  | .formatElapsed => .command (mkCw 0x0B 0 0)
  | .writeTransaction addr data => .command (mkCw 0x10 (addr.zeroExtend 32) data)
  | .readTransaction addr => .command (mkCw 0x11 (addr.zeroExtend 32) 0)
  | .writeBlock first last => .command (mkCw 0x12 ((last ++ first).zeroExtend 32) 0)
  | .readBlock first last => .command (mkCw 0x13 ((last ++ first).zeroExtend 32) 0)
  | .registerButton loc mask id => .command (mkCw 0x18 ((loc ++ mask).zeroExtend 32) (id.zeroExtend 16))
  | .pollEvent => .command (mkCw 0x19 0 0)
  | .calLoad => .command (mkCw 0x20 0 0)
  | .calReadField offset => .command (mkCw 0x21 0 (offset.zeroExtend 16))
  | .calUpdateField offset value => .command (mkCw 0x22 (value.zeroExtend 32) (offset.zeroExtend 16))
  | .calPersist => .command (mkCw 0x23 0 0)
  | .startCond => .command (mkCw 0x50 0 0)
  | .exchangeBit o => .command (mkCw 0x51 0 ((BitVec.ofBool o).zeroExtend 16))
  | .exchangeByte o => .command (mkCw 0x52 0 (o.zeroExtend 16))
  | .push ev => .command (mkCw 0x58 0 (ev.zeroExtend 16))
  | .crc16 n => .command (mkCw 0x60 (n.zeroExtend 32) 0)
  | .advance => .command (mkCw 0x80 0 0)
  | .service => .command (mkCw 0x98 0 0)
  | .frameWrite addr data => .frame (0b0#1 ++ addr ++ data)
  | .frameRead addr dummy => .frame (0b1#1 ++ addr ++ dummy)

/-- The instruction whose bits are `w`, numbered as spec/opcode_table.json numbers them: a row of 56 bits is a
command word (R91), a row of 24 bits a wire frame (R99); the table has no other width. Log 30. -/
def decodeTableWord (nbits w : Nat) : Option Instr :=
  if nbits = 56 then
    match decodeCw (BitVec.ofNat 56 w) with
    | .ok i => some i
    | .error _ => none
  else if nbits = 24 then some (decodeFrame (BitVec.ofNat 24 w))
  else none

end Sys2Proof
end

