-- ==== Sys2Proof/Config.lean ====
section
/-! DEFINITION. The parameters of R7: the constants the spec fixes, the open parameters as one `Board`, and the
values the spec leaves free, as opaque constants (R20: configuration is not state of the block). -/

namespace Sys2Proof.Config

/-- `THRESH_MS` (R7, R132, C3). -/
def threshMs : Nat := 42

/-- `SCALE_NUM` (R7, R132). -/
def scaleNum : Nat := 1000

/-- `SCALE_DEN` (R7, R132). -/
def scaleDen : Nat := 1024

/-- Microseconds of one second over the tick scale: the divisor of `FORMAT_ELAPSED` (R138, R140). -/
def microsPerSecond : Nat := 1000000

/-- `HORIZON_TICKS`: from this tick on the result of `FORMAT_ELAPSED` is unspecified (R7, R139). -/
def horizonTicks : Nat := 4039453125

/-- `SERVICE_DIV` (R7, R184). -/
def serviceDiv : Nat := 16

/-- `DEV_ADDR_MAX` (R7, R61). -/
def devAddrMax : Nat := 0x6F

/-- `READ_FLAG` (R7, R98, R155). -/
def readFlag : Byte := 0x80

/-- `SIGNATURE` (R7, R213). -/
def signature : Half := 0x55AA

/-- `BUF_LEN` (R7, R33). -/
def bufLen : Nat := 112

/-- `REC_BYTES` (R7, R102). -/
def recBytes : Nat := 46

/-- The largest field offset (R63). -/
def offsetMax : Nat := 20

/-- What a byte of storage that nothing has written reads as: the source's scenario of fresh, zeroed storage
(R42, V6). DESIGN CHOICE, log 11. -/
def freshByte : Byte := 0x00

/-- The function `CRC16` is an open configuration function with a default (R211, P4): the default
CRC-16/MODBUS, or any other function, of which nothing is known. -/
inductive CrcChoice where
  | modbus
  | other (k : Nat)
  deriving DecidableEq, Repr, Inhabited

/-- Any function from byte strings to 16 bits, for each `k` (R211). A free value. -/
opaque crcOther : Nat → List Byte → Half

/-- The open parameters of R7 (P2 to P9). Their constraints are in the types: `MAX_BUTTONS` is at least 1,
`METER_LAST = METER_FIRST + 10` and `MEAS_LAST = MEAS_FIRST + 9` are at most `0x6F`, a `FORCED` offset is at
most 20. Log 9. -/
structure Board where
  /-- `MAX_BUTTONS - 1` (P2). -/
  maxButtonsPred : Nat
  /-- `ACTIVE_LEVEL` (P3, R182): the raw level of an active button. -/
  activeLevel : Bool
  /-- `DUMMY_BYTE` (P9, R155). -/
  dummyByte : Byte
  /-- Which function `CRC16` is (P4, R211). -/
  crc : CrcChoice
  /-- `NVM_BASE` (P5, R62). -/
  nvmBase : Nat
  /-- `METER_FIRST`, at most `0x65` (P6, R214). -/
  meterFirst : Fin 102
  /-- `MEAS_FIRST`, at most `0x66` (P6, R214). -/
  measFirst : Fin 103
  /-- `FORCED`: field offsets and values (P6, R214). -/
  forced : List (Fin 21 × Half)
  /-- `CS_METER_REG` (P8, R106). -/
  csMeterReg : Byte
  /-- `CS_MEAS_REG` (P8, R106). -/
  csMeasReg : Byte
  /-- `LOCK_REG` (P8, R106). -/
  lockReg : Byte
  /-- `UNLOCK_VALUE` (P8, R106). -/
  unlockValue : Half
  /-- `LOCK_VALUE` (P8, R106). -/
  lockValue : Half
  /-- `T_START` (P7, R151). -/
  tStart : Nat
  /-- `T_SETUP` (P7, R152). -/
  tSetup : Nat
  /-- `T_HOLD` (P7, R152). -/
  tHold : Nat
  deriving DecidableEq, Repr, Inhabited

/-- `MAX_BUTTONS` (R7, R34). -/
def Board.maxButtons (b : Board) : Nat := b.maxButtonsPred + 1

/-- The board the block is on: every open parameter, of which nothing is known. Log 9. -/
opaque openBoard : Board

/-- The board after reset: the open parameters, with the three defaults the spec states
(`ACTIVE_LEVEL = 0`, `DUMMY_BYTE = 0x00`, `CRC16` = CRC-16/MODBUS; P3, P9, P4). Log 9. -/
def resetBoard : Board :=
  { openBoard with activeLevel := false, dummyByte := 0x00, crc := .modbus }

/-- The bit a sample of `SDI` returns when nothing the model holds drives the line (R66, V1), by draw. -/
opaque sdiDraw : Nat → Bool

/-- The levels a read of an input register returns (R64, V2), by draw and location. -/
opaque inDraw : Nat → Byte → Byte

/-- `BTN_INIT_LAST` (R189, V4), by draw. -/
opaque btnInitLast : Nat → Bool

/-- Whether a foreground waiting in `BLOCK_UNTIL` takes its next iteration after the tick event that the timer
delivers on its own, or only after a later one (R136, R137, V3; log 3), by draw. -/
opaque iterates : Nat → Bool

/-- The string `FORMAT_ELAPSED` returns from its horizon on (R139, V8), by draw. -/
opaque elapsedStr : Nat → List Byte

/-- The number `FORMAT_ELAPSED` returns from its horizon on (R139, V8), by draw. -/
opaque elapsedRes : Nat → BitVec 32

/-- `CRC16` asked for more bytes than the block has in its one byte string (R211; log 7), by draw and count. -/
opaque crcBeyond : Nat → Half → Half

/-- Reset level of `SDO` (R28, R271, V5), by draw. -/
opaque resetSdo : Nat → Bool

/-- Reset content of `SHO` (R31, R271, V5), by draw. -/
opaque resetSho : Nat → Byte

/-- Reset content of `SHI` (R31, R271, V5), by draw. -/
opaque resetShi : Nat → Byte

/-- Reset content of `CKSUM` (R32, R271, V5), by draw. -/
opaque resetCksum : Nat → Half

/-- Reset content of `BUF[k]` (R33, R271, V5), by draw and index. -/
opaque resetBuf : Nat → Nat → Half

/-- Reset content of `SLOT[k]` (R37, R271, V5), by draw and index. -/
opaque resetSlot : Nat → Nat → EventWord

/-- Reset content of word `k` of `WORK`, 0 the signature and 22 the CRC (R40, R271, V5), by draw and index. -/
opaque resetWork : Nat → Nat → Half

end Sys2Proof.Config
end

