-- ==== Sys2Proof/Machine/State.lean ====
section
/-! DEFINITION. The state of the block (R20), its interface registers (R97, R103), and what the step takes from
outside (R20: the operation requested, the environments' answers, the configuration), as plain data. -/

namespace Sys2Proof.Machine

/-- Why the machine stops. The block itself raises no exception (R240): no operation faults. -/
inductive Fault where
  /-- Raised when the host writes an element of `BUF` that does not exist, index above 111 (R60, log 25). Safe. -/
  | noSuchAddress
  deriving DecidableEq, Repr

/-- Why a request has no step: the caller broke a precondition (R15, R242; 93_implementation_defined.md U1 to U9). -/
inductive Refusal where
  /-- Raised by `exec` for an operation without a meaning in this model; no operation is. Safe. -/
  | notModelled (mnemonic : String)
  /-- U1: a command word with a reserved `op` (R96 a, c). Raised when a request is fetched. Safe. -/
  | reservedOp
  /-- U2: an internal or interrupt operation presented by the host, or a word presented where its class does not
  belong (R92, R96 b). Raised when a request is fetched. Safe. -/
  | notIssuable
  /-- U5: an operation performed in a context that R255 forbids it. Raised by the operation. Safe. -/
  | contextForbidden
  /-- U3: a register address above `0x6F` (R160 b). Raised by the transport operations and the frames. Safe. -/
  | addrOutOfRange
  /-- U4: a transaction, a block operation or `CAL_LOAD` while `SST_BUSY = 1` (R160 a, R222 d), or a start
  condition then (R151). Raised by the operation. Safe. -/
  | transportBusy
  /-- The `require SCLK = 1` of the start condition is broken (R151). Raised by every operation that opens a
  transaction. Safe. Log 16. -/
  | lineNotIdle
  /-- U6: `REGISTER_BUTTON` when `NBTN = MAX_BUTTONS` (R196 a). Raised by it. Safe. -/
  | storeFull
  /-- U7: a store operation while `CAL_LOADED = 0` (R222 a). Raised by it. Safe. -/
  | notLoaded
  /-- U8: an offset above 20 (R222 b). Raised by the field operations. Safe. -/
  | badOffset
  /-- U9: the host acts again before `DONE` (R97, R262). Raised when the input is taken. Safe. -/
  | secondCommand
  /-- V10: a second tick event while one is pending, or announced for the same critical section, which R249
  excludes. Raised when the input is taken. Safe. Log 15. -/
  | tickWhilePending
  deriving DecidableEq, Repr

/-- The debounce state `st` (R35; D10: codes are names). -/
inductive Debounce where
  | awaitPress
  | awaitRelease
  deriving DecidableEq, Repr

/-- A Button Descriptor (R35). -/
structure Descriptor where
  loc : Byte
  mask : Byte
  id : Byte
  st : Debounce
  /-- The last sampled raw level. -/
  last : Bool
  deriving DecidableEq, Repr

/-- The Bit-Level Transport's state (R27 to R33). -/
structure Transport where
  sclk : Bool
  sdo : Bool
  busy : Bool
  sho : Byte
  shi : Byte
  bitcnt : BitVec 4
  cksum : Half
  buf : Vector Half 112
  deriving DecidableEq, Repr

/-- The Event Queue's state (R37, R38). -/
structure Queue where
  slot : Vector EventWord 8
  head : BitVec 3
  tail : BitVec 3
  deriving DecidableEq, Repr

/-- A Calibration Record (R40, R102). -/
structure CalRecord where
  sig : Half
  meter : Vector Half 11
  meas : Vector Half 10
  crc : Half
  deriving DecidableEq, Repr

/-- The Calibration Store's volatile state (R40, R41). -/
structure CalStore where
  work : CalRecord
  loaded : Bool
  deriving DecidableEq, Repr

/-- The hidden interrupt state (R44, R248), and the operation the handler performs next (R247; log 5). -/
structure Interrupt where
  masked : Bool
  pending : Bool
  inIsr : Bool
  /-- The word of the handler's next operation; `none` at its end. The model's own. -/
  op : Option CommandWord
  deriving DecidableEq, Repr

/-- An operation the foreground is asked to perform. -/
inductive Request where
  /-- A command word presented by the host (R97). -/
  | host (cw : CommandWord)
  /-- An internal operation performed inside another (R92), by its word. Log 6. -/
  | inner (cw : CommandWord)
  /-- A wire frame to put on the line (R99). Log 8. -/
  | frame (f : FrameWord)
  deriving DecidableEq, Repr

/-- The interface to the host (R97, R103) and to an enclosing operation. -/
structure Port where
  /-- The operation in progress, `none` when the foreground waits for the host. -/
  request : Option Request
  /-- `BLOCK_UNTIL` has found its deadline ahead and has not begun its next iteration (R136). The model's own, log 5. -/
  spinning : Bool
  /-- `DONE` (R97). -/
  done : Bool
  /-- `RES` (R97). -/
  res : BitVec 32
  /-- `STR`, with its length (R103). -/
  str : List Byte
  /-- The result of an operation that returns to its caller inside the block. The model's own, log 6, log 26. -/
  innerRes : BitVec 32
  deriving DecidableEq, Repr

/-- What the outside does (R262, R246, R270, R82). -/
inductive Input where
  /-- The host presents a command word (R97). -/
  | command (cw : CommandWord)
  /-- The timer delivers a tick event (R246). -/
  | tick
  /-- The timer's next tick event will arrive inside the next critical section (R249). Log 4. -/
  | tickInSection
  /-- The foreground, waiting in `BLOCK_UNTIL`, begins its next iteration (R136). Any number of tick events may come
  before it (R137, V3). Without effect when nothing waits. Log 5. -/
  | iterate
  /-- The host writes `BUF[k]` (R33, R262). -/
  | bufWrite (k : Nat) (v : Half)
  /-- Reset, of any kind (R270). -/
  | reset
  /-- Power is lost while a record write is in progress, and comes back: a reset, and `NVM` holds any 46 bytes
  (R82, V7). Log 20. -/
  | powerLoss (image : Vector Byte 46)
  deriving DecidableEq, Repr

/-- The environment's inputs and answers still to come (R20: arguments of the step). Log 1, log 2. -/
structure Env where
  /-- What the outside does next, in order. -/
  inbox : List Input
  /-- A tick event will arrive inside the next critical section. -/
  midTick : Bool
  /-- The next answers of `SDI`; after them the answers are free. -/
  sdi : List Bool
  /-- The next answers of the reads of `IN`; after them the answers are free. -/
  inp : List Byte
  /-- How many free values have been taken. -/
  draws : Nat
  deriving DecidableEq, Repr

/-- The metering IC, in one of the two ways of R66. -/
inductive Ic where
  /-- Any answer. -/
  | oracle
  /-- `DevIdeal`: the register file, the bits taken since the last frame (most recent in bit 0), their number. -/
  | ideal (dev : Vector Half 112) (shift : FrameWord) (count : Nat)
  deriving DecidableEq, Repr

/-- An observable event (R17). -/
inductive Obs where
  | sclk (level : Bool)
  | sdo (level : Bool)
  | sdi (bit : Bool)
  | nvmWrite (addr : Nat) (bytes : List Byte)
  | drop (event : EventWord)
  | tick
  deriving DecidableEq, Repr

/-- Byte memory: cells of address and byte, in the canonical form of `Memory.wf`. -/
abbrev Memory := List Host.Cell

/-- The canonical form: addresses rise strictly, and no cell holds what an unlisted address reads as. -/
abbrev Memory.wf (m : Memory) : Prop :=
  m.Pairwise (fun c d => c.1 < d.1) ∧ ∀ c ∈ m, c.2 ≠ Config.freshByte

/-- The state: R20's tuple by unit, then the interface, the environment, the configuration and the history. -/
structure State where
  /-- `TICK` (R24). -/
  tick : Tick
  /-- The Bit-Level Transport (R27 to R33). -/
  sst : Transport
  /-- The descriptor store: `BTN[0 .. NBTN-1]`, in registration order; `NBTN` is its length (R34, log 22). -/
  btn : List Descriptor
  /-- The Event Queue (R37, R38). -/
  evq : Queue
  /-- The Calibration Store (R40, R41). -/
  cal : CalStore
  /-- Non-volatile storage (R42). -/
  nvm : Memory
  /-- The interrupt logic (R44). -/
  irq : Interrupt
  /-- The interface (R97, R103). -/
  port : Port
  /-- The metering IC (R45, R66). -/
  ic : Ic
  /-- The environment. -/
  env : Env
  /-- The configuration (R7). -/
  board : Config.Board
  /-- The event history, newest first (R17, log 23). -/
  log : List Obs
  deriving DecidableEq, Repr

/-- `NBTN` (R34). -/
def State.nbtn (s : State) : Nat := s.btn.length

/-- The transport after reset, its unspecified elements from draw `n` (R271). -/
def Transport.afterReset (n : Nat) : Transport :=
  { sclk := true
    sdo := Config.resetSdo n
    busy := false
    sho := Config.resetSho n
    shi := Config.resetShi n
    bitcnt := 0
    cksum := Config.resetCksum n
    buf := Vector.ofFn (fun k => Config.resetBuf n k.val) }

/-- The queue after reset (R271). -/
def Queue.afterReset (n : Nat) : Queue :=
  { slot := Vector.ofFn (fun k => Config.resetSlot n k.val)
    head := 0
    tail := 0 }

/-- The store after reset (R271). -/
def CalStore.afterReset (n : Nat) : CalStore :=
  { work :=
      { sig := Config.resetWork n 0
        meter := Vector.ofFn (fun k => Config.resetWork n (1 + k.val))
        meas := Vector.ofFn (fun k => Config.resetWork n (12 + k.val))
        crc := Config.resetWork n 22 }
    loaded := false }

/-- The interrupt state after reset (R271). -/
def Interrupt.afterReset : Interrupt :=
  { masked := false, pending := false, inIsr := false, op := none }

/-- The interface after reset: no operation in progress; `DONE`, `RES`, `STR` as log 12 says. -/
def Port.afterReset : Port :=
  { request := none, spinning := false, done := false, res := 0, str := [], innerRes := 0 }

/-- The machine right after its first reset (R271), with nothing presented yet. -/
def State.reset : State :=
  { tick := 0
    sst := Transport.afterReset 0
    btn := []
    evq := Queue.afterReset 0
    cal := CalStore.afterReset 0
    nvm := []
    irq := Interrupt.afterReset
    port := Port.afterReset
    ic := .oracle
    env := { inbox := [], midTick := false, sdi := [], inp := [], draws := 1 }
    board := Config.resetBoard
    log := [] }

end Sys2Proof.Machine
end

