-- ==== Sys2Proof/Machine/Operands.lean ====
section
/-! DEFINITION. Operand forms: bytes and words (R9, R12), event words (R100), elements of the small spaces (R63,
R65), the record's bytes (R68, R102), the address byte and the frame (R98, R99), the decimal string (R103). -/

namespace Sys2Proof.Machine

/-- `hi8` (R9). -/
def hi8 (v : Half) : Byte := v.extractLsb' 8 8

/-- `lo8` (R9). -/
def lo8 (v : Half) : Byte := v.extractLsb' 0 8

/-- `le16` (R12): low byte first. -/
def le16 (b0 b1 : Byte) : Half := b1 ++ b0

/-- `be16` (R12): high byte first. -/
def be16 (b0 b1 : Byte) : Half := b0 ++ b1

/-- A 16-bit field as bytes, low byte first (R68). -/
def leBytes (v : Half) : List Byte := [lo8 v, hi8 v]

/-- `v` with bit `k` set to `b`. -/
def setBit (v : Byte) (k : Nat) (b : Bool) : Byte :=
  if b then v ||| (1#8 <<< k) else v &&& ~~~(1#8 <<< k)

/-- The event word of a kind (`false` pressed, `true` released) and an id (R100). -/
def eventWord (released : Bool) (id : Byte) : EventWord := BitVec.ofBool released ++ id

/-- The slot at a cursor (R65). -/
def slotAt (slots : Vector EventWord 8) (c : BitVec 3) : EventWord := slots[c.toNat]'c.isLt

/-- The slots with the one at a cursor replaced (R65). -/
def setSlot (slots : Vector EventWord 8) (c : BitVec 3) (ev : EventWord) : Vector EventWord 8 :=
  slots.set c.toNat ev c.isLt

/-- `BUF[k]` (R65). -/
def bufAt (buf : Vector Half 112) (k : Nat) : Half := buf.getD k 0

/-- The field at offset `f`, 0 to 10 a meter value, 11 to 20 a measurement value (R63). -/
def getField (r : CalRecord) (f : Nat) : Half :=
  if f ≤ 10 then r.meter.getD f 0 else r.meas.getD (f - 11) 0

/-- The record with the field at offset `f` set (R63). -/
def setField (r : CalRecord) (f : Nat) (v : Half) : CalRecord :=
  if f ≤ 10 then { r with meter := r.meter.setIfInBounds f v }
  else { r with meas := r.meas.setIfInBounds (f - 11) v }

/-- The bytes at record offsets 0 to 43, every field before the CRC (R102). -/
def recordBody (r : CalRecord) : List Byte :=
  leBytes r.sig ++ r.meter.toList.flatMap leBytes ++ r.meas.toList.flatMap leBytes

/-- `bytes(WORK)`: the 46 bytes of a record (R40, R102). -/
def recordBytes (r : CalRecord) : List Byte := recordBody r ++ leBytes r.crc

/-- The 16-bit field at byte offset `o` of an image (R68). -/
def fieldOf (image : List Byte) (o : Nat) : Half := le16 (image.getD o 0) (image.getD (o + 1) 0)

/-- The record an image of 46 bytes holds (R102). -/
def recordOf (image : List Byte) : CalRecord :=
  { sig := fieldOf image 0
    meter := Vector.ofFn (fun k => fieldOf image (2 + 2 * k.val))
    meas := Vector.ofFn (fun k => fieldOf image (24 + 2 * k.val))
    crc := fieldOf image 44 }

/-- The address byte of a read: `addr or 0x80` (R95, R98). -/
def readAddress (addr : Byte) : Byte := addr ||| Config.readFlag

/-- The 24 bits of a frame, from its three bytes in the order they travel (R67, R99). -/
def frameOf (b0 b1 b2 : Byte) : FrameWord := b0 ++ b1 ++ b2

/-- The write frame of an address byte and data (R99). -/
def writeFrameOf (addr : Byte) (data : Half) : FrameWord := frameOf addr (hi8 data) (lo8 data)

/-- The read frame of an address byte (R99, R155). -/
def readFrameOf (addr : Byte) (dummy : Byte) : FrameWord := frameOf (readAddress addr) dummy dummy

/-- The decimal digits of `n`, most significant first, at most `k` of them (R103). -/
def decimalDigits : Nat → Nat → List Byte
  | 0, _ => []
  | k + 1, n =>
    if n < 10 then [BitVec.ofNat 8 (0x30 + n)]
    else decimalDigits k (n / 10) ++ [BitVec.ofNat 8 (0x30 + n % 10)]

/-- `decimal_ascii` (R103, R138) of a number below `2^32`: at most 10 digits. -/
def decimalAscii (n : Nat) : List Byte := decimalDigits 10 n

end Sys2Proof.Machine
end

