-- ==== Sys2Proof/Machine/Flags.lean ====
section
/-! DEFINITION. The computations that take the place of flags (R43): the deadline functions, the checksum, the
queue's fullness, the debounce decision, CRC16 and the validity of a record. -/

namespace Sys2Proof.Machine

/-- `ticks_of` (R132), an exact product and a floor. -/
def ticksOf (d : Nat) : Nat :=
  if d < Config.threshMs then d else d * Config.scaleNum / Config.scaleDen

/-- `reached` (R133): the modular difference is below `2^31`, the half range of 32 bits. -/
def reached (now d : Tick) : Bool := decide ((now - d).toNat < 2147483648)

/-- Elapsed seconds of a tick count (R138), an exact product and a floor. -/
def secondsOf (now : Nat) : Nat := now * Config.scaleDen / Config.microsPerSecond

/-- `ck_step` (R156): the modulo-256 sum in the low byte, the XOR in the high byte. -/
def ckStep (c v : Half) : Half :=
  (hi8 c ^^^ hi8 v ^^^ lo8 v) ++ (lo8 c + hi8 v + lo8 v)

/-- The queue is empty (R38, R190). -/
def Queue.isEmpty (q : Queue) : Bool := q.head == q.tail

/-- The queue is full (R38, R190). -/
def Queue.isFull (q : Queue) : Bool := q.head + 1 == q.tail

/-- The number of events held (R38, R190). -/
def Queue.count (q : Queue) : Nat := (q.head - q.tail).toNat

/-- The live events, oldest first (R190). -/
def Queue.live (q : Queue) : List EventWord :=
  (List.range q.count).map (fun k => slotAt q.slot (q.tail + BitVec.ofNat 3 k))

/-- The raw level a mask takes from a register's levels (R64, R183). -/
def rawLevel (levels mask : Byte) : Bool := levels &&& mask != 0

/-- `act` (R182): the level is the active one. -/
def isActive (activeLevel raw : Bool) : Bool := raw == activeLevel

/-- One debounce step of one descriptor with the raw level just sampled: the descriptor after it, and the event
word it fires, if any (R185). A button that awaits a press, was active and still is stays so (R186, fourth row; R189;
log 35). -/
def debounce (activeLevel : Bool) (d : Descriptor) (raw : Bool) : Descriptor × Option EventWord :=
  let now := isActive activeLevel raw
  let prev := isActive activeLevel d.last
  match d.st with
  | .awaitPress =>
    if now && !prev then
      ({ d with st := .awaitRelease, last := raw }, some (eventWord false d.id))
    else ({ d with last := raw }, none)
  | .awaitRelease =>
    if !now && prev then
      ({ d with st := .awaitPress, last := raw }, some (eventWord true d.id))
    else ({ d with last := raw }, none)

/-- One bit of CRC-16/MODBUS (R211). -/
def crcBit (crc : Half) : Half :=
  if crc.getLsbD 0 then (crc >>> 1) ^^^ 0xA001#16 else crc >>> 1

/-- One byte of CRC-16/MODBUS (R211). -/
def crcByte (crc : Half) (x : Byte) : Half :=
  crcBit (crcBit (crcBit (crcBit (crcBit (crcBit (crcBit (crcBit (crc ^^^ x.zeroExtend 16))))))))

/-- CRC-16/MODBUS of a byte string, lowest offset first (R211). -/
def crcModbus (bytes : List Byte) : Half := bytes.foldl crcByte 0xFFFF#16

/-- The configured `CRC16` (R211, P4). -/
def crcOf (c : Config.CrcChoice) (bytes : List Byte) : Half :=
  match c with
  | .modbus => crcModbus bytes
  | .other k => Config.crcOther k bytes

/-- `valid` (R213). -/
def validRecord (c : Config.CrcChoice) (r : CalRecord) : Bool :=
  r.sig == Config.signature && crcOf c (recordBody r) == r.crc

/-- The record with its CRC recomputed (R214, R217, R218). -/
def sealRecord (c : Config.CrcChoice) (r : CalRecord) : CalRecord :=
  { r with crc := crcOf c (recordBody r) }

end Sys2Proof.Machine
end

