-- ==== Sys2Proof/Machine/Ops.lean ====
section
/-! DEFINITION. The named operations over memory, lines, queue, record and interface that the meanings share, and
the interrupt: entry and return (R247, R252, R253), the critical section (R14, R76), reset (R270). -/

namespace Sys2Proof.Machine

-- ---------------------------------------------------------------- byte memory

/-- The byte at an address; an unlisted one reads as `Config.freshByte` (R42; log 11). -/
def memRead : Memory → Nat → Byte
  | [], _ => Config.freshByte
  | (a, b) :: rest, x => if a = x then b else memRead rest x

/-- The memory with one byte written, in canonical form. -/
def memWrite : Memory → Nat → Byte → Memory
  | [], x, v => if v = Config.freshByte then [] else [(x, v)]
  | (a, b) :: rest, x, v =>
    if x < a then
      if v = Config.freshByte then (a, b) :: rest else (x, v) :: (a, b) :: rest
    else if x = a then
      if v = Config.freshByte then rest else (x, v) :: rest
    else (a, b) :: memWrite rest x v

/-- `MemRead(space, addr, n)` (R12). -/
def memReadList (m : Memory) (addr n : Nat) : List Byte :=
  (List.range n).map (fun k => memRead m (addr + k))

/-- `MemWrite(space, addr, n, v)` (R12). -/
def memWriteList : Memory → Nat → List Byte → Memory
  | m, _, [] => m
  | m, addr, b :: bs => memWriteList (memWrite m addr b) (addr + 1) bs

-- ---------------------------------------------------------------- history, interface

/-- `record` (R17). -/
def record (o : Obs) (s : State) : State := { s with log := o :: s.log }

/-- The end of a foreground operation: `DONE` with `RES` (R97). -/
def finish (res : BitVec 32) (s : State) : State :=
  { s with port := { s.port with done := true, res := res, spinning := false } }

/-- The operation hands its result to its caller inside the block (log 6, log 26). -/
def giveInner (v : BitVec 32) (s : State) : State :=
  { s with port := { s.port with innerRes := v } }

/-- `BLOCK_UNTIL` goes on waiting: no `DONE` (R97, R136). -/
def keepWaiting (s : State) : State :=
  { s with port := { s.port with done := false, spinning := true } }

/-- One free value is taken. -/
def drawn (s : State) : State := { s with env := { s.env with draws := s.env.draws + 1 } }

-- ---------------------------------------------------------------- contexts

/-- The operation is permitted in the foreground only (R255); in the handler it is refused (U5). -/
def foregroundOnly (s : State) (k : Host.Outcome State Fault Refusal) : Host.Outcome State Fault Refusal :=
  if s.irq.inIsr then .refused .contextForbidden else k

/-- The operation is permitted in the handler only (R255); in the foreground it is refused. -/
def interruptOnly (s : State) (k : Host.Outcome State Fault Refusal) : Host.Outcome State Fault Refusal :=
  if s.irq.inIsr then k else .refused .contextForbidden

-- ---------------------------------------------------------------- critical sections (R14, R76, R248, R249)

/-- The section begins: the interrupt is masked. -/
def enterSection (s : State) : State := { s with irq := { s.irq with masked := true } }

/-- A tick event that arrives inside the section stays pending; it is not served here and not lost (R248, R249).
One that finds another pending has not arrived yet (R249's premise; log 15). -/
def latchMidTick (s : State) : State :=
  { s with
    irq := { s.irq with pending := s.irq.pending || s.env.midTick }
    env := { s.env with midTick := s.env.midTick && s.irq.pending } }

/-- The section ends: the interrupt is unmasked. -/
def leaveSection (s : State) : State := { s with irq := { s.irq with masked := false } }

/-- `atomic` (R14): a stretch with the interrupt suspended. -/
def critical (body : State → State) (s : State) : State :=
  leaveSection (latchMidTick (body (enterSection s)))

/-- The foreground's `SNAPSHOT()`: the tick read whole in one critical section, and the state after it (R122). -/
def snapshotTick (s : State) : Tick × State := (s.tick, critical (fun t => t) s)

-- ---------------------------------------------------------------- the timer interrupt

/-- `ADVANCE` (R121). -/
def advanceTick (s : State) : State := record .tick { s with tick := s.tick + 1 }

/-- The command word of `ADVANCE` (R94). -/
def advanceWord : CommandWord := mkCw 0x80 0 0

/-- The command word of `SERVICE` (R94). -/
def serviceWord : CommandWord := mkCw 0x98 0 0

/-- Entry: a pending tick event is served, the handler begins with `ADVANCE`; nothing else of the state changes
(R247, R248, R252). -/
def enterIsr (s : State) : State :=
  { s with irq := { s.irq with pending := false, inIsr := true, op := some advanceWord } }

/-- Return: the foreground resumes where it was; nothing is restored (R253). -/
def leaveIsr (s : State) : State :=
  { s with irq := { s.irq with inIsr := false, op := none } }

/-- The tick at which the handler also performs the service step (R184, R247). -/
def serviceDue (tick : Tick) : Bool := tick.toNat % Config.serviceDiv == 0

/-- After an operation of the handler: `SERVICE` follows `ADVANCE` when it is due, else the handler is at its end
(R247). -/
def handlerAfter (i : Instr) (s : State) : State :=
  { s with irq := { s.irq with
      op := if i = .advance ∧ serviceDue s.tick = true then some serviceWord else none } }

-- ---------------------------------------------------------------- the event queue

/-- `PUSH` (R191): drop when full, else the slot first and then the cursor. -/
def pushEvent (ev : EventWord) (s : State) : State :=
  if s.evq.isFull then record (.drop ev) s
  else
    { s with evq := { s.evq with slot := setSlot s.evq.slot s.evq.head ev, head := s.evq.head + 1 } }

/-- The pop of `POLL_EVENT`, inside its critical section (R193). -/
def popEvent (s : State) : State :=
  { s with evq := { s.evq with tail := if s.evq.isEmpty then s.evq.tail else s.evq.tail + 1 } }

/-- The result word of `POLL_EVENT` (R97). -/
def pollResult (q : Queue) : BitVec 32 :=
  if q.isEmpty then 0 else (1#1 ++ slotAt q.slot q.tail).zeroExtend 32

-- ---------------------------------------------------------------- buttons

/-- `MemRead(IN, loc, 1)` (R64): the environment's answer, and the state after it. -/
def readInput (loc : Byte) (s : State) : Byte × State :=
  match s.env.inp with
  | v :: rest => (v, { s with env := { s.env with inp := rest } })
  | [] => (Config.inDraw s.env.draws loc, drawn s)

/-- The events a debounce step fires, pushed (R185). -/
def pushFired (ev : Option EventWord) (s : State) : State :=
  match ev with
  | some e => pushEvent e s
  | none => s

/-- One descriptor's service step: sample, debounce, push (R183, R185). -/
def serviceOne (d : Descriptor) (s : State) : Descriptor × State :=
  let v := readInput d.loc s
  let r := debounce s.board.activeLevel d (rawLevel v.1 d.mask)
  (r.1, pushFired r.2 v.2)

/-- The service step over descriptors in registration order (R185, R251). -/
def serviceList : List Descriptor → State → List Descriptor × State
  | [], s => ([], s)
  | d :: ds, s =>
    let one := serviceOne d s
    let rest := serviceList ds one.2
    (one.1 :: rest.1, rest.2)

/-- `SERVICE` (R185). -/
def serviceStep (s : State) : State :=
  let r := serviceList s.btn s
  { r.2 with btn := r.1 }

/-- A further descriptor fits the store: `NBTN < MAX_BUTTONS`, and `MAX_BUTTONS` is at least 1 (R34, R181). -/
def hasRoom : Nat → Nat → Bool
  | 0, _ => true
  | n + 1, maxPred => decide (n < maxPred)

/-- The append of `REGISTER_BUTTON`, inside its critical section (R181). -/
def appendButton (loc mask id : Byte) (s : State) : State :=
  drawn { s with btn := s.btn ++
    [{ loc := loc, mask := mask, id := id, st := .awaitPress, last := Config.btnInitLast s.env.draws }] }

-- ---------------------------------------------------------------- the serial link

/-- `Wait(T)`: time passes, no state changes (R13). -/
def wait (_t : Nat) (s : State) : State := s

/-- The bit `DevIdeal` puts on `SDI` in the present clock-low phase, if it drives the line: in the 16 phases after
the address byte of a read frame, bit 15 first (R66). -/
def icDrives : Ic → Option Bool
  | .oracle => none
  | .ideal dev shift count =>
    if 8 ≤ count ∧ count < 24 then
      let address := (shift >>> (count - 8)).extractLsb' 0 8
      if address.getLsbD 7 = true ∧ (address.extractLsb' 0 7).toNat ≤ Config.devAddrMax then
        some ((dev.getD (address.extractLsb' 0 7).toNat 0).getLsbD (23 - count))
      else none
    else none

/-- `DevIdeal` takes the level of `SDO` at a rising edge; after the 24th it sets the register of a write frame
(R66). -/
def icTake (level : Bool) : Ic → Ic
  | .oracle => .oracle
  | .ideal dev shift count =>
    let shift' := (shift <<< 1) ||| (BitVec.ofBool level).zeroExtend 24
    if count = 23 then
      .ideal
        (if shift'.getLsbD 23 then dev
          else dev.setIfInBounds (shift'.extractLsb' 16 7).toNat (shift'.extractLsb' 0 16))
        shift' 0
    else .ideal dev shift' (count + 1)

/-- `Drive(SCLK, level)` (R13); a rising edge is seen by the IC (R66). -/
def driveSclk (level : Bool) (s : State) : State :=
  { s with
    sst := { s.sst with sclk := level }
    log := if s.sst.sclk = level then s.log else .sclk level :: s.log
    ic := if level && !s.sst.sclk then icTake s.sst.sdo s.ic else s.ic }

/-- `Drive(SDO, level)` (R13). -/
def driveSdo (level : Bool) (s : State) : State :=
  { s with
    sst := { s.sst with sdo := level }
    log := if s.sst.sdo = level then s.log else .sdo level :: s.log }

/-- `Sample(SDI)` (R13, R66): the IC's bit where it drives the line, else the environment's next answer, else a
free value. -/
def sampleSdi (s : State) : Bool × State :=
  match icDrives s.ic with
  | some b => (b, record (.sdi b) s)
  | none =>
    match s.env.sdi with
    | b :: rest => (b, record (.sdi b) { s with env := { s.env with sdi := rest } })
    | [] => (Config.sdiDraw s.env.draws, record (.sdi (Config.sdiDraw s.env.draws)) (drawn s))

/-- `START_COND` (R151), where its `require` holds. -/
def startCondition (s : State) : State :=
  wait s.board.tStart (driveSclk false { s with sst := { s.sst with busy := true } })

/-- `EXCHANGE_BIT` (R152): the bit received and the state after the bit period. -/
def exchangeBitOp (o : Bool) (s : State) : Bool × State :=
  let r := sampleSdi (wait s.board.tSetup (driveSdo o (driveSclk false s)))
  (r.1, wait s.board.tHold (driveSclk true r.2))

/-- The loop of `EXCHANGE_BYTE` with `BITCNT = k` (R153). -/
def exchangeBits : Nat → State → State
  | 0, s => s
  | k + 1, s =>
    let r := exchangeBitOp (s.sst.sho.getLsbD k) s
    exchangeBits k
      { r.2 with sst := { r.2.sst with shi := setBit r.2.sst.shi k r.1, bitcnt := BitVec.ofNat 4 k } }

/-- `EXCHANGE_BYTE` (R153): the byte received and the state after it. -/
def exchangeByteOp (o : Byte) (s : State) : Byte × State :=
  let t := exchangeBits 8 { s with sst := { s.sst with sho := o, shi := 0, bitcnt := 8 } }
  (t.sst.shi, t)

/-- One transaction with the 24 outgoing bits `f` (R154, R155, R162), where the start condition's `require`
holds: the last 16 bits received, high byte first, and the state after it. -/
def transact (f : FrameWord) (s : State) : Half × State :=
  let r0 := exchangeByteOp (f.extractLsb' 16 8) (startCondition s)
  let r1 := exchangeByteOp (f.extractLsb' 8 8) r0.2
  let r2 := exchangeByteOp (f.extractLsb' 0 8) r1.2
  (be16 r1.1 r2.1, { r2.2 with sst := { r2.2.sst with busy := false } })

/-- The transaction of `WRITE_TRANSACTION` (R154). -/
def writeRegister (addr : Byte) (data : Half) (s : State) : State :=
  (transact (writeFrameOf addr data) s).2

/-- The transaction of `READ_TRANSACTION` (R155). -/
def readRegister (addr : Byte) (s : State) : Half × State :=
  transact (readFrameOf addr s.board.dummyByte) s

/-- Why the link cannot open a transaction, if it cannot (R151, R160 a). -/
def linkRefusal (s : State) : Option Refusal :=
  if s.sst.busy then some .transportBusy
  else if s.sst.sclk then none
  else some .lineNotIdle

/-- `CKSUM <- 0x0000` (R157, R158). -/
def clearChecksum (s : State) : State := { s with sst := { s.sst with cksum := 0 } }

/-- `CKSUM <- ck_step(CKSUM, v)` (R156 to R158). -/
def addChecksum (v : Half) (s : State) : State :=
  { s with sst := { s.sst with cksum := ckStep s.sst.cksum v } }

/-- The number of addresses of an inclusive range, 0 if it is empty (R157, R158). -/
def rangeLength (first last : Byte) : Nat := last.toNat + 1 - first.toNat

/-- The loop of `WRITE_BLOCK`: `n` registers from `addr`, values from `BUF[k]` on (R157). -/
def writeRange : Nat → Byte → Nat → State → State
  | 0, _, _, s => s
  | n + 1, addr, k, s =>
    let v := bufAt s.sst.buf k
    writeRange n (addr + 1) (k + 1) (addChecksum v (writeRegister addr v s))

/-- The loop of a read-block: the values of `n` registers from `addr`, and the state after it (R158). -/
def readRange : Nat → Byte → State → List Half × State
  | 0, _, s => ([], s)
  | n + 1, addr, s =>
    let r := readRegister addr s
    let rest := readRange n (addr + 1) (addChecksum r.1 r.2)
    (r.1 :: rest.1, rest.2)

/-- The values received put into `BUF` from element `k` on (R158). -/
def storeBuf : Nat → List Half → Vector Half 112 → Vector Half 112
  | _, [], buf => buf
  | k, v :: vs, buf => storeBuf (k + 1) vs (buf.setIfInBounds k v)

/-- `WRITE_BLOCK` where its preconditions hold (R157). -/
def writeBlockOp (first last : Byte) (s : State) : State :=
  writeRange (rangeLength first last) first 0 (clearChecksum s)

/-- `READ_BLOCK` where its preconditions hold (R158). -/
def readBlockOp (first last : Byte) (s : State) : State :=
  let r := readRange (rangeLength first last) first (clearChecksum s)
  { r.2 with sst := { r.2.sst with buf := storeBuf 0 r.1 r.2.sst.buf } }

-- ---------------------------------------------------------------- the record

/-- The record image in `NVM` (R62, R102). -/
def nvmImage (s : State) : List Byte := memReadList s.nvm s.board.nvmBase Config.recBytes

/-- `nvm_store()` (R219): the whole record, one event. -/
def nvmStore (s : State) : State :=
  record (.nvmWrite s.board.nvmBase (recordBytes s.cal.work))
    { s with nvm := memWriteList s.nvm s.board.nvmBase (recordBytes s.cal.work) }

/-- `WORK <- r`. -/
def setWork (r : CalRecord) (s : State) : State := { s with cal := { s.cal with work := r } }

/-- `WORK.crc` recomputed and the record stored (R214, R217, R218). -/
def sealAndStore (s : State) : State :=
  nvmStore (setWork (sealRecord s.board.crc s.cal.work) s)

/-- The `FORCED` values written into a record, in list order (R214). -/
def applyForced (forced : List (Fin 21 × Half)) (r : CalRecord) : CalRecord :=
  forced.foldl (fun w p => setField w p.1.val p.2) r

/-- The record the defaulting builds from the values read, before its CRC (R214). -/
def defaultedRecord (forced : List (Fin 21 × Half)) (meter meas : List Half) (crc : Half) : CalRecord :=
  applyForced forced
    { sig := Config.signature
      meter := Vector.ofFn (fun k => meter.getD k.val 0)
      meas := Vector.ofFn (fun k => meas.getD k.val 0)
      crc := crc }

/-- `default_record()` (R214), where a transaction can be opened: the meter range is read first, then the
measurement range, each a read-block whose checksum is discarded. -/
def defaultRecord (s : State) : State :=
  let m := readRange 11 (BitVec.ofNat 8 s.board.meterFirst.val) (clearChecksum s)
  let j := readRange 10 (BitVec.ofNat 8 s.board.measFirst.val) (clearChecksum m.2)
  sealAndStore (setWork (defaultedRecord s.board.forced m.1 j.1 s.cal.work.crc) j.2)

/-- `CAL_LOADED <- 1` (R212). -/
def markLoaded (s : State) : State := { s with cal := { s.cal with loaded := true } }

-- ---------------------------------------------------------------- reset and inputs

/-- Reset (R270, R271): every element of the block takes its reset value, its unspecified ones from a fresh draw;
`NVM`, the environment, the IC, the board and the history are not the block's to reset (log 19). -/
def resetBlock (s : State) : State :=
  { drawn s with
    tick := 0
    sst := Transport.afterReset s.env.draws
    btn := []
    evq := Queue.afterReset s.env.draws
    cal := CalStore.afterReset s.env.draws
    irq := Interrupt.afterReset
    port := Port.afterReset }

/-- Loss of power in a record write (R82): reset, and `NVM` holds the image. -/
def powerLost (image : Vector Byte 46) (s : State) : State :=
  { resetBlock s with nvm := memWriteList s.nvm s.board.nvmBase image.toList }

/-- A tick event arrives between two actions (R248). -/
def tickArrives (s : State) : State := { s with irq := { s.irq with pending := true } }

end Sys2Proof.Machine
end

