-- ==== Sys2Proof/Machine/Buttons.lean ====
section
/-! DEFINITION. The meanings of the Button Pipeline's and the Event Queue's operations (43_button_pipeline.md). -/

namespace Sys2Proof.Machine

/-- `REGISTER_BUTTON` (R181): the append is one critical section; refused when the store is full (R196 a). -/
def execRegisterButton (loc mask id : Byte) (s : State) : Host.Outcome State Fault Refusal :=
  foregroundOnly s
    (if hasRoom s.nbtn s.board.maxButtonsPred then
      .next (finish 0 (critical (appendButton loc mask id) s))
    else .refused .storeFull)

/-- `POLL_EVENT` (R193): test, read and advance in one critical section; the event in `RES` (R97). -/
def execPollEvent (s : State) : Host.Outcome State Fault Refusal :=
  foregroundOnly s (.next (finish (pollResult s.evq) (critical popEvent s)))

/-- `PUSH` (R191): `IRQ` only. -/
def execPush (event : EventWord) (s : State) : Host.Outcome State Fault Refusal :=
  interruptOnly s (.next (pushEvent event s))

/-- `SERVICE` (R185): `IRQ` only. -/
def execService (s : State) : Host.Outcome State Fault Refusal :=
  interruptOnly s (.next (serviceStep s))

end Sys2Proof.Machine
end

