-- ==== Sys2Proof/Machine/Calibration.lean ====
section
/-! DEFINITION. The meanings of the Calibration Store's operations (44_calibration_store.md). All belong to the
foreground (R210, R255). -/

namespace Sys2Proof.Machine

/-- A loaded store (R222 a): else refused. -/
def onLoadedStore (s : State) (k : Host.Outcome State Fault Refusal) : Host.Outcome State Fault Refusal :=
  foregroundOnly s (if s.cal.loaded then k else .refused .notLoaded)

/-- A loaded store and an offset it has (R222 a, b): else refused. -/
def onStoreField (offset : Byte) (s : State) (k : Host.Outcome State Fault Refusal) :
    Host.Outcome State Fault Refusal :=
  onLoadedStore s (if offset.toNat ≤ Config.offsetMax then k else .refused .badOffset)

/-- The byte string of `CRC16` performed on its own: the first `n` bytes of `bytes(WORK)`, which for the rule's
`n = 44` is the string it names; more bytes than the record has are nowhere in the block, and the result is then
free (R211; log 7). -/
def crcOfWork (n : Half) (s : State) : Half :=
  if n.toNat ≤ Config.recBytes then crcOf s.board.crc ((recordBytes s.cal.work).take n.toNat)
  else Config.crcBeyond s.env.draws n

/-- `CRC16` (R211): the result goes to the caller. -/
def execCrc16 (n : Half) (s : State) : Host.Outcome State Fault Refusal :=
  foregroundOnly s
    (let t := if n.toNat ≤ Config.recBytes then s else drawn s
     .next (giveInner ((crcOfWork n s).zeroExtend 32) t))

/-- `CAL_LOAD` (R212): the image as it is if it is valid, else defaulting and one record write. -/
def execCalLoad (s : State) : Host.Outcome State Fault Refusal :=
  foregroundOnly s
    (if s.sst.busy then .refused .transportBusy
     else
      let t := setWork (recordOf (nvmImage s)) s
      if validRecord s.board.crc t.cal.work then .next (finish 0 (markLoaded t))
      else if s.sst.sclk then .next (finish 0 (markLoaded (defaultRecord t)))
      else .refused .lineNotIdle)

/-- `CAL_READ_FIELD` (R216): the value in `RES[15:0]`. -/
def execCalReadField (offset : Byte) (s : State) : Host.Outcome State Fault Refusal :=
  onStoreField offset s (.next (finish ((getField s.cal.work offset.toNat).zeroExtend 32) s))

/-- `CAL_UPDATE_FIELD` (R217). -/
def execCalUpdateField (offset : Byte) (value : Half) (s : State) : Host.Outcome State Fault Refusal :=
  onStoreField offset s
    (.next (finish 0 (sealAndStore (setWork (setField s.cal.work offset.toNat value) s))))

/-- `CAL_PERSIST` (R218). -/
def execCalPersist (s : State) : Host.Outcome State Fault Refusal :=
  onLoadedStore s (.next (finish 0 (sealAndStore s)))

end Sys2Proof.Machine
end

