-- ==== Sys2Proof/Machine/Scheduler.lean ====
section
/-! DEFINITION. The meanings of the Scheduler Primitives (41_scheduler.md): each takes one snapshot and computes
from it (R130). -/

namespace Sys2Proof.Machine

/-- `COMPUTE_DEADLINE` (R131). -/
def execComputeDeadline (durationMs : BitVec 16) (s : State) : Host.Outcome State Fault Refusal :=
  foregroundOnly s
    (let r := snapshotTick s
     .next (finish (r.1 + BitVec.ofNat 32 (ticksOf durationMs.toNat)) r.2))

/-- `IS_EXPIRED` (R134): `RES[0]` is the answer. -/
def execIsExpired (deadline : Tick) (s : State) : Host.Outcome State Fault Refusal :=
  foregroundOnly s
    (let r := snapshotTick s
     .next (finish ((BitVec.ofBool (reached r.1 deadline)).zeroExtend 32) r.2))

/-- `BLOCK_UNTIL` (R136): one iteration of its loop. With the deadline reached it is complete; else it goes on
waiting, and any number of tick events may be served before the next iteration (log 5). -/
def execBlockUntil (deadline : Tick) (s : State) : Host.Outcome State Fault Refusal :=
  foregroundOnly s
    (let r := snapshotTick s
     if reached r.1 deadline then .next (finish 0 r.2) else .next (keepWaiting r.2))

/-- `FORMAT_ELAPSED` (R138): the seconds in `RES` and their decimal string in `STR`; from the horizon on any
string and any number (R139, V8; log 13). -/
def execFormatElapsed (s : State) : Host.Outcome State Fault Refusal :=
  foregroundOnly s
    (let r := snapshotTick s
     if r.1.toNat < Config.horizonTicks then
       let t := finish (BitVec.ofNat 32 (secondsOf r.1.toNat)) r.2
       .next { t with port := { t.port with str := decimalAscii (secondsOf r.1.toNat) } }
     else
       let t := drawn (finish (Config.elapsedRes s.env.draws) r.2)
       .next { t with port := { t.port with str := Config.elapsedStr s.env.draws } })

end Sys2Proof.Machine
end

