-- ==== Sys2Proof/Machine/Serial.lean ====
section
/-! DEFINITION. The meanings of the Bit-Level Transport's operations (42_serial_transport.md) and of the two wire
frames (R99). All belong to the foreground (R150, R255). -/

namespace Sys2Proof.Machine

/-- Permitted in the foreground, with the register address inside `DEV` (R160 b), on an idle link (R160 a, R151):
else refused. -/
def onIdleLink (addr : Nat) (s : State) (k : Host.Outcome State Fault Refusal) :
    Host.Outcome State Fault Refusal :=
  foregroundOnly s
    (if addr ≤ Config.devAddrMax then
      match linkRefusal s with
      | none => k
      | some r => .refused r
    else .refused .addrOutOfRange)

/-- `START_COND` (R151). -/
def execStartCond (s : State) : Host.Outcome State Fault Refusal :=
  foregroundOnly s
    (match linkRefusal s with
     | none => .next (startCondition s)
     | some r => .refused r)

/-- `EXCHANGE_BIT` (R152): the bit received goes to the caller. -/
def execExchangeBit (out : Bool) (s : State) : Host.Outcome State Fault Refusal :=
  foregroundOnly s
    (let r := exchangeBitOp out s
     .next (giveInner ((BitVec.ofBool r.1).zeroExtend 32) r.2))

/-- `EXCHANGE_BYTE` (R153): the byte received goes to the caller. -/
def execExchangeByte (out : Byte) (s : State) : Host.Outcome State Fault Refusal :=
  foregroundOnly s
    (let r := exchangeByteOp out s
     .next (giveInner (r.1.zeroExtend 32) r.2))

/-- `WRITE_TRANSACTION` (R154). -/
def execWriteTransaction (addr : Byte) (data : Half) (s : State) : Host.Outcome State Fault Refusal :=
  onIdleLink addr.toNat s (.next (finish 0 (writeRegister addr data s)))

/-- `READ_TRANSACTION` (R155): the value in `RES[15:0]`. -/
def execReadTransaction (addr : Byte) (s : State) : Host.Outcome State Fault Refusal :=
  onIdleLink addr.toNat s
    (let r := readRegister addr s
     .next (finish (r.1.zeroExtend 32) r.2))

/-- A block operation's preconditions (R157, R158, R160): the last address is inside `DEV` and no transaction is in
progress; if the range is not empty the first start condition's `require` holds. -/
def onBlockLink (first last : Byte) (s : State) (k : Host.Outcome State Fault Refusal) :
    Host.Outcome State Fault Refusal :=
  foregroundOnly s
    (if last.toNat ≤ Config.devAddrMax then
      if s.sst.busy then .refused .transportBusy
      else if first.toNat ≤ last.toNat ∧ s.sst.sclk = false then .refused .lineNotIdle
      else k
    else .refused .addrOutOfRange)

/-- `WRITE_BLOCK` (R157): the checksum in `RES[15:0]`. -/
def execWriteBlock (first last : Byte) (s : State) : Host.Outcome State Fault Refusal :=
  onBlockLink first last s
    (let t := writeBlockOp first last s
     .next (finish (t.sst.cksum.zeroExtend 32) t))

/-- `READ_BLOCK` (R158): the checksum in `RES[15:0]`, the values in `BUF`. -/
def execReadBlock (first last : Byte) (s : State) : Host.Outcome State Fault Refusal :=
  onBlockLink first last s
    (let t := readBlockOp first last s
     .next (finish (t.sst.cksum.zeroExtend 32) t))

/-- `FRAME_WRITE` (R99): the write frame put on the wire after one start condition; the 24 bits received are
discarded (log 8). -/
def execFrameWrite (addr : BitVec 7) (data : Half) (s : State) : Host.Outcome State Fault Refusal :=
  onIdleLink addr.toNat s (.next (transact (0b0#1 ++ addr ++ data) s).2)

/-- `FRAME_READ` (R99): the read frame put on the wire after one start condition; the last 16 bits received go to
the caller (log 8). -/
def execFrameRead (addr : BitVec 7) (dummy : Half) (s : State) : Host.Outcome State Fault Refusal :=
  onIdleLink addr.toNat s
    (let r := transact (0b1#1 ++ addr ++ dummy) s
     .next (giveInner (r.1.zeroExtend 32) r.2))

end Sys2Proof.Machine
end

