-- ==== Sys2Proof/Machine/TickClock.lean ====
section
/-! DEFINITION. The meanings of the Tick Clock's operations (40_tick_clock.md). -/

namespace Sys2Proof.Machine

/-- `SNAPSHOT` (R122): from the foreground a critical section and `RES`; in the handler a plain read whose value
goes to the handler (log 26). -/
def execSnapshot (s : State) : Host.Outcome State Fault Refusal :=
  if s.irq.inIsr then .next (giveInner s.tick s)
  else
    let r := snapshotTick s
    .next (finish r.1 r.2)

/-- `ADVANCE` (R121): `IRQ` only. -/
def execAdvance (s : State) : Host.Outcome State Fault Refusal :=
  interruptOnly s (.next (advanceTick s))

end Sys2Proof.Machine
end

