-- ==== Sys2Proof/Machine/Dispatch.lean ====
section
/-! DEFINITION. The meaning of every operation, one arm per row of spec/opcode_table.json. -/

namespace Sys2Proof.Machine

def exec (i : Instr) (s : State) : Host.Outcome State Fault Refusal :=
  match i with
  | .snapshot => Sys2Proof.Machine.execSnapshot s
  | .computeDeadline d => Sys2Proof.Machine.execComputeDeadline d s
  | .isExpired t => Sys2Proof.Machine.execIsExpired t s
  | .blockUntil t => Sys2Proof.Machine.execBlockUntil t s
  | .formatElapsed => Sys2Proof.Machine.execFormatElapsed s
  | .writeTransaction addr data => Sys2Proof.Machine.execWriteTransaction addr data s
  | .readTransaction addr => Sys2Proof.Machine.execReadTransaction addr s
  | .writeBlock first last => Sys2Proof.Machine.execWriteBlock first last s
  | .readBlock first last => Sys2Proof.Machine.execReadBlock first last s
  | .registerButton loc mask id => Sys2Proof.Machine.execRegisterButton loc mask id s
  | .pollEvent => Sys2Proof.Machine.execPollEvent s
  | .calLoad => Sys2Proof.Machine.execCalLoad s
  | .calReadField offset => Sys2Proof.Machine.execCalReadField offset s
  | .calUpdateField offset value => Sys2Proof.Machine.execCalUpdateField offset value s
  | .calPersist => Sys2Proof.Machine.execCalPersist s
  | .startCond => Sys2Proof.Machine.execStartCond s
  | .exchangeBit o => Sys2Proof.Machine.execExchangeBit o s
  | .exchangeByte o => Sys2Proof.Machine.execExchangeByte o s
  | .push ev => Sys2Proof.Machine.execPush ev s
  | .crc16 n => Sys2Proof.Machine.execCrc16 n s
  | .advance => Sys2Proof.Machine.execAdvance s
  | .service => Sys2Proof.Machine.execService s
  | .frameWrite addr data => Sys2Proof.Machine.execFrameWrite addr data s
  | .frameRead addr dummy => Sys2Proof.Machine.execFrameRead addr dummy s

end Sys2Proof.Machine
end

