-- ==== Sys2Proof/Machine/Fetch.lean ====
section
/-! DEFINITION. What the machine does next (R75, R97, R247 to R253): the handler's next operation, the entry of the
handler, the foreground's operation, or an input from outside. -/

namespace Sys2Proof.Machine

/-- The next thing that happens. -/
inductive Action where
  /-- An operation is performed. -/
  | perform (i : Instr)
  /-- The state moves without one. -/
  | moved (s : State)
  /-- An input reaches an element that does not exist. -/
  | broken (r : Fault)
  /-- A request has no step. -/
  | refuse (r : Refusal)
  deriving DecidableEq, Repr

/-- The operation a word requests, from one that may present its class (R92, R96). -/
def fetchWord (cw : CommandWord) (cls : OpClass) : Action :=
  match decodeCw cw with
  | .ok i => if i.opClass = cls then .perform i else .refuse .notIssuable
  | .error _ => .refuse .reservedOp

/-- The operation of the handler: its words may be of any class; the operation itself refuses what R255 forbids in
the handler. -/
def fetchHandler (cw : CommandWord) : Action :=
  match decodeCw cw with
  | .ok i => .perform i
  | .error _ => .refuse .reservedOp

/-- The operation the foreground is asked to perform: the host presents foreground commands only (R96 b). -/
def fetchRequest : Request → Action
  | .host cw => fetchWord cw .foreground
  | .inner cw => fetchWord cw .internal
  | .frame f => .perform (decodeFrame f)

/-- The inbox without its first input. -/
def consume (s : State) : State := { s with env := { s.env with inbox := s.env.inbox.drop 1 } }

/-- A tick event arrives between two actions of the foreground (R248); while another is pending it has no step
(R249; log 15). -/
def takeTick (s : State) : Action :=
  if s.irq.pending then .refuse .tickWhilePending else .moved (tickArrives s)

/-- The host acts: not before `DONE` (R97, R262; U9). -/
def takeHost (s : State) (k : Action) : Action :=
  if s.port.request.isSome then .refuse .secondCommand else k

/-- The wait of `BLOCK_UNTIL` goes on to its next iteration (R136). -/
def resumeLoop (s : State) : State := { s with port := { s.port with spinning := false } }

/-- With nothing listed, a foreground that waits in `BLOCK_UNTIL` takes its next iteration after the tick event that
arrives now, or only after a later one: a free value (R136, R137, V3; log 3). -/
def drawIteration (s : State) : State :=
  if s.port.spinning then
    drawn { s with port := { s.port with spinning := !Config.iterates s.env.draws } }
  else s

/-- What the outside does next. Two tick events are not announced for one critical section (R249; log 15). Power lost
while an operation waits finds no record write in progress (R82; log 20). With nothing listed the timer goes on: a
tick event arrives (R246, R263; log 3). -/
def takeInput (s : State) : Action :=
  match s.env.inbox with
  | [] => takeTick (drawIteration s)
  | .tick :: _ => takeTick (consume s)
  | .tickInSection :: _ =>
    if s.env.midTick then .refuse .tickWhilePending
    else .moved (consume { s with env := { s.env with midTick := true } })
  | .iterate :: _ => .moved (consume (resumeLoop s))
  | .command cw :: _ =>
    takeHost s (.moved (consume { s with port := { s.port with request := some (.host cw), done := false } }))
  | .bufWrite k v :: _ =>
    takeHost s
      (if k < Config.bufLen then
        .moved (consume { s with sst := { s.sst with buf := s.sst.buf.setIfInBounds k v } })
      else .broken .noSuchAddress)
  | .reset :: _ => .moved (resetBlock (consume s))
  | .powerLoss image :: _ =>
    if s.port.request.isSome then .moved (resetBlock (consume s))
    else .moved (powerLost image (consume s))

/-- What happens next: in the handler its next operation, or the return (R250, R253); else, at the first moment the
interrupt is not masked, a pending tick event is served (R248), also between two iterations of `BLOCK_UNTIL`; else the
operation in progress goes on, but where `BLOCK_UNTIL` waits the outside acts, until it lets the next iteration begin
(log 5); else the outside acts. -/
def nextAction (s : State) : Action :=
  if s.irq.inIsr then
    match s.irq.op with
    | some cw => fetchHandler cw
    | none => .moved (leaveIsr s)
  else if s.irq.pending && !s.irq.masked then .moved (enterIsr s)
  else
    match s.port.request with
    | none => takeInput s
    | some r =>
      if s.port.spinning then takeInput s
      else fetchRequest r

/-- What the step adds to an operation performed: in the handler its next operation (R247); in the foreground the
request is no longer in progress, unless `BLOCK_UNTIL` waits. -/
def afterOperation (i : Instr) (t : State) : State :=
  if t.irq.inIsr then handlerAfter i t
  else if t.port.spinning then t
  else { t with port := { t.port with request := none } }

/-- The state with an operation or a frame placed where the machine takes its next one from: a foreground command
is presented by the host, an internal one by the operation around it, an operation of the handler by the handler
(log 1, log 6). -/
def placeWord (s : State) (i : Instr) (cw : CommandWord) : State :=
  match i.opClass, i with
  | .interrupt, _ | .internal, .push _ =>
    { s with irq := { s.irq with inIsr := true, op := some cw } }
  | .internal, _ =>
    { s with
      irq := { s.irq with inIsr := false, pending := false }
      port := { s.port with request := some (.inner cw), spinning := false } }
  | _, _ =>
    { s with
      irq := { s.irq with inIsr := false, pending := false }
      port := { s.port with request := some (.host cw), spinning := false } }

/-- The state with a frame placed where the machine takes its next operation from (log 8). -/
def placeFrame (s : State) (f : FrameWord) : State :=
  { s with
    irq := { s.irq with inIsr := false, pending := false }
    port := { s.port with request := some (.frame f), spinning := false } }

end Sys2Proof.Machine
end

