-- ==== Sys2Proof/Machine/Step.lean ====
section
/-! DEFINITION. One step of the machine: the next action (`nextAction`), and for an operation its meaning. -/

namespace Sys2Proof.Machine

/-- One step. -/
def step (s : State) : Host.Outcome State Fault Refusal :=
  match nextAction s with
  | .perform i =>
    match exec i s with
    | .next t => .next (afterOperation i t)
    | .fault r => .fault r
    | .refused r => .refused r
  | .moved t => .next t
  | .broken r => .fault r
  | .refuse r => .refused r

/-- `s` with the instruction of `nbits` bits `w` placed where `step` takes its next operation from (log 1). -/
def State.withFetchWord (s : State) (nbits w : Nat) : State :=
  if nbits = 24 then placeFrame s (BitVec.ofNat 24 w)
  else
    match decodeCw (BitVec.ofNat 56 w) with
    | .ok i => placeWord s i (BitVec.ofNat 56 w)
    | .error _ => placeWord s .snapshot (BitVec.ofNat 56 w)

end Sys2Proof.Machine
end

