-- ==== Sys2Proof/Machine/Pseudo.lean ====
section
/-! DEFINITION. The pseudo-operations of R106 as what they expand into: the timer handler as one state function, and
the two host sequences as command words. No rule of the block depends on the host's two. -/

namespace Sys2Proof.Machine

/-- `TIMER_ISR` (R106, R247) as one function of the state: entry, `ADVANCE`, `SERVICE` when it is due, return. -/
def timerIsr (s : State) : State :=
  let t := advanceTick (enterIsr s)
  leaveIsr (if serviceDue t.tick then serviceStep t else t)

/-- The command words of `DELAY_MS d`, the second one for the Deadline `x` the first one returned (R106). -/
def delayMs (d : BitVec 16) (x : Tick) : List Word :=
  [encode (.computeDeadline d), encode (.blockUntil x)]

/-- The command words of `CAL_SESSION_WRITE f, l, cs_reg`, with the checksum `c` that its `WRITE_BLOCK` returned
(R106). -/
def calSessionWrite (b : Config.Board) (first last csReg : Byte) (c : Half) : List Word :=
  [ encode (.writeTransaction b.lockReg b.unlockValue),
    encode (.writeBlock first last),
    encode (.writeTransaction csReg c),
    encode (.writeTransaction b.lockReg b.lockValue) ]

/-- A session that writes both calibration ranges: both block writes and both checksum writes between the one
unlock and the one lock (R106). Their order, the meter range before the measurement range and each block before its
checksum, is the model's: DESIGN CHOICE, log 33. -/
def calSessionBoth (b : Config.Board) (cMeter cMeas : Half) : List Word :=
  [ encode (.writeTransaction b.lockReg b.unlockValue),
    encode (.writeBlock (BitVec.ofNat 8 b.meterFirst.val) (BitVec.ofNat 8 (b.meterFirst.val + 10))),
    encode (.writeTransaction b.csMeterReg cMeter),
    encode (.writeBlock (BitVec.ofNat 8 b.measFirst.val) (BitVec.ofNat 8 (b.measFirst.val + 9))),
    encode (.writeTransaction b.csMeasReg cMeas),
    encode (.writeTransaction b.lockReg b.lockValue) ]

end Sys2Proof.Machine
end

