-- ==== Sys2Proof/Safety.lean ====
section
/-! DEFINITION. What a safe run keeps (`Inv`), and the words the claims are stated in: the waveform of a frame
(R162), bits in wire order, counts over the history (R17). -/

namespace Sys2Proof.Machine

/-- What holds of the machine between two steps. -/
structure Inv (s : State) : Prop where
  /-- The durable memory is in canonical form. -/
  memoryForm : Memory.wf s.nvm
  /-- At most `MAX_BUTTONS` descriptors (R34, R196 a). -/
  storeFits : s.nbtn ≤ s.board.maxButtons
  /-- "Transport always begins and ends with the clock line idle-high" (R27, R275). -/
  clockIdle : s.sst.sclk = true
  /-- No transaction is in progress between operations (R30). -/
  linkFree : s.sst.busy = false
  /-- No critical section is open between operations (R44). -/
  unmasked : s.irq.masked = false
  /-- Only the handler has a next operation, and no tick event is pending while it runs (R249, R250). -/
  handlerOp : if s.irq.inIsr then
      s.irq.pending = false ∧
        (s.irq.op = none ∨ s.irq.op = some advanceWord ∨ s.irq.op = some serviceWord)
    else s.irq.op = none
  /-- Only host commands are in progress. -/
  hostRequests : s.port.request = none ∨ ∃ cw, s.port.request = some (.host cw)
  /-- Only an operation in progress waits. -/
  waitsInOperation : s.port.spinning = true → s.port.request.isSome = true
  /-- `DONE` is low while an operation is in progress (R97). -/
  doneLow : s.port.request.isSome = true → s.port.done = false
  /-- The store invariant (R220). -/
  storeSealed : s.cal.loaded = true →
    validRecord s.board.crc s.cal.work = true ∧ nvmImage s = recordBytes s.cal.work
  /-- A button awaiting its release was active when last sampled: the direction of R36 that holds in every state; for
  the other see `StateMatchesLevel` (log 35). -/
  releaseActive : ∀ d ∈ s.btn, d.st = .awaitRelease → isActive s.board.activeLevel d.last = true

/-- The bits of a frame in the order they travel (R67, R99). -/
def frameBits (f : FrameWord) : List Bool := (List.range 24).map (fun k => f.getLsbD (23 - k))

/-- A 16-bit value from 16 bits, the most significant first (R67). -/
def halfOfBits (bits : List Bool) : Half :=
  bits.foldl (fun v b => (v <<< 1) ||| (BitVec.ofBool b).zeroExtend 16) 0

/-- A byte from 8 bits, the most significant first (R153). -/
def byteOfBits (bits : List Bool) : Byte :=
  bits.foldl (fun v b => (v <<< 1) ||| (BitVec.ofBool b).zeroExtend 8) 0

/-- The event of `SDO` in a bit period, present only when the bit differs from the line's level (R13, R162). -/
def sdoChange (level o : Bool) : List Obs := if level = o then [] else [.sdo o]

/-- The bit periods 2 to 24 of a frame, oldest event first: `level` is the level of `SDO` before them (R162). -/
def laterPeriods : Bool → List (Bool × Bool) → List Obs
  | _, [] => []
  | level, (o, i) :: rest =>
    [.sclk false] ++ sdoChange level o ++ [.sdi i, .sclk true] ++ laterPeriods o rest

/-- The events of one frame, oldest first (R162): the first falling edge is the start condition's. -/
def waveform (level : Bool) : List (Bool × Bool) → List Obs
  | [] => [.sclk false]
  | (o, i) :: rest =>
    [.sclk false] ++ sdoChange level o ++ [.sdi i, .sclk true] ++ laterPeriods o rest

/-- Bit periods from a level of `SCLK` and one of `SDO`, as a caller of the bit exchange finds them: oldest event
first (R152, R153). -/
def bitPeriods (clock : Bool) : Bool → List (Bool × Bool) → List Obs
  | _, [] => []
  | level, (o, i) :: rest =>
    (if clock then [.sclk false] else []) ++ sdoChange level o ++ [.sdi i, .sclk true] ++ laterPeriods o rest

/-- The bits of a byte in the order they travel (R67, R153). -/
def byteBits (v : Byte) : List Bool := (List.range 8).map (fun k => v.getLsbD (7 - k))

/-- The events of frames sent one after the other, each with its 24 answers, oldest event first (R157, R158, R162):
after a frame `SDO` has its last bit. -/
def blockWaves : Bool → List (FrameWord × List Bool) → List Obs
  | _, [] => []
  | level, (f, ins) :: rest => waveform level ((frameBits f).zip ins) ++ blockWaves (f.getLsbD 0) rest

/-- The write frames of `n` registers from `first` on, with the values of `BUF` (R99, R157). -/
def writeFrames (first : Byte) (n : Nat) (buf : Vector Half 112) : List FrameWord :=
  (List.range n).map (fun k => (first + BitVec.ofNat 8 k) ++ bufAt buf k)

/-- The read frames of `n` registers from `first` on (R99, R158). -/
def readFrames (first : Byte) (n : Nat) (dummy : Byte) : List FrameWord :=
  (List.range n).map (fun k => ((first + BitVec.ofNat 8 k) ||| 0x80#8) ++ dummy ++ dummy)

/-- Between `s` and `t` the line was sampled as `ins` says: against the oracle the samples are the answers listed,
which are then used up (R66, V1; log 2). -/
def Hears (s t : State) (ins : List Bool) : Prop :=
  ∀ given rest, s.ic = .oracle → s.env.sdi = given ++ rest → given.length = ins.length →
    ins = given ∧ t.ic = .oracle ∧ t.env = { s.env with sdi := rest }

/-- `n` answers of 24 bits each, one for each frame. -/
def FrameAnswers (n : Nat) (answers : List (List Bool)) : Prop :=
  answers.length = n ∧ ∀ a ∈ answers, a.length = 24

/-- How often a history holds a record write (R221). -/
def writeCount (log : List Obs) : Nat :=
  log.countP (fun o => match o with | .nvmWrite _ _ => true | _ => false)

/-- How often a history holds a served tick event (R17, R123). -/
def tickCount (log : List Obs) : Nat := log.countP (fun o => o == .tick)

/-- The checksum of a sequence of values (R156). -/
def checksumOf (vs : List Half) : Half := vs.foldl ckStep 0

/-- The first `n` elements of `BUF`. -/
def bufPrefix (s : State) (n : Nat) : List Half := (List.range n).map (bufAt s.sst.buf)

/-- The state just before a foreground operation can open a transaction (R151, R160, R255). -/
def LinkReady (s : State) : Prop := s.irq.inIsr = false ∧ s.sst.busy = false ∧ s.sst.sclk = true

/-- The critical section's trace in the interrupt state: it is unmasked after it, and a tick event that arrived in
it is pending (R248, R249). -/
def afterSection (s : State) : Interrupt :=
  { s.irq with masked := false, pending := s.irq.pending || s.env.midTick }

/-- The environment after a critical section: the tick event that was to arrive in it has arrived. -/
def envAfterSection (s : State) : Env := { s.env with midTick := s.env.midTick && s.irq.pending }

/-- `DONE` raised with a result (R97). -/
def doneWith (s : State) (res : BitVec 32) : Port :=
  { s.port with done := true, res := res, spinning := false }

/-- The commands an inbox still lists. -/
def commandsOf (inbox : List Input) : List CommandWord :=
  inbox.filterMap (fun i => match i with | .command cw => some cw | _ => none)

/-- No operation is in progress, no command is still to come, and the handler is not running. -/
def AtEnd (s : State) : Prop :=
  s.irq.inIsr = false ∧ s.port.request = none ∧ commandsOf s.env.inbox = []

/-- The end of a run (R263): from `s`, with nothing in progress, the given sequence of commands is complete at `t`.
Tick events may come before, between and after them; a reset or a loss of power would cut a command short and is not
among the inputs. -/
def RunEnds (commands : List CommandWord) (s t : State) : Prop :=
  s.port.request = none ∧ commandsOf s.env.inbox = commands ∧
    (∀ i ∈ s.env.inbox, i ≠ .reset ∧ ∀ image, i ≠ .powerLoss image) ∧
    (∃ n, Host.Core.run core n s = .next t) ∧ AtEnd t

/-- The elements to which R271 gives a value have it. -/
def HasResetValues (t : State) : Prop :=
  t.tick = 0 ∧ t.sst.sclk = true ∧ t.sst.busy = false ∧ t.sst.bitcnt = 0 ∧ t.nbtn = 0 ∧ t.evq.head = 0 ∧
    t.evq.tail = 0 ∧ t.cal.loaded = false ∧ t.irq.masked = false ∧ t.irq.pending = false ∧ t.irq.inIsr = false

/-- The property of R36: a button awaits its release exactly when its last sample is the active level. It can fail
only as R186's fourth row has it (R189; log 35). -/
def StateMatchesLevel (activeLevel : Bool) (d : Descriptor) : Prop := d.st = .awaitRelease ↔ d.last = activeLevel

/-- A descriptor after service steps with a sequence of samples (R185). -/
def serviced (activeLevel : Bool) (d : Descriptor) (samples : List Bool) : Descriptor :=
  samples.foldl (fun e r => (debounce activeLevel e r).1) d

/-- A descriptor stepped through a sequence of samples: the kinds of the events it fires, oldest first
(`false` pressed, `true` released; R185, R188). -/
def firedKinds (activeLevel : Bool) : Descriptor → List Bool → List Bool
  | _, [] => []
  | d, r :: rs =>
    let step := debounce activeLevel d r
    (match step.2 with
      | some ev => [ev.getLsbD 8]
      | none => []) ++ firedKinds activeLevel step.1 rs

/-- The kinds alternate, and the first one is `next`. -/
def alternates : Bool → List Bool → Bool
  | _, [] => true
  | next, k :: ks => (k == next) && alternates (!next) ks

/-- A sequence of pushes with no pop in between (R194). -/
def pushAll (evs : List EventWord) (s : State) : State := evs.foldl (fun t ev => pushEvent ev t) s

end Sys2Proof.Machine
end

