-- ==== Sys2Proof/WellFormed.lean ====
section
/-! DEFINITION. The operand values the spec admits (R61, R63, R99, R160, R211, R222): a check on the syntax alone.
The decoder does not make it; an operation refuses an operand outside its precondition itself (R96 f). -/

namespace Sys2Proof

/-- A register address inside the `DEV` space (R61). -/
def addrOk (addr : Nat) : Bool := decide (addr ≤ Config.devAddrMax)

/-- A field offset (R63). -/
def offsetOk (offset : Nat) : Bool := decide (offset ≤ Config.offsetMax)

/-- Every operand has a value the spec admits. -/
def Instr.wellFormed : Instr → Bool
  | .writeTransaction addr _ => addrOk addr.toNat
  | .readTransaction addr => addrOk addr.toNat
  | .writeBlock _ last => addrOk last.toNat
  | .readBlock _ last => addrOk last.toNat
  | .calReadField offset => offsetOk offset.toNat
  | .calUpdateField offset _ => offsetOk offset.toNat
  | .crc16 n => n.toNat == 44
  | .frameWrite addr _ => addrOk addr.toNat
  | .frameRead addr dummy => addrOk addr.toNat && (dummy.extractLsb' 8 8 == dummy.extractLsb' 0 8)
  | .snapshot | .computeDeadline _ | .isExpired _ | .blockUntil _ | .formatElapsed
  | .registerButton _ _ _ | .pollEvent | .calLoad | .calPersist
  | .startCond | .exchangeBit _ | .exchangeByte _ | .push _ | .advance | .service => true

end Sys2Proof
end

