-- ==== Sys2Proof/Certificates/Slice0/Obligations.lean ====
section
/-! DEFINITION. The statements for the provers. Each says which rules of spec/ it formalises; the words they are
stated in are Sys2Proof/Safety.lean's. A trace that a critical section leaves (`afterSection`, `envAfterSection`)
is the model's form of R248 and R249 (log 4). -/

open Sys2Proof Sys2Proof.Machine

-- ================================================================ Tick Clock

/-- R121: in the handler `ADVANCE` adds one modulo `2^32`, records `Tick` and changes nothing else; the foreground
may not perform it. -/
def Obligations.AdvanceAddsOneTick : Prop :=
  ∀ s : State,
    (s.irq.inIsr = true →
      exec .advance s = .next { s with tick := s.tick + 1, log := .tick :: s.log }) ∧
    (s.irq.inIsr = false → exec .advance s = .refused .contextForbidden)

/-- R122: the foreground's `SNAPSHOT` gives the whole of `TICK` in `RES` and writes no other state than the trace of
its critical section; in the handler it is a plain read, whose place is the model's choice (log 26). -/
def Obligations.SnapshotReturnsWholeTick : Prop :=
  ∀ s : State,
    (s.irq.inIsr = false →
      exec .snapshot s = .next
        { s with port := doneWith s s.tick, irq := afterSection s, env := envAfterSection s }) ∧
    (s.irq.inIsr = true →
      exec .snapshot s = .next { s with port := { s.port with innerRes := s.tick } })

/-- R123: a step serves at most one tick event, and `TICK` moves with the count of served tick events; only a reset
input sets it otherwise. -/
def Obligations.TickFollowsServedEvents : Prop :=
  ∀ s t : State, step s = .next t →
    (t.tick = s.tick ∧ tickCount t.log = tickCount s.log) ∨
    (t.tick = s.tick + 1 ∧ tickCount t.log = tickCount s.log + 1) ∨
    (t.tick = 0 ∧ tickCount t.log = tickCount s.log ∧
      ∃ rest, s.env.inbox = .reset :: rest ∨ ∃ image, s.env.inbox = .powerLoss image :: rest)

-- ================================================================ Scheduler Primitives

/-- R132, with its table and the properties it lists. -/
def Obligations.TicksOfConvertsMilliseconds : Prop :=
  (∀ d, d < 42 → ticksOf d = d) ∧
  (∀ d, 42 ≤ d → ticksOf d = d * 1000 / 1024) ∧
  (∀ d e, d ≤ e → e ≤ 65535 → ticksOf d ≤ ticksOf e) ∧
  (∀ d, 0 < d → d ≤ 65535 → 0 < ticksOf d) ∧
  (∀ d, d ≤ 65535 → ticksOf d ≤ d ∧ ticksOf d ≤ 63999) ∧
  [0, 1, 41, 42, 43, 44, 100, 1000, 1024, 2048, 5000, 65535].map ticksOf =
    [0, 1, 41, 41, 41, 42, 97, 976, 1000, 2000, 4882, 63999]

/-- R133: `now` has reached `d` when the modular difference is below `2^31`, read as a signed number not negative;
where no wrap lies between them and they are less than `2^31` apart it is the plain comparison. With the half range
of R140. -/
def Obligations.ReachedIsSignedDifference : Prop :=
  ∀ now d : Tick,
    (reached now d = true ↔ ((now.toNat : Int) - (d.toNat : Int)) % 4294967296 < 2147483648) ∧
    (reached now d = true ↔ 0 ≤ (now - d).toInt) ∧
    (now.toNat < d.toNat + 2147483648 → d.toNat < now.toNat + 2147483648 →
      (reached now d = true ↔ d.toNat ≤ now.toNat)) ∧
    reached now (now + 0x80000000#32) = false ∧
    reached now (now + 0x80000001#32) = true

/-- R131 with R132: the Deadline is the tick read plus the converted duration, modulo `2^32`. -/
def Obligations.ComputeDeadlineAddsDuration : Prop :=
  ∀ (d : BitVec 16) (s : State),
    (s.irq.inIsr = false →
      exec (.computeDeadline d) s = .next
        { s with
          port := doneWith s
            (s.tick + BitVec.ofNat 32 (if d.toNat < 42 then d.toNat else d.toNat * 1000 / 1024))
          irq := afterSection s
          env := envAfterSection s }) ∧
    (s.irq.inIsr = true → exec (.computeDeadline d) s = .refused .contextForbidden)

/-- R134 with R133: `RES[0]` is 1 exactly when the signed difference is not negative, the other bits are 0, and the
Deadline and all other state are as before. -/
def Obligations.IsExpiredTestsDeadline : Prop :=
  ∀ (x : Tick) (s : State),
    (s.irq.inIsr = false →
      exec (.isExpired x) s = .next
        { s with
          port := doneWith s (if 0 ≤ (s.tick - x).toInt then 1 else 0)
          irq := afterSection s
          env := envAfterSection s }) ∧
    (s.irq.inIsr = true → exec (.isExpired x) s = .refused .contextForbidden)

/-- R136: with the Deadline reached `BLOCK_UNTIL` is complete after one iteration; else it raises no `DONE` and
waits (`spinning`, log 5), and writes nothing else; never in the handler. While it waits tick events go on arriving,
as many as come, and its next iteration begins when the outside lets it. -/
def Obligations.BlockUntilWaitsForDeadline : Prop :=
  ∀ (x : Tick) (s : State),
    (s.irq.inIsr = false → 0 ≤ (s.tick - x).toInt →
      exec (.blockUntil x) s = .next
        { s with port := doneWith s 0, irq := afterSection s, env := envAfterSection s }) ∧
    (s.irq.inIsr = false → (s.tick - x).toInt < 0 →
      exec (.blockUntil x) s = .next
        { s with
          port := { s.port with done := false, spinning := true }
          irq := afterSection s
          env := envAfterSection s }) ∧
    (s.irq.inIsr = true → exec (.blockUntil x) s = .refused .contextForbidden) ∧
    (s.irq.inIsr = false → s.irq.pending = false → s.port.request.isSome = true → s.port.spinning = true →
      ∀ rest,
        (s.env.inbox = .tick :: rest →
          step s = .next { s with irq := { s.irq with pending := true }, env := { s.env with inbox := rest } }) ∧
        (s.env.inbox = .iterate :: rest →
          step s = .next
            { s with port := { s.port with spinning := false }, env := { s.env with inbox := rest } }))

/-- R135: the deadline laws. With `j` tick events after the snapshot, fewer than `2^32`, `IS_EXPIRED` answers 1
exactly when the modular difference of `j` and the converted duration is below `2^31`. -/
def Obligations.DeadlineExpiresAfterItsTicks : Prop :=
  ∀ (d : BitVec 16) (s : State), s.irq.inIsr = false →
    ∃ t, exec (.computeDeadline d) s = .next t ∧
      ∀ (u : State) (j : Nat), u.irq.inIsr = false → j < 4294967296 →
        u.tick = s.tick + BitVec.ofNat 32 j →
        ∃ v, exec (.isExpired t.port.res) u = .next v ∧
          (v.port.res = 1 ↔ (4294967296 + j - ticksOf d.toNat) % 4294967296 < 2147483648) ∧
          (v.port.res = 0 ∨ v.port.res = 1) ∧
          (j = 0 → 0 < d.toNat → v.port.res = 0) ∧
          (ticksOf d.toNat ≤ j → j < ticksOf d.toNat + 2147483648 → v.port.res = 1) ∧
          (j = 0 → d.toNat = 0 → v.port.res = 1)

/-- R138 with R103, below the horizon: the seconds in `RES`, and in `STR` their decimal digits without a leading
zero, 1 to 10 of them. -/
def Obligations.FormatElapsedGivesSeconds : Prop :=
  ∀ s : State, s.irq.inIsr = false → s.tick.toNat < 4039453125 →
    ∃ str : List Byte,
      exec .formatElapsed s = .next
        { s with
          port := { doneWith s (BitVec.ofNat 32 (s.tick.toNat * 1024 / 1000000)) with str := str }
          irq := afterSection s
          env := envAfterSection s } ∧
      str.foldl (fun n b => 10 * n + (b.toNat - 0x30)) 0 = s.tick.toNat * 1024 / 1000000 ∧
      (∀ b ∈ str, 0x30 ≤ b.toNat ∧ b.toNat ≤ 0x39) ∧
      1 ≤ str.length ∧ str.length ≤ 10 ∧
      (str.head? = some 0x30#8 → str.length = 1)

/-- R139: from the horizon on the operation completes too, with some string and some number (free values, log 13),
and writes no other state than one draw. In the handler it is refused (R255). -/
def Obligations.FormatElapsedCompletesPastHorizon : Prop :=
  ∀ s : State,
    (s.irq.inIsr = false → 4039453125 ≤ s.tick.toNat →
      ∃ (str : List Byte) (n : BitVec 32),
        exec .formatElapsed s = .next
          { s with
            port := { doneWith s n with str := str }
            irq := afterSection s
            env := { envAfterSection s with draws := s.env.draws + 1 } }) ∧
    (s.irq.inIsr = true → exec .formatElapsed s = .refused .contextForbidden)

/-- R137, R263: `BLOCK_UNTIL` terminates under R137's premise. Let a run have this one command, with any tick events
and any iterations listed before and after it, and let the timer go on after them (logs 3, 5). If, as long as the
command is in progress, its next iteration always comes before `2^31` more tick events are served, then the run ends
with the command complete and its Deadline reached. -/
def Obligations.BlockUntilTerminates : Prop :=
  ∀ (x : Tick) (cw : CommandWord) (s : State) (before after : List Input),
    decodeCw cw = .ok (.blockUntil x) → s.port.request = none → s.irq.inIsr = false → s.irq.masked = false →
    s.env.inbox = before ++ .command cw :: after → (∀ i ∈ before ++ after, i = .tick ∨ i = .iterate) →
    (∀ (n : Nat) (u : State), Host.Core.run core n s = .next u → u.port.request = some (.host cw) →
      ∃ (m : Nat) (v : State), Host.Core.run core m u = .next v ∧ nextAction v = .perform (.blockUntil x) ∧
        tickCount v.log < tickCount u.log + 2147483648) →
    ∃ t : State, RunEnds [cw] s t ∧ t.port.done = true ∧ t.port.res = 0 ∧ 0 ≤ (t.tick - x).toInt

-- ================================================================ Bit-Level Transport

/-- R151: the start condition lowers the idle clock and marks the link busy; it is refused where its `require`
does not hold, and in the handler. -/
def Obligations.StartConditionLowersClock : Prop :=
  ∀ s : State,
    (LinkReady s →
      exec .startCond s = .next
        { s with sst := { s.sst with busy := true, sclk := false }, log := .sclk false :: s.log }) ∧
    (s.irq.inIsr = false → s.sst.busy = true → exec .startCond s = .refused .transportBusy) ∧
    (s.irq.inIsr = false → s.sst.busy = false → s.sst.sclk = false →
      exec .startCond s = .refused .lineNotIdle) ∧
    (s.irq.inIsr = true → exec .startCond s = .refused .contextForbidden)

/-- R152: one bit period, whatever answers the line: the clock ends high, `SDO` has the bit sent, the bit sampled is
the result (in the model's place for it, log 6), and the history gains the period's events in order. -/
def Obligations.ExchangeBitIsOnePeriod : Prop :=
  ∀ (o : Bool) (s : State), s.irq.inIsr = false →
    ∃ (i : Bool) (t : State),
      exec (.exchangeBit o) s = .next t ∧
      t.sst = { s.sst with sclk := true, sdo := o } ∧
      t.port = { s.port with innerRes := if i then 1 else 0 } ∧
      t.log = [.sclk true, .sdi i] ++ sdoChange s.sst.sdo o ++
        (if s.sst.sclk then [.sclk false] else []) ++ s.log ∧
      t = { s with sst := t.sst, port := t.port, log := t.log, ic := t.ic, env := t.env } ∧
      (s.ic = .oracle → t.ic = .oracle ∧
        ∀ b rest, s.env.sdi = b :: rest → i = b ∧ t.env = { s.env with sdi := rest })

/-- R153: eight bit periods. The bits of the byte go out most significant first, the samples `ins` make the byte
received most significant bit first, and the history gains the eight periods' events; against the oracle `ins` are
the answers listed. `BITCNT` ends at 0, the clock high, `SDO` at bit 0 of the byte sent. Whatever answers the line,
the operation completes. -/
def Obligations.ExchangeByteIsMsbFirst : Prop :=
  ∀ (o : Byte) (s : State), s.irq.inIsr = false →
    ∃ (t : State) (ins : List Bool), exec (.exchangeByte o) s = .next t ∧ ins.length = 8 ∧
      t.sst = { s.sst with sclk := true, sdo := o.getLsbD 0, sho := o, shi := byteOfBits ins, bitcnt := 0 } ∧
      t.log = (bitPeriods s.sst.sclk s.sst.sdo ((byteBits o).zip ins)).reverse ++ s.log ∧
      t.port = { s.port with innerRes := (byteOfBits ins).zeroExtend 32 } ∧
      t = { s with sst := t.sst, port := t.port, log := t.log, ic := t.ic, env := t.env } ∧
      Hears s t ins

/-- R154, R99, R162: a write transaction puts the 24 bits of the address as given and the data, high byte first, on
the wire after one start condition, with the waveform of R162, and discards what it samples. -/
def Obligations.WriteTransactionWaveform : Prop :=
  ∀ (addr : Byte) (data : Half) (s : State) (ins rest : List Bool),
    LinkReady s → addr.toNat ≤ 0x6F → s.ic = .oracle → s.env.sdi = ins ++ rest → ins.length = 24 →
    ∃ t, exec (.writeTransaction addr data) s = .next t ∧
      t.log = (waveform s.sst.sdo ((frameBits (addr ++ data)).zip ins)).reverse ++ s.log ∧
      t.port = doneWith s 0 ∧
      t.sst.sclk = true ∧ t.sst.busy = false ∧ t.sst.sdo = data.getLsbD 0 ∧
      t.env = { s.env with sdi := rest } ∧
      t = { s with sst := t.sst, port := t.port, log := t.log, env := t.env }

/-- R155, R99, R162: a read transaction puts the address with bit 7 set and the dummy byte twice on the wire, and
returns the last 16 bits sampled, high byte first. -/
def Obligations.ReadTransactionWaveform : Prop :=
  ∀ (addr : Byte) (s : State) (ins rest : List Bool),
    LinkReady s → addr.toNat ≤ 0x6F → s.ic = .oracle → s.env.sdi = ins ++ rest → ins.length = 24 →
    ∃ t, exec (.readTransaction addr) s = .next t ∧
      t.log = (waveform s.sst.sdo
        ((frameBits ((addr ||| 0x80#8) ++ s.board.dummyByte ++ s.board.dummyByte)).zip ins)).reverse ++ s.log ∧
      t.port = doneWith s ((halfOfBits (ins.drop 8)).zeroExtend 32) ∧
      t.sst.sclk = true ∧ t.sst.busy = false ∧ t.sst.sdo = s.board.dummyByte.getLsbD 0 ∧
      t.env = { s.env with sdi := rest } ∧
      t = { s with sst := t.sst, port := t.port, log := t.log, env := t.env }

/-- R154, R155, R161: both transactions complete whatever the metering IC does, absent or not, and leave the clock
idle high, the link free, and everything outside the link as it was: `BUF`, `CKSUM`, the tick, the buttons, the
queue, the store and every byte of storage. -/
def Obligations.TransactionsAlwaysComplete : Prop :=
  ∀ (addr : Byte) (data : Half) (s : State), LinkReady s → addr.toNat ≤ 0x6F →
    ∃ t u,
      exec (.writeTransaction addr data) s = .next t ∧ t.port = doneWith s 0 ∧
      exec (.readTransaction addr) s = .next u ∧
      (∃ v : Half, u.port = doneWith s (v.zeroExtend 32)) ∧
      ∀ w : State, w = t ∨ w = u →
        w.sst.sclk = true ∧ w.sst.busy = false ∧
        w.sst.buf = s.sst.buf ∧ w.sst.cksum = s.sst.cksum ∧
        (∀ a, memRead w.nvm a = memRead s.nvm a) ∧
        w = { s with sst := w.sst, port := w.port, log := w.log, ic := w.ic, env := w.env }

/-- R99 (log 8): the frame rows do on the wire what the transaction of the same address and data does, and give
nothing to the host; a read frame's value goes to the caller. They are refused where the transaction is: for the
address, in the handler, on a busy link, and, as the transactions, on a low clock (log 16). -/
def Obligations.FramesAreTransactions : Prop :=
  ∀ (addr : BitVec 7) (data : Half) (s : State),
    (LinkReady s → addr.toNat ≤ 0x6F →
      (∃ t u, exec (.frameWrite addr data) s = .next t ∧
        exec (.writeTransaction (addr.zeroExtend 8) data) s = .next u ∧
        t = { u with port := s.port }) ∧
      (∃ t u, exec (.frameRead addr (s.board.dummyByte ++ s.board.dummyByte)) s = .next t ∧
        exec (.readTransaction (addr.zeroExtend 8)) s = .next u ∧
        t = { u with port := { s.port with innerRes := u.port.res } }) ∧
      (∀ dummy, ∃ t, exec (.frameRead addr dummy) s = .next t ∧
        t = { s with sst := t.sst, port := t.port, log := t.log, ic := t.ic, env := t.env })) ∧
    (s.irq.inIsr = false → 0x6F < addr.toNat →
      exec (.frameWrite addr data) s = .refused .addrOutOfRange ∧
      exec (.frameRead addr data) s = .refused .addrOutOfRange) ∧
    (s.irq.inIsr = true →
      exec (.frameWrite addr data) s = .refused .contextForbidden ∧
      exec (.frameRead addr data) s = .refused .contextForbidden) ∧
    (s.irq.inIsr = false → addr.toNat ≤ 0x6F → s.sst.busy = true →
      exec (.frameWrite addr data) s = .refused .transportBusy ∧
      exec (.frameRead addr data) s = .refused .transportBusy) ∧
    (s.irq.inIsr = false → addr.toNat ≤ 0x6F → s.sst.busy = false → s.sst.sclk = false →
      exec (.frameWrite addr data) s = .refused .lineNotIdle ∧
      exec (.frameRead addr data) s = .refused .lineNotIdle ∧
      exec (.writeTransaction (addr.zeroExtend 8) data) s = .refused .lineNotIdle ∧
      exec (.readTransaction (addr.zeroExtend 8)) s = .refused .lineNotIdle)

/-- R156: one step of the checksum, the checksum law, and that it does not depend on the order. -/
def Obligations.ChecksumIsSumAndXor : Prop :=
  (∀ c v : Half,
    ((ckStep c v).extractLsb' 0 8).toNat =
      ((c.extractLsb' 0 8).toNat + (v.extractLsb' 8 8).toNat + (v.extractLsb' 0 8).toNat) % 256 ∧
    (ckStep c v).extractLsb' 8 8 = c.extractLsb' 8 8 ^^^ v.extractLsb' 8 8 ^^^ v.extractLsb' 0 8) ∧
  (∀ (vs : List Half) (v : Half), checksumOf (vs ++ [v]) = ckStep (checksumOf vs) v) ∧
  (∀ vs : List Half,
    ((checksumOf vs).extractLsb' 0 8).toNat =
      (vs.map (fun v => (v.extractLsb' 8 8).toNat + (v.extractLsb' 0 8).toNat)).sum % 256 ∧
    (checksumOf vs).extractLsb' 8 8 =
      vs.foldl (fun x v => x ^^^ v.extractLsb' 8 8 ^^^ v.extractLsb' 0 8) 0#8) ∧
  (∀ vs ws : List Half, vs.Perm ws → checksumOf vs = checksumOf ws) ∧
  checksumOf [] = 0x0000#16 ∧
  checksumOf [0x1234#16, 0xABCD#16] = 0x40BE#16

/-- R157 (with R101): `WRITE_BLOCK` sends the write frames of the addresses `first` to `last` in order, with the values
`BUF[0 .. last - first]`, and returns the checksum of these values, whatever the IC does; `BUF` is not changed; an empty
range sends nothing and returns 0. -/
def Obligations.WriteBlockReturnsChecksum : Prop :=
  ∀ (first last : Byte) (s : State), s.irq.inIsr = false → s.sst.busy = false → last.toNat ≤ 0x6F →
    (first.toNat ≤ last.toNat → s.sst.sclk = true) →
    ∃ (t : State) (answers : List (List Bool)), exec (.writeBlock first last) s = .next t ∧
      t.port = doneWith s ((checksumOf (bufPrefix s (last.toNat + 1 - first.toNat))).zeroExtend 32) ∧
      t.sst.cksum = checksumOf (bufPrefix s (last.toNat + 1 - first.toNat)) ∧
      FrameAnswers (last.toNat + 1 - first.toNat) answers ∧ Hears s t answers.flatten ∧
      t.log = (blockWaves s.sst.sdo
        ((writeFrames first (last.toNat + 1 - first.toNat) s.sst.buf).zip answers)).reverse ++ s.log ∧
      t.sst.buf = s.sst.buf ∧ t.sst.busy = false ∧ t.sst.sclk = s.sst.sclk ∧
      (∀ a, memRead t.nvm a = memRead s.nvm a) ∧
      t = { s with sst := t.sst, port := t.port, log := t.log, ic := t.ic, env := t.env } ∧
      (last.toNat < first.toNat →
        t = { s with sst := { s.sst with cksum := 0 }, port := doneWith s 0 })

/-- R158 (with R101): `READ_BLOCK` sends the read frames of the addresses `first` to `last` in order, puts the last 16
bits sampled in each into `BUF[0 .. last - first]`, keeps the other elements, and returns the checksum of the values as
received. Against the oracle the samples are the answers listed; under `DevIdeal` the values are the registers. -/
def Obligations.ReadBlockFillsBuffer : Prop :=
  ∀ (first last : Byte) (s : State), s.irq.inIsr = false → s.sst.busy = false → last.toNat ≤ 0x6F →
    (first.toNat ≤ last.toNat → s.sst.sclk = true) →
    ∃ (t : State) (answers : List (List Bool)), exec (.readBlock first last) s = .next t ∧
      FrameAnswers (last.toNat + 1 - first.toNat) answers ∧ Hears s t answers.flatten ∧
      t.log = (blockWaves s.sst.sdo
        ((readFrames first (last.toNat + 1 - first.toNat) s.board.dummyByte).zip answers)).reverse ++ s.log ∧
      bufPrefix t (last.toNat + 1 - first.toNat) = answers.map (fun a => halfOfBits (a.drop 8)) ∧
      (∀ dev sh, s.ic = .ideal dev sh 0 → ∀ k, first.toNat + k ≤ last.toNat →
        bufAt t.sst.buf k = dev.getD (first.toNat + k) 0) ∧
      t.port = doneWith s ((checksumOf (answers.map (fun a => halfOfBits (a.drop 8)))).zeroExtend 32) ∧
      t.sst.cksum = checksumOf (answers.map (fun a => halfOfBits (a.drop 8))) ∧
      (∀ k, last.toNat + 1 - first.toNat ≤ k → bufAt t.sst.buf k = bufAt s.sst.buf k) ∧
      t.sst.busy = false ∧ t.sst.sclk = s.sst.sclk ∧
      (∀ a, memRead t.nvm a = memRead s.nvm a) ∧
      t = { s with sst := t.sst, port := t.port, log := t.log, ic := t.ic, env := t.env } ∧
      (last.toNat < first.toNat →
        t = { s with sst := { s.sst with cksum := 0 }, port := doneWith s 0 })

/-- R159: under `DevIdeal`, `WRITE_BLOCK` and then, with the IC as it was left (whatever happened to the rest of the
machine), `READ_BLOCK` of the same range returns the values written and the same checksum. -/
def Obligations.BlockRoundTripUnderDevIdeal : Prop :=
  ∀ (first last : Byte) (s : State) (dev : Vector Half 112) (sh : FrameWord),
    LinkReady s → last.toNat ≤ 0x6F → s.ic = .ideal dev sh 0 →
    ∃ t, exec (.writeBlock first last) s = .next t ∧
      ∀ u : State, LinkReady u → u.ic = t.ic →
        ∃ v, exec (.readBlock first last) u = .next v ∧
          v.port.res = t.port.res ∧
          bufPrefix v (last.toNat + 1 - first.toNat) = bufPrefix s (last.toNat + 1 - first.toNat)

/-- R160, R157, R158: what the transport refuses: an address outside `DEV`, a transaction in progress, the handler. A
block operation's last address is required inside `DEV` also where the first one is larger, as R157 and R158 say and
R160 (b) does not (log 17). -/
def Obligations.TransportRefusesMisuse : Prop :=
  ∀ (addr first last : Byte) (data : Half) (o : Bool) (s : State),
    (s.irq.inIsr = false → 0x6F < addr.toNat →
      exec (.writeTransaction addr data) s = .refused .addrOutOfRange ∧
      exec (.readTransaction addr) s = .refused .addrOutOfRange) ∧
    (s.irq.inIsr = false → 0x6F < last.toNat →
      exec (.writeBlock first last) s = .refused .addrOutOfRange ∧
      exec (.readBlock first last) s = .refused .addrOutOfRange) ∧
    (s.irq.inIsr = false → s.sst.busy = true → addr.toNat ≤ 0x6F → last.toNat ≤ 0x6F →
      exec (.writeTransaction addr data) s = .refused .transportBusy ∧
      exec (.readTransaction addr) s = .refused .transportBusy ∧
      exec (.writeBlock first last) s = .refused .transportBusy ∧
      exec (.readBlock first last) s = .refused .transportBusy) ∧
    (s.irq.inIsr = true →
      exec (.writeTransaction addr data) s = .refused .contextForbidden ∧
      exec (.readTransaction addr) s = .refused .contextForbidden ∧
      exec (.writeBlock first last) s = .refused .contextForbidden ∧
      exec (.readBlock first last) s = .refused .contextForbidden ∧
      exec .startCond s = .refused .contextForbidden ∧
      exec (.exchangeBit o) s = .refused .contextForbidden ∧
      exec (.exchangeByte addr) s = .refused .contextForbidden)

-- ================================================================ Button Pipeline and Event Queue

/-- R181, R196: a registration appends one descriptor, awaiting a press, its last level a draw; a full store and the
handler refuse it. -/
def Obligations.RegisterButtonAppendsDescriptor : Prop :=
  ∀ (loc mask id : Byte) (s : State),
    (s.irq.inIsr = false → s.btn.length < s.board.maxButtons →
      ∃ level : Bool,
        exec (.registerButton loc mask id) s = .next
          { s with
            btn := s.btn ++ [{ loc := loc, mask := mask, id := id, st := .awaitPress, last := level }]
            port := doneWith s 0
            irq := afterSection s
            env := { envAfterSection s with draws := s.env.draws + 1 } }) ∧
    (s.irq.inIsr = false → s.board.maxButtons ≤ s.btn.length →
      exec (.registerButton loc mask id) s = .refused .storeFull) ∧
    (s.irq.inIsr = true → exec (.registerButton loc mask id) s = .refused .contextForbidden)

/-- R186: the transition table of one descriptor, all eight rows; the event words are R100's. -/
def Obligations.DebounceFollowsTable : Prop :=
  ∀ (activeLevel : Bool) (d : Descriptor) (raw : Bool),
    debounce activeLevel d raw =
      match d.st, decide (d.last = activeLevel), decide (raw = activeLevel) with
      | .awaitPress, false, false => ({ d with last := raw }, none)
      | .awaitPress, false, true => ({ d with st := .awaitRelease, last := raw }, some (0b0#1 ++ d.id))
      | .awaitPress, true, false => ({ d with last := raw }, none)
      | .awaitPress, true, true => ({ d with last := raw }, none)
      | .awaitRelease, true, true => ({ d with last := raw }, none)
      | .awaitRelease, true, false => ({ d with st := .awaitPress, last := raw }, some (0b1#1 ++ d.id))
      | .awaitRelease, false, false => ({ d with last := raw }, none)
      | .awaitRelease, false, true => ({ d with last := raw }, none)

/-- R185, R183, R251: with the answers `levels` of the input registers, one per descriptor in registration order,
`SERVICE` steps every descriptor with its own raw level and pushes the events fired in that order. -/
def Obligations.ServiceStepsEveryButton : Prop :=
  ∀ (s : State) (levels rest : List Byte), s.irq.inIsr = true →
    s.env.inp = levels ++ rest → levels.length = s.btn.length →
    ∃ t, exec .service s = .next t ∧
      t.btn = List.zipWith
        (fun d v => (debounce s.board.activeLevel d (decide (v &&& d.mask ≠ 0#8))).1) s.btn levels ∧
      (∀ fired : List EventWord, fired = (List.zipWith
          (fun d v => (debounce s.board.activeLevel d (decide (v &&& d.mask ≠ 0#8))).2) s.btn levels).filterMap id →
        t.evq = (pushAll fired s).evq ∧ t.log = (pushAll fired s).log) ∧
      t.env = { s.env with inp := rest } ∧
      t = { s with btn := t.btn, evq := t.evq, log := t.log, env := t.env }

/-- R185, R21, R255: whatever the buttons do `SERVICE` completes in the handler, keeps every descriptor's `loc`,
`mask` and `id` and their order, and writes nothing but `st`, `last`, `SLOT` and `HEAD`; no byte of storage. The
foreground may not perform it. With R36 and R186: after it a button awaits its release exactly when its last sample is
active, but where it awaits a press, was active and still is, R186's fourth row, which R36 overlooks (log 35). -/
def Obligations.ServiceCompletesAndKeepsRest : Prop :=
  ∀ s : State,
    (s.irq.inIsr = true →
      ∃ t, exec .service s = .next t ∧
        t.btn.map (fun d => (d.loc, d.mask, d.id)) = s.btn.map (fun d => (d.loc, d.mask, d.id)) ∧
        (∀ (k : Nat) (d e : Descriptor), s.btn[k]? = some d → t.btn[k]? = some e →
          (d.st = .awaitRelease → d.last = s.board.activeLevel) →
          (StateMatchesLevel s.board.activeLevel e ↔
            ¬ (d.st = .awaitPress ∧ d.last = s.board.activeLevel ∧ e.last = s.board.activeLevel))) ∧
        t.evq.tail = s.evq.tail ∧
        (∀ a, memRead t.nvm a = memRead s.nvm a) ∧
        t = { s with btn := t.btn, evq := t.evq, log := t.log, env := t.env }) ∧
    (s.irq.inIsr = false → exec .service s = .refused .contextForbidden)

/-- R188: the events fired for one descriptor alternate, beginning with `pressed`, whatever the samples. R36, as far as
R185, R186 and R189 bear it (log 35): the button then awaits its release exactly when its last sample is active, if the
initial level or any sample was inactive; if all were active it still awaits a press, and has fired nothing. -/
def Obligations.ButtonEventsAlternate : Prop :=
  ∀ (activeLevel : Bool) (d : Descriptor) (samples : List Bool), d.st = .awaitPress →
    alternates false (firedKinds activeLevel d samples) = true ∧
    ((∃ r ∈ d.last :: samples, r ≠ activeLevel) → StateMatchesLevel activeLevel (serviced activeLevel d samples)) ∧
    ((∀ r ∈ d.last :: samples, r = activeLevel) →
      serviced activeLevel d samples = d ∧ firedKinds activeLevel d samples = [])

/-- R189: the draw of the initial level matters only if the button is active at its first service step. -/
def Obligations.InitialLevelMattersOnlyWhenActive : Prop :=
  ∀ (activeLevel : Bool) (d e : Descriptor) (r : Bool) (samples : List Bool),
    d.st = .awaitPress → e = { d with last := e.last } →
    (r ≠ activeLevel →
      firedKinds activeLevel d (r :: samples) = firedKinds activeLevel e (r :: samples)) ∧
    (r = activeLevel → d.last ≠ activeLevel → (firedKinds activeLevel d (r :: samples)).head? = some false) ∧
    (r = activeLevel → d.last = activeLevel →
      firedKinds activeLevel d [r] = [] ∧
      firedKinds activeLevel d [r, !activeLevel] = [] ∧
      firedKinds activeLevel d [r, !activeLevel, activeLevel] = [false])

/-- R191: a push onto a full queue records the drop and changes nothing else; else it writes the slot at `HEAD` and
advances `HEAD` modulo 8. The foreground may not push. -/
def Obligations.PushKeepsOrDropsEvent : Prop :=
  ∀ (ev : EventWord) (s : State),
    (s.irq.inIsr = true → s.evq.head + 1 = s.evq.tail →
      exec (.push ev) s = .next { s with log := .drop ev :: s.log }) ∧
    (s.irq.inIsr = true → s.evq.head + 1 ≠ s.evq.tail →
      ∃ slots : Vector EventWord 8,
        exec (.push ev) s = .next { s with evq := { s.evq with slot := slots, head := s.evq.head + 1 } } ∧
        slotAt slots s.evq.head = ev ∧
        ∀ c, c ≠ s.evq.head → slotAt slots c = slotAt s.evq.slot c) ∧
    (s.irq.inIsr = false → exec (.push ev) s = .refused .contextForbidden)

/-- R193 with R97: an empty queue gives `RES = 0` and changes nothing; else `RES[9] = 1` with the event at `TAIL` in
`RES[8:0]`, and `TAIL` advances modulo 8. Never in the handler. -/
def Obligations.PollEventPopsOldest : Prop :=
  ∀ s : State,
    (s.irq.inIsr = false → s.evq.head = s.evq.tail →
      exec .pollEvent s = .next
        { s with port := doneWith s 0, irq := afterSection s, env := envAfterSection s }) ∧
    (s.irq.inIsr = false → s.evq.head ≠ s.evq.tail →
      exec .pollEvent s = .next
        { s with
          evq := { s.evq with tail := s.evq.tail + 1 }
          port := doneWith s ((0b1#1 ++ slotAt s.evq.slot s.evq.tail).zeroExtend 32)
          irq := afterSection s
          env := envAfterSection s }) ∧
    (s.irq.inIsr = true → exec .pollEvent s = .refused .contextForbidden)

/-- R190, R194: the ring is a first-in first-out list of at most 7 events: a push onto a queue that is not full
appends, a pop takes the oldest, empty and full are the list's. -/
def Obligations.QueueIsBoundedFifo : Prop :=
  ∀ (ev : EventWord) (s : State),
    (s.evq.live = [] ↔ s.evq.head = s.evq.tail) ∧
    s.evq.live.length ≤ 7 ∧
    (s.evq.live.length = 7 ↔ s.evq.head + 1 = s.evq.tail) ∧
    (s.evq.live.length < 7 → (pushEvent ev s).evq.live = s.evq.live ++ [ev]) ∧
    (s.evq.live.length = 7 → (pushEvent ev s).evq = s.evq) ∧
    (popEvent s).evq.live = s.evq.live.drop 1 ∧
    (∀ e, s.evq.live.head? = some e → e = slotAt s.evq.slot s.evq.tail)

/-- R194 (b): from an empty queue, pushes with no pop in between keep the first seven events and drop the rest, each
drop recorded in order. -/
def Obligations.OverflowKeepsOldestSeven : Prop :=
  ∀ (evs : List EventWord) (s : State), s.evq.head = s.evq.tail →
    (pushAll evs s).evq.live = evs.take 7 ∧
    (pushAll evs s).log = ((evs.drop 7).map Obs.drop).reverse ++ s.log

-- ================================================================ Calibration Store

/-- R211: `CRC16` of the record's first 44 bytes goes to the caller (in the model's place for it, log 6) and no other
state is written; a count the rule does not name completes too (log 7); the default function has the rule's
values. -/
def Obligations.Crc16ComputesCheckWord : Prop :=
  (∀ s : State, s.irq.inIsr = false →
    exec (.crc16 44) s = .next
      { s with port := { s.port with innerRes := (crcOf s.board.crc (recordBody s.cal.work)).zeroExtend 32 } }) ∧
  (∀ (n : Half) (s : State), s.irq.inIsr = false →
    ∃ t, exec (.crc16 n) s = .next t ∧ t = { s with port := t.port, env := t.env }) ∧
  (∀ (n : Half) (s : State), s.irq.inIsr = true → exec (.crc16 n) s = .refused .contextForbidden) ∧
  crcModbus [] = 0xFFFF#16 ∧
  crcModbus [0x31, 0x32, 0x33, 0x34, 0x35, 0x36, 0x37, 0x38, 0x39] = 0x4B37#16 ∧
  crcModbus (List.replicate 44 0) = 0xF115#16

/-- R212, R213, R215 (b): a valid image is taken as it is: the working copy's bytes are the image, and nothing is
written to storage, to the line or to the history. -/
def Obligations.CalLoadTakesValidRecord : Prop :=
  ∀ s : State, s.irq.inIsr = false → s.sst.busy = false →
    (recordOf (nvmImage s)).sig = 0x55AA#16 →
    crcOf s.board.crc ((nvmImage s).take 44) = (recordOf (nvmImage s)).crc →
    ∃ r : CalRecord, recordBytes r = nvmImage s ∧
      exec .calLoad s = .next { s with cal := { work := r, loaded := true }, port := doneWith s 0 }

/-- R212 to R215, R219: an image whose signature or CRC mismatches is replaced. The meter range and then the measurement
range are read, 21 read frames in address order; every field that `FORCED` does not name holds the value received for
it, one that it names the last value listed. After `CAL_LOAD` the working copy is valid and carries the signature, `NVM`
holds its bytes, exactly one record write was made, after the frames, and `BUF` and the bytes of storage outside the
record are as before. -/
def Obligations.CalLoadRecoversInvalidRecord : Prop :=
  ∀ s : State, LinkReady s → Memory.wf s.nvm →
    ((recordOf (nvmImage s)).sig ≠ 0x55AA#16 ∨
      crcOf s.board.crc ((nvmImage s).take 44) ≠ (recordOf (nvmImage s)).crc) →
    ∃ (t : State) (answers : List (List Bool)), exec .calLoad s = .next t ∧
      FrameAnswers 21 answers ∧ Hears s t answers.flatten ∧
      t.log = .nvmWrite s.board.nvmBase (recordBytes t.cal.work) ::
        ((blockWaves s.sst.sdo
          ((readFrames (BitVec.ofNat 8 s.board.meterFirst.val) 11 s.board.dummyByte ++
            readFrames (BitVec.ofNat 8 s.board.measFirst.val) 10 s.board.dummyByte).zip answers)).reverse ++ s.log) ∧
      (∀ f : Fin 21, (∀ p ∈ s.board.forced, p.1 ≠ f) →
        getField t.cal.work f.val = halfOfBits ((answers.getD f.val []).drop 8)) ∧
      (∀ (f : Fin 21) (v : Half) (before after : List (Fin 21 × Half)),
        s.board.forced = before ++ (f, v) :: after → (∀ p ∈ after, p.1 ≠ f) →
        getField t.cal.work f.val = v) ∧
      t.cal.loaded = true ∧ t.cal.work.sig = 0x55AA#16 ∧
      t.cal.work.crc = crcOf s.board.crc (recordBody t.cal.work) ∧
      nvmImage t = recordBytes t.cal.work ∧
      writeCount t.log = writeCount s.log + 1 ∧
      t.port = doneWith s 0 ∧ t.sst.sclk = true ∧ t.sst.busy = false ∧ t.sst.buf = s.sst.buf ∧
      (∀ a, (a < s.board.nvmBase ∨ s.board.nvmBase + 46 ≤ a) → memRead t.nvm a = memRead s.nvm a) ∧
      t = { s with
        sst := t.sst, cal := t.cal, nvm := t.nvm, port := t.port, log := t.log, ic := t.ic, env := t.env }

/-- R214, R215 (a): under `DevIdeal`, with a bad signature or a bad CRC, the defaults are the IC's own registers,
except at the offsets `FORCED` names, which get the last value listed for them. -/
def Obligations.CalLoadDefaultsComeFromDevice : Prop :=
  ∀ (s : State) (dev : Vector Half 112) (sh : FrameWord), LinkReady s → s.ic = .ideal dev sh 0 →
    ((recordOf (nvmImage s)).sig ≠ 0x55AA#16 ∨
      crcOf s.board.crc ((nvmImage s).take 44) ≠ (recordOf (nvmImage s)).crc) →
    ∃ t, exec .calLoad s = .next t ∧
      (∀ f : Fin 21, (∀ p ∈ s.board.forced, p.1 ≠ f) →
        getField t.cal.work f.val =
          if f.val ≤ 10 then dev.getD (s.board.meterFirst.val + f.val) 0
          else dev.getD (s.board.measFirst.val + (f.val - 11)) 0) ∧
      (∀ (f : Fin 21) (v : Half) (before after : List (Fin 21 × Half)),
        s.board.forced = before ++ (f, v) :: after → (∀ p ∈ after, p.1 ≠ f) →
        getField t.cal.work f.val = v)

/-- R216: `CAL_READ_FIELD` gives the value at the offset, zero-extended, and writes nothing. -/
def Obligations.CalReadFieldGivesValue : Prop :=
  ∀ (offset : Byte) (s : State), s.irq.inIsr = false → s.cal.loaded = true →
    (∀ h : offset.toNat ≤ 10,
      exec (.calReadField offset) s = .next
        { s with port := doneWith s ((s.cal.work.meter[offset.toNat]).zeroExtend 32) }) ∧
    (∀ h : 11 ≤ offset.toNat ∧ offset.toNat ≤ 20,
      exec (.calReadField offset) s = .next
        { s with port := doneWith s ((s.cal.work.meas[offset.toNat - 11]).zeroExtend 32) })

/-- R217, R219: `CAL_UPDATE_FIELD` sets the one value, recomputes the CRC, and writes the whole record to `NVM` in
one record write; the other fields, the signature and every byte of storage outside the record are as before. -/
def Obligations.CalUpdateFieldSealsAndStores : Prop :=
  ∀ (offset : Byte) (value : Half) (s : State), s.irq.inIsr = false → s.cal.loaded = true →
    offset.toNat ≤ 20 → Memory.wf s.nvm →
    ∃ t, exec (.calUpdateField offset value) s = .next t ∧
      getField t.cal.work offset.toNat = value ∧
      (∀ f, f ≤ 20 → f ≠ offset.toNat → getField t.cal.work f = getField s.cal.work f) ∧
      t.cal.work.sig = s.cal.work.sig ∧ t.cal.loaded = true ∧
      t.cal.work.crc = crcOf s.board.crc (recordBody t.cal.work) ∧
      nvmImage t = recordBytes t.cal.work ∧
      (∀ a, (a < s.board.nvmBase ∨ s.board.nvmBase + 46 ≤ a) → memRead t.nvm a = memRead s.nvm a) ∧
      t.log = .nvmWrite s.board.nvmBase (recordBytes t.cal.work) :: s.log ∧
      t.port = doneWith s 0 ∧
      t = { s with cal := t.cal, nvm := t.nvm, port := t.port, log := t.log }

/-- R218, R219: `CAL_PERSIST` recomputes the CRC and writes the whole record; a sealed and stored working copy stays
as it is, and so does every byte of `NVM`. -/
def Obligations.CalPersistSealsAndStores : Prop :=
  ∀ s : State, s.irq.inIsr = false → s.cal.loaded = true → Memory.wf s.nvm →
    ∃ t, exec .calPersist s = .next t ∧
      t.cal = { s.cal with work := { s.cal.work with crc := crcOf s.board.crc (recordBody s.cal.work) } } ∧
      nvmImage t = recordBytes t.cal.work ∧
      (∀ a, (a < s.board.nvmBase ∨ s.board.nvmBase + 46 ≤ a) → memRead t.nvm a = memRead s.nvm a) ∧
      t.log = .nvmWrite s.board.nvmBase (recordBytes t.cal.work) :: s.log ∧
      t.port = doneWith s 0 ∧
      t = { s with cal := t.cal, nvm := t.nvm, port := t.port, log := t.log } ∧
      (s.cal.work.crc = crcOf s.board.crc (recordBody s.cal.work) → nvmImage s = recordBytes s.cal.work →
        t.cal = s.cal ∧ ∀ a, memRead t.nvm a = memRead s.nvm a)

/-- R222: what the store refuses: use before the load, an offset above 20, the handler, a load with a transaction in
progress. -/
def Obligations.StoreRefusesMisuse : Prop :=
  ∀ (offset : Byte) (value n : Half) (s : State),
    (s.irq.inIsr = false → s.cal.loaded = false →
      exec (.calReadField offset) s = .refused .notLoaded ∧
      exec (.calUpdateField offset value) s = .refused .notLoaded ∧
      exec .calPersist s = .refused .notLoaded) ∧
    (s.irq.inIsr = false → s.cal.loaded = true → 20 < offset.toNat →
      exec (.calReadField offset) s = .refused .badOffset ∧
      exec (.calUpdateField offset value) s = .refused .badOffset) ∧
    (s.irq.inIsr = false → s.sst.busy = true → exec .calLoad s = .refused .transportBusy) ∧
    (s.irq.inIsr = true →
      exec .calLoad s = .refused .contextForbidden ∧
      exec (.calReadField offset) s = .refused .contextForbidden ∧
      exec (.calUpdateField offset value) s = .refused .contextForbidden ∧
      exec .calPersist s = .refused .contextForbidden ∧
      exec (.crc16 n) s = .refused .contextForbidden)

/-- R221: the number of record writes of every operation. -/
def Obligations.DurableWritesAreCounted : Prop :=
  ∀ (i : Instr) (s t : State), exec i s = .next t →
    writeCount t.log = writeCount s.log +
      (match i with
        | .calUpdateField _ _ => 1
        | .calPersist => 1
        | .calLoad => if validRecord s.board.crc (recordOf (nvmImage s)) then 0 else 1
        | _ => 0) ∧
    (writeCount t.log = writeCount s.log → ∀ a, memRead t.nvm a = memRead s.nvm a)

-- ================================================================ contexts and the interrupt

/-- R255: which context may perform which operation: one is refused for its context exactly where the table says
"no"; the handler's SNAPSHOT is a plain read, with no critical section. The frames are not in the table. -/
def Obligations.ContextsAreSeparated : Prop :=
  ∀ (i : Instr) (s : State), i.opClass ≠ .wire →
    (s.irq.inIsr = true →
      (exec i s = .refused .contextForbidden ↔
        i ≠ .snapshot ∧ i ≠ .advance ∧ i ≠ .service ∧ ∀ ev, i ≠ .push ev)) ∧
    (s.irq.inIsr = false →
      (exec i s = .refused .contextForbidden ↔ i = .advance ∨ i = .service ∨ ∃ ev, i = .push ev)) ∧
    (s.irq.inIsr = true → ∃ t, exec .snapshot s = .next t ∧ t = { s with port := t.port })

/-- R74, R60, R21: in the handler no operation writes the link, `BUF`, `TAIL`, the store or storage; in the foreground
none writes `TICK` or `HEAD` or a slot, and no operation changes the context. -/
def Obligations.ContextsWriteOnlyTheirState : Prop :=
  ∀ (i : Instr) (s t : State), exec i s = .next t →
    t.irq.inIsr = s.irq.inIsr ∧ t.board = s.board ∧
    (s.irq.inIsr = true →
      t.sst = s.sst ∧ t.cal = s.cal ∧ t.ic = s.ic ∧ t.evq.tail = s.evq.tail ∧
        ∀ a, memRead t.nvm a = memRead s.nvm a) ∧
    (s.irq.inIsr = false → t.tick = s.tick ∧ t.evq.head = s.evq.head ∧ t.evq.slot = s.evq.slot)

/-- R240: no operation raises a fault, in any state. -/
def Obligations.NoOperationFaults : Prop :=
  ∀ (i : Instr) (s : State) (r : Fault), exec i s ≠ .fault r

/-- R248, R252, R253: a pending tick event is served as soon as the interrupt is not masked and no handler runs: entry
changes nothing but `IRQ_PENDING` and `IN_ISR` (and the handler's progress, log 5), also where the foreground waits in
`BLOCK_UNTIL`; the return gives the foreground back what it had. -/
def Obligations.InterruptEntryAndReturn : Prop :=
  ∀ s : State,
    (s.irq.inIsr = false → s.irq.pending = true → s.irq.masked = false →
      step s = .next
        { s with irq := { s.irq with pending := false, inIsr := true, op := some 0x80000000000000#56 } }) ∧
    (s.irq.inIsr = true → s.irq.op = none →
      step s = .next { s with irq := { s.irq with inIsr := false } })

/-- R247, R184: from a pending tick event the machine runs `TIMER_ISR` whole: `TICK` goes up by one, and exactly
when the new `TICK[3:0]` is 0 the service step follows; the foreground's operation is where it was. -/
def Obligations.HandlerRunsTimerIsr : Prop :=
  ∀ s : State, s.irq.inIsr = false → s.irq.pending = true → s.irq.masked = false →
    ∃ t, Host.Core.run core (if (s.tick + 1).extractLsb' 0 4 = 0#4 then 4 else 3) s = .next t ∧
      t = timerIsr s ∧
      t.tick = s.tick + 1 ∧ t.irq.inIsr = false ∧ t.irq.pending = false ∧
      t.port = s.port ∧
      t.sst = s.sst ∧ t.cal = s.cal ∧ (∀ a, memRead t.nvm a = memRead s.nvm a) ∧
      ((s.tick + 1).extractLsb' 0 4 ≠ 0#4 → t.btn = s.btn ∧ t.evq = s.evq)

/-- R249, R122: a tick event that arrives inside the critical section of `SNAPSHOT` does not tear the value read and
is served right after it. -/
def Obligations.TickInsideSnapshotIsDelayed : Prop :=
  ∀ s : State, s.irq.inIsr = false → s.irq.pending = false → s.irq.masked = false →
    s.port.request = some (.host 0x00000000000000#56) → s.port.spinning = false → s.env.midTick = true →
    ∃ t u v, step s = .next t ∧ t.port.res = s.tick ∧ t.port.done = true ∧ t.tick = s.tick ∧
      step t = .next u ∧ u.irq.inIsr = true ∧
      step u = .next v ∧ v.tick = s.tick + 1 ∧ v.port.res = s.tick

-- ================================================================ encodings

/-- R91 to R95, R99: every well-formed instruction is read back from its words, with every operand. -/
def Obligations.DecodeReadsEncodedInstruction : Prop :=
  ∀ i : Instr, i.wellFormed = true → decode (encode i) = .ok i

/-- R98, R99: every 24 bits are one frame, and encoding it gives the bits back. -/
def Obligations.FrameWordsRoundTrip : Prop :=
  ∀ f : FrameWord, encode (decodeFrame f) = .frame f ∧
    (decodeFrame f = .frameRead (f.extractLsb' 16 7) (f.extractLsb' 0 16) ↔ f.getLsbD 23 = true) ∧
    (decodeFrame f = .frameWrite (f.extractLsb' 16 7) (f.extractLsb' 0 16) ↔ f.getLsbD 23 = false)

/-- R96 (e), R93, R94: a command word that decodes asks for an operation whose own words have the same operation byte;
and for each of the 22 operation bytes the operation asked for depends on the operand bits its format names and on no
other bit of the word. -/
def Obligations.UnusedBitsAreIgnored : Prop :=
  (∀ (cw : CommandWord) (i : Instr), decodeCw cw = .ok i →
    ∃ cw', encode i = .command cw' ∧ cwOp cw' = cwOp cw ∧ decodeCw cw' = .ok i) ∧
  (∀ (a : BitVec 32) (b : BitVec 16),
    decodeCw (mkCw 0x00 a b) = .ok .snapshot ∧
    decodeCw (mkCw 0x08 a b) = .ok (.computeDeadline b) ∧
    decodeCw (mkCw 0x09 a b) = .ok (.isExpired a) ∧
    decodeCw (mkCw 0x0A a b) = .ok (.blockUntil a) ∧
    decodeCw (mkCw 0x0B a b) = .ok .formatElapsed ∧
    decodeCw (mkCw 0x10 a b) = .ok (.writeTransaction (a.extractLsb' 0 8) b) ∧
    decodeCw (mkCw 0x11 a b) = .ok (.readTransaction (a.extractLsb' 0 8)) ∧
    decodeCw (mkCw 0x12 a b) = .ok (.writeBlock (a.extractLsb' 0 8) (a.extractLsb' 8 8)) ∧
    decodeCw (mkCw 0x13 a b) = .ok (.readBlock (a.extractLsb' 0 8) (a.extractLsb' 8 8)) ∧
    decodeCw (mkCw 0x18 a b) =
      .ok (.registerButton (a.extractLsb' 8 8) (a.extractLsb' 0 8) (b.extractLsb' 0 8)) ∧
    decodeCw (mkCw 0x19 a b) = .ok .pollEvent ∧
    decodeCw (mkCw 0x20 a b) = .ok .calLoad ∧
    decodeCw (mkCw 0x21 a b) = .ok (.calReadField (b.extractLsb' 0 8)) ∧
    decodeCw (mkCw 0x22 a b) = .ok (.calUpdateField (b.extractLsb' 0 8) (a.extractLsb' 0 16)) ∧
    decodeCw (mkCw 0x23 a b) = .ok .calPersist ∧
    decodeCw (mkCw 0x50 a b) = .ok .startCond ∧
    decodeCw (mkCw 0x51 a b) = .ok (.exchangeBit (b.getLsbD 0)) ∧
    decodeCw (mkCw 0x52 a b) = .ok (.exchangeByte (b.extractLsb' 0 8)) ∧
    decodeCw (mkCw 0x58 a b) = .ok (.push (b.extractLsb' 0 9)) ∧
    decodeCw (mkCw 0x60 a b) = .ok (.crc16 (a.extractLsb' 0 16)) ∧
    decodeCw (mkCw 0x80 a b) = .ok .advance ∧
    decodeCw (mkCw 0x98 a b) = .ok .service)

/-- R94, R99: words written out from the encoding tables decode to what they stand for. -/
def Obligations.WordsOfTheTableDecode : Prop :=
  decodeTableWord 56 0x08000000000064 = some (.computeDeadline 100) ∧
  decodeTableWord 56 0x09000004490000 = some (.isExpired 1097) ∧
  decodeTableWord 56 0x10000000211234 = some (.writeTransaction 0x21 0x1234) ∧
  decodeTableWord 56 0x180000028000FF = some (.registerButton 0x02 0x80 0xFF) ∧
  decodeTableWord 56 0x22000080000003 = some (.calUpdateField 3 0x8000) ∧
  decodeTableWord 56 0x58000000000101 = some (.push 0x101) ∧
  decodeTableWord 56 0x80000000000000 = some .advance ∧
  decodeTableWord 24 0x211234 = some (.frameWrite 0x21 0x1234) ∧
  decodeTableWord 24 0xA10000 = some (.frameRead 0x21 0x0000) ∧
  decodeTableWord 56 0x01000000000000 = none ∧
  decodeTableWord 56 0xC0000000000000 = none

/-- R96, R97, R262, R33: the host may issue foreground commands only: a reserved operation byte, or one of another
class, has no step. Before `DONE` it may neither present a second command nor write `BUF` (U9). With nothing in
progress a command is taken and lowers `DONE`, and a write of `BUF` sets the one element; one beyond the last element
is a fault (log 25). The inputs stand in the model's inbox (log 1). -/
def Obligations.HostMayNotIssueOthers : Prop :=
  ∀ s : State, s.irq.inIsr = false → s.irq.pending = false →
    (∀ cw, s.port.request = some (.host cw) → s.port.spinning = false →
      (∀ e, decodeCw cw = .error e → step s = .refused .reservedOp) ∧
      (∀ i, decodeCw cw = .ok i → i.opClass ≠ .foreground → step s = .refused .notIssuable)) ∧
    (s.port.request.isSome = true → s.port.spinning = true → ∀ i rest, s.env.inbox = i :: rest →
      ((∃ cw, i = .command cw) ∨ ∃ k v, i = .bufWrite k v) → step s = .refused .secondCommand) ∧
    (s.port.request = none → ∀ cw rest, s.env.inbox = .command cw :: rest →
      step s = .next
        { s with
          port := { s.port with request := some (.host cw), done := false }
          env := { s.env with inbox := rest } }) ∧
    (s.port.request = none → ∀ k v rest, s.env.inbox = .bufWrite k v :: rest →
      (k < 112 → ∃ t, step s = .next t ∧ bufAt t.sst.buf k = v ∧
        (∀ j, j ≠ k → bufAt t.sst.buf j = bufAt s.sst.buf j) ∧
        t = { s with sst := { s.sst with buf := t.sst.buf }, env := { s.env with inbox := rest } }) ∧
      (112 ≤ k → step s = .fault .noSuchAddress))

-- ================================================================ the machine

/-- R75, R97, R247: a step runs the operation decoded from the word that stands where the machine takes its next one
from (the host's command, an internal operation's or a frame's word, the handler's word), and adds to its meaning
only `afterOperation`: the foreground's operation is no longer in progress unless it waits, the handler goes to its
next operation. -/
def Obligations.StepRunsDecodedOperation : Prop :=
  ∀ (s t : State) (i : Instr), exec i s = .next t →
    (s.irq.inIsr = false → (s.irq.pending = false ∨ s.irq.masked = true) → s.port.spinning = false →
      ((∃ cw, s.port.request = some (.host cw) ∧ decodeCw cw = .ok i ∧ i.opClass = .foreground) ∨
        (∃ cw, s.port.request = some (.inner cw) ∧ decodeCw cw = .ok i ∧ i.opClass = .internal) ∨
        (∃ f, s.port.request = some (.frame f) ∧ decodeFrame f = i)) →
      step s = .next (if t.port.spinning then t else { t with port := { t.port with request := none } })) ∧
    (s.irq.inIsr = true → (∃ cw, s.irq.op = some cw ∧ decodeCw cw = .ok i) →
      step s = .next
        { t with irq := { t.irq with
            op := if i = .advance ∧ t.tick.extractLsb' 0 4 = 0#4 then some 0x98000000000000#56 else none } })

/-- R271: what the spec gives of the state after reset. -/
def Obligations.ResetLeavesSpecValues : Prop :=
  State.reset.tick = 0 ∧ State.reset.sst.sclk = true ∧ State.reset.sst.busy = false ∧
  State.reset.sst.bitcnt = 0 ∧ State.reset.nbtn = 0 ∧ State.reset.evq.head = 0 ∧ State.reset.evq.tail = 0 ∧
  State.reset.cal.loaded = false ∧ State.reset.irq.masked = false ∧ State.reset.irq.pending = false ∧
  State.reset.irq.inIsr = false

/-- R270, R42, R82: a reset at any later time, also while `BLOCK_UNTIL` waits, gives the elements of R271 the same
values and leaves every byte of `NVM` as it was (outside the handler, where inputs are taken, log 19). Loss of power
in a record write does the same, but the record's 46 bytes may then be any (V7); while an operation waits there is no
record write, and it is a plain reset (log 20). -/
def Obligations.ResetKeepsDurableRecord : Prop :=
  ∀ (s : State) (rest : List Input), s.irq.inIsr = false → s.irq.pending = false →
    (s.port.request = none ∨ s.port.spinning = true) →
    (s.env.inbox = .reset :: rest →
      ∃ t, step s = .next t ∧ HasResetValues t ∧ t.env.inbox = rest ∧ t.board = s.board ∧
        ∀ a, memRead t.nvm a = memRead s.nvm a) ∧
    (∀ image, s.env.inbox = .powerLoss image :: rest → s.port.request = none → Memory.wf s.nvm →
      ∃ t, step s = .next t ∧ HasResetValues t ∧ t.env.inbox = rest ∧ t.board = s.board ∧
        nvmImage t = image.toList ∧
        ∀ a, (a < s.board.nvmBase ∨ s.board.nvmBase + 46 ≤ a) → memRead t.nvm a = memRead s.nvm a) ∧
    (∀ image, s.env.inbox = .powerLoss image :: rest → s.port.request.isSome = true →
      ∃ t, step s = .next t ∧ HasResetValues t ∧ t.env.inbox = rest ∧ t.board = s.board ∧
        ∀ a, memRead t.nvm a = memRead s.nvm a)

/-- Every step keeps the canonical form of the durable memory, in any state. -/
def Obligations.StepKeepsMemoryForm : Prop :=
  ∀ s t : State, Memory.wf s.nvm → step s = .next t → Memory.wf t.nvm

/-- R275, R220, R27, and the direction of R36 that holds in every state (log 35): every step keeps `Inv`. -/
def Obligations.StepKeepsInvariant : Prop :=
  ∀ s t : State, Inv s → step s = .next t → Inv t

/-- The machine right after reset meets `Inv`. -/
def Obligations.ResetMeetsInvariant : Prop := Inv State.reset
end

