-- ==== Sys2Proof/Laws/State.lean ====
section
/-! SUPPORT. The fields of the state after each named update: one lemma per field and update,
  so that no proof unfolds
a record update. First the fields an update leaves alone, then the ones it writes. -/

namespace Sys2Proof.Machine

-- record
@[simp] theorem record_tick (o : Obs) (s : State) : (record o s).tick = s.tick := rfl
@[simp] theorem record_sst (o : Obs) (s : State) : (record o s).sst = s.sst := rfl
@[simp] theorem record_btn (o : Obs) (s : State) : (record o s).btn = s.btn := rfl
@[simp] theorem record_evq (o : Obs) (s : State) : (record o s).evq = s.evq := rfl
@[simp] theorem record_cal (o : Obs) (s : State) : (record o s).cal = s.cal := rfl
@[simp] theorem record_nvm (o : Obs) (s : State) : (record o s).nvm = s.nvm := rfl
@[simp] theorem record_irq (o : Obs) (s : State) : (record o s).irq = s.irq := rfl
@[simp] theorem record_port (o : Obs) (s : State) : (record o s).port = s.port := rfl
@[simp] theorem record_ic (o : Obs) (s : State) : (record o s).ic = s.ic := rfl
@[simp] theorem record_env (o : Obs) (s : State) : (record o s).env = s.env := rfl
@[simp] theorem record_board (o : Obs) (s : State) : (record o s).board = s.board := rfl
-- finish
@[simp] theorem finish_tick (v : BitVec 32) (s : State) : (finish v s).tick = s.tick := rfl
@[simp] theorem finish_sst (v : BitVec 32) (s : State) : (finish v s).sst = s.sst := rfl
@[simp] theorem finish_btn (v : BitVec 32) (s : State) : (finish v s).btn = s.btn := rfl
@[simp] theorem finish_evq (v : BitVec 32) (s : State) : (finish v s).evq = s.evq := rfl
@[simp] theorem finish_cal (v : BitVec 32) (s : State) : (finish v s).cal = s.cal := rfl
@[simp] theorem finish_nvm (v : BitVec 32) (s : State) : (finish v s).nvm = s.nvm := rfl
@[simp] theorem finish_irq (v : BitVec 32) (s : State) : (finish v s).irq = s.irq := rfl
@[simp] theorem finish_ic (v : BitVec 32) (s : State) : (finish v s).ic = s.ic := rfl
@[simp] theorem finish_env (v : BitVec 32) (s : State) : (finish v s).env = s.env := rfl
@[simp] theorem finish_board (v : BitVec 32) (s : State) : (finish v s).board = s.board := rfl
@[simp] theorem finish_log (v : BitVec 32) (s : State) : (finish v s).log = s.log := rfl
-- giveInner
@[simp] theorem giveInner_tick (v : BitVec 32) (s : State) : (giveInner v s).tick = s.tick := rfl
@[simp] theorem giveInner_sst (v : BitVec 32) (s : State) : (giveInner v s).sst = s.sst := rfl
@[simp] theorem giveInner_btn (v : BitVec 32) (s : State) : (giveInner v s).btn = s.btn := rfl
@[simp] theorem giveInner_evq (v : BitVec 32) (s : State) : (giveInner v s).evq = s.evq := rfl
@[simp] theorem giveInner_cal (v : BitVec 32) (s : State) : (giveInner v s).cal = s.cal := rfl
@[simp] theorem giveInner_nvm (v : BitVec 32) (s : State) : (giveInner v s).nvm = s.nvm := rfl
@[simp] theorem giveInner_irq (v : BitVec 32) (s : State) : (giveInner v s).irq = s.irq := rfl
@[simp] theorem giveInner_ic (v : BitVec 32) (s : State) : (giveInner v s).ic = s.ic := rfl
@[simp] theorem giveInner_env (v : BitVec 32) (s : State) : (giveInner v s).env = s.env := rfl
@[simp] theorem giveInner_board (v : BitVec 32) (s : State) : (giveInner v s).board = s.board := rfl
@[simp] theorem giveInner_log (v : BitVec 32) (s : State) : (giveInner v s).log = s.log := rfl
-- keepWaiting
@[simp] theorem keepWaiting_tick (s : State) : (keepWaiting s).tick = s.tick := rfl
@[simp] theorem keepWaiting_sst (s : State) : (keepWaiting s).sst = s.sst := rfl
@[simp] theorem keepWaiting_btn (s : State) : (keepWaiting s).btn = s.btn := rfl
@[simp] theorem keepWaiting_evq (s : State) : (keepWaiting s).evq = s.evq := rfl
@[simp] theorem keepWaiting_cal (s : State) : (keepWaiting s).cal = s.cal := rfl
@[simp] theorem keepWaiting_nvm (s : State) : (keepWaiting s).nvm = s.nvm := rfl
@[simp] theorem keepWaiting_irq (s : State) : (keepWaiting s).irq = s.irq := rfl
@[simp] theorem keepWaiting_ic (s : State) : (keepWaiting s).ic = s.ic := rfl
@[simp] theorem keepWaiting_env (s : State) : (keepWaiting s).env = s.env := rfl
@[simp] theorem keepWaiting_board (s : State) : (keepWaiting s).board = s.board := rfl
@[simp] theorem keepWaiting_log (s : State) : (keepWaiting s).log = s.log := rfl
-- drawn
@[simp] theorem drawn_tick (s : State) : (drawn s).tick = s.tick := rfl
@[simp] theorem drawn_sst (s : State) : (drawn s).sst = s.sst := rfl
@[simp] theorem drawn_btn (s : State) : (drawn s).btn = s.btn := rfl
@[simp] theorem drawn_evq (s : State) : (drawn s).evq = s.evq := rfl
@[simp] theorem drawn_cal (s : State) : (drawn s).cal = s.cal := rfl
@[simp] theorem drawn_nvm (s : State) : (drawn s).nvm = s.nvm := rfl
@[simp] theorem drawn_irq (s : State) : (drawn s).irq = s.irq := rfl
@[simp] theorem drawn_port (s : State) : (drawn s).port = s.port := rfl
@[simp] theorem drawn_ic (s : State) : (drawn s).ic = s.ic := rfl
@[simp] theorem drawn_board (s : State) : (drawn s).board = s.board := rfl
@[simp] theorem drawn_log (s : State) : (drawn s).log = s.log := rfl
-- enterSection
@[simp] theorem enterSection_tick (s : State) : (enterSection s).tick = s.tick := rfl
@[simp] theorem enterSection_sst (s : State) : (enterSection s).sst = s.sst := rfl
@[simp] theorem enterSection_btn (s : State) : (enterSection s).btn = s.btn := rfl
@[simp] theorem enterSection_evq (s : State) : (enterSection s).evq = s.evq := rfl
@[simp] theorem enterSection_cal (s : State) : (enterSection s).cal = s.cal := rfl
@[simp] theorem enterSection_nvm (s : State) : (enterSection s).nvm = s.nvm := rfl
@[simp] theorem enterSection_port (s : State) : (enterSection s).port = s.port := rfl
@[simp] theorem enterSection_ic (s : State) : (enterSection s).ic = s.ic := rfl
@[simp] theorem enterSection_env (s : State) : (enterSection s).env = s.env := rfl
@[simp] theorem enterSection_board (s : State) : (enterSection s).board = s.board := rfl
@[simp] theorem enterSection_log (s : State) : (enterSection s).log = s.log := rfl
-- latchMidTick
@[simp] theorem latchMidTick_tick (s : State) : (latchMidTick s).tick = s.tick := rfl
@[simp] theorem latchMidTick_sst (s : State) : (latchMidTick s).sst = s.sst := rfl
@[simp] theorem latchMidTick_btn (s : State) : (latchMidTick s).btn = s.btn := rfl
@[simp] theorem latchMidTick_evq (s : State) : (latchMidTick s).evq = s.evq := rfl
@[simp] theorem latchMidTick_cal (s : State) : (latchMidTick s).cal = s.cal := rfl
@[simp] theorem latchMidTick_nvm (s : State) : (latchMidTick s).nvm = s.nvm := rfl
@[simp] theorem latchMidTick_port (s : State) : (latchMidTick s).port = s.port := rfl
@[simp] theorem latchMidTick_ic (s : State) : (latchMidTick s).ic = s.ic := rfl
@[simp] theorem latchMidTick_board (s : State) : (latchMidTick s).board = s.board := rfl
@[simp] theorem latchMidTick_log (s : State) : (latchMidTick s).log = s.log := rfl
-- leaveSection
@[simp] theorem leaveSection_tick (s : State) : (leaveSection s).tick = s.tick := rfl
@[simp] theorem leaveSection_sst (s : State) : (leaveSection s).sst = s.sst := rfl
@[simp] theorem leaveSection_btn (s : State) : (leaveSection s).btn = s.btn := rfl
@[simp] theorem leaveSection_evq (s : State) : (leaveSection s).evq = s.evq := rfl
@[simp] theorem leaveSection_cal (s : State) : (leaveSection s).cal = s.cal := rfl
@[simp] theorem leaveSection_nvm (s : State) : (leaveSection s).nvm = s.nvm := rfl
@[simp] theorem leaveSection_port (s : State) : (leaveSection s).port = s.port := rfl
@[simp] theorem leaveSection_ic (s : State) : (leaveSection s).ic = s.ic := rfl
@[simp] theorem leaveSection_env (s : State) : (leaveSection s).env = s.env := rfl
@[simp] theorem leaveSection_board (s : State) : (leaveSection s).board = s.board := rfl
@[simp] theorem leaveSection_log (s : State) : (leaveSection s).log = s.log := rfl
-- advanceTick
@[simp] theorem advanceTick_sst (s : State) : (advanceTick s).sst = s.sst := rfl
@[simp] theorem advanceTick_btn (s : State) : (advanceTick s).btn = s.btn := rfl
@[simp] theorem advanceTick_evq (s : State) : (advanceTick s).evq = s.evq := rfl
@[simp] theorem advanceTick_cal (s : State) : (advanceTick s).cal = s.cal := rfl
@[simp] theorem advanceTick_nvm (s : State) : (advanceTick s).nvm = s.nvm := rfl
@[simp] theorem advanceTick_irq (s : State) : (advanceTick s).irq = s.irq := rfl
@[simp] theorem advanceTick_port (s : State) : (advanceTick s).port = s.port := rfl
@[simp] theorem advanceTick_ic (s : State) : (advanceTick s).ic = s.ic := rfl
@[simp] theorem advanceTick_env (s : State) : (advanceTick s).env = s.env := rfl
@[simp] theorem advanceTick_board (s : State) : (advanceTick s).board = s.board := rfl
-- enterIsr
@[simp] theorem enterIsr_tick (s : State) : (enterIsr s).tick = s.tick := rfl
@[simp] theorem enterIsr_sst (s : State) : (enterIsr s).sst = s.sst := rfl
@[simp] theorem enterIsr_btn (s : State) : (enterIsr s).btn = s.btn := rfl
@[simp] theorem enterIsr_evq (s : State) : (enterIsr s).evq = s.evq := rfl
@[simp] theorem enterIsr_cal (s : State) : (enterIsr s).cal = s.cal := rfl
@[simp] theorem enterIsr_nvm (s : State) : (enterIsr s).nvm = s.nvm := rfl
@[simp] theorem enterIsr_port (s : State) : (enterIsr s).port = s.port := rfl
@[simp] theorem enterIsr_ic (s : State) : (enterIsr s).ic = s.ic := rfl
@[simp] theorem enterIsr_env (s : State) : (enterIsr s).env = s.env := rfl
@[simp] theorem enterIsr_board (s : State) : (enterIsr s).board = s.board := rfl
@[simp] theorem enterIsr_log (s : State) : (enterIsr s).log = s.log := rfl
-- leaveIsr
@[simp] theorem leaveIsr_tick (s : State) : (leaveIsr s).tick = s.tick := rfl
@[simp] theorem leaveIsr_sst (s : State) : (leaveIsr s).sst = s.sst := rfl
@[simp] theorem leaveIsr_btn (s : State) : (leaveIsr s).btn = s.btn := rfl
@[simp] theorem leaveIsr_evq (s : State) : (leaveIsr s).evq = s.evq := rfl
@[simp] theorem leaveIsr_cal (s : State) : (leaveIsr s).cal = s.cal := rfl
@[simp] theorem leaveIsr_nvm (s : State) : (leaveIsr s).nvm = s.nvm := rfl
@[simp] theorem leaveIsr_port (s : State) : (leaveIsr s).port = s.port := rfl
@[simp] theorem leaveIsr_ic (s : State) : (leaveIsr s).ic = s.ic := rfl
@[simp] theorem leaveIsr_env (s : State) : (leaveIsr s).env = s.env := rfl
@[simp] theorem leaveIsr_board (s : State) : (leaveIsr s).board = s.board := rfl
@[simp] theorem leaveIsr_log (s : State) : (leaveIsr s).log = s.log := rfl
-- handlerAfter
@[simp] theorem handlerAfter_tick (i : Instr) (s : State) : (handlerAfter i s).tick = s.tick := rfl
@[simp] theorem handlerAfter_sst (i : Instr) (s : State) : (handlerAfter i s).sst = s.sst := rfl
@[simp] theorem handlerAfter_btn (i : Instr) (s : State) : (handlerAfter i s).btn = s.btn := rfl
@[simp] theorem handlerAfter_evq (i : Instr) (s : State) : (handlerAfter i s).evq = s.evq := rfl
@[simp] theorem handlerAfter_cal (i : Instr) (s : State) : (handlerAfter i s).cal = s.cal := rfl
@[simp] theorem handlerAfter_nvm (i : Instr) (s : State) : (handlerAfter i s).nvm = s.nvm := rfl
@[simp] theorem handlerAfter_port (i : Instr) (s : State) : (handlerAfter i s).port = s.port := rfl
@[simp] theorem handlerAfter_ic (i : Instr) (s : State) : (handlerAfter i s).ic = s.ic := rfl
@[simp] theorem handlerAfter_env (i : Instr) (s : State) : (handlerAfter i s).env = s.env := rfl
@[simp] theorem handlerAfter_board (i : Instr) (s : State) : (handlerAfter i s).board = s.board := rfl
@[simp] theorem handlerAfter_log (i : Instr) (s : State) : (handlerAfter i s).log = s.log := rfl
-- popEvent
@[simp] theorem popEvent_tick (s : State) : (popEvent s).tick = s.tick := rfl
@[simp] theorem popEvent_sst (s : State) : (popEvent s).sst = s.sst := rfl
@[simp] theorem popEvent_btn (s : State) : (popEvent s).btn = s.btn := rfl
@[simp] theorem popEvent_cal (s : State) : (popEvent s).cal = s.cal := rfl
@[simp] theorem popEvent_nvm (s : State) : (popEvent s).nvm = s.nvm := rfl
@[simp] theorem popEvent_irq (s : State) : (popEvent s).irq = s.irq := rfl
@[simp] theorem popEvent_port (s : State) : (popEvent s).port = s.port := rfl
@[simp] theorem popEvent_ic (s : State) : (popEvent s).ic = s.ic := rfl
@[simp] theorem popEvent_env (s : State) : (popEvent s).env = s.env := rfl
@[simp] theorem popEvent_board (s : State) : (popEvent s).board = s.board := rfl
@[simp] theorem popEvent_log (s : State) : (popEvent s).log = s.log := rfl
-- appendButton
@[simp] theorem appendButton_tick (loc mask id : Byte) (s : State) : (appendButton loc mask id s).tick = s.tick := rfl
@[simp] theorem appendButton_sst (loc mask id : Byte) (s : State) : (appendButton loc mask id s).sst = s.sst := rfl
@[simp] theorem appendButton_evq (loc mask id : Byte) (s : State) : (appendButton loc mask id s).evq = s.evq := rfl
@[simp] theorem appendButton_cal (loc mask id : Byte) (s : State) : (appendButton loc mask id s).cal = s.cal := rfl
@[simp] theorem appendButton_nvm (loc mask id : Byte) (s : State) : (appendButton loc mask id s).nvm = s.nvm := rfl
@[simp] theorem appendButton_irq (loc mask id : Byte) (s : State) : (appendButton loc mask id s).irq = s.irq := rfl
@[simp] theorem appendButton_port (loc mask id : Byte) (s : State) : (appendButton loc mask id s).port = s.port := rfl
@[simp] theorem appendButton_ic (loc mask id : Byte) (s : State) : (appendButton loc mask id s).ic = s.ic := rfl
@[simp] theorem appendButton_board (loc mask id : Byte) (s : State) : (appendButton loc mask id s).board = s.board := rfl
@[simp] theorem appendButton_log (loc mask id : Byte) (s : State) : (appendButton loc mask id s).log = s.log := rfl
-- driveSclk
@[simp] theorem driveSclk_tick (b : Bool) (s : State) : (driveSclk b s).tick = s.tick := rfl
@[simp] theorem driveSclk_btn (b : Bool) (s : State) : (driveSclk b s).btn = s.btn := rfl
@[simp] theorem driveSclk_evq (b : Bool) (s : State) : (driveSclk b s).evq = s.evq := rfl
@[simp] theorem driveSclk_cal (b : Bool) (s : State) : (driveSclk b s).cal = s.cal := rfl
@[simp] theorem driveSclk_nvm (b : Bool) (s : State) : (driveSclk b s).nvm = s.nvm := rfl
@[simp] theorem driveSclk_irq (b : Bool) (s : State) : (driveSclk b s).irq = s.irq := rfl
@[simp] theorem driveSclk_port (b : Bool) (s : State) : (driveSclk b s).port = s.port := rfl
@[simp] theorem driveSclk_env (b : Bool) (s : State) : (driveSclk b s).env = s.env := rfl
@[simp] theorem driveSclk_board (b : Bool) (s : State) : (driveSclk b s).board = s.board := rfl
-- driveSdo
@[simp] theorem driveSdo_tick (b : Bool) (s : State) : (driveSdo b s).tick = s.tick := rfl
@[simp] theorem driveSdo_btn (b : Bool) (s : State) : (driveSdo b s).btn = s.btn := rfl
@[simp] theorem driveSdo_evq (b : Bool) (s : State) : (driveSdo b s).evq = s.evq := rfl
@[simp] theorem driveSdo_cal (b : Bool) (s : State) : (driveSdo b s).cal = s.cal := rfl
@[simp] theorem driveSdo_nvm (b : Bool) (s : State) : (driveSdo b s).nvm = s.nvm := rfl
@[simp] theorem driveSdo_irq (b : Bool) (s : State) : (driveSdo b s).irq = s.irq := rfl
@[simp] theorem driveSdo_port (b : Bool) (s : State) : (driveSdo b s).port = s.port := rfl
@[simp] theorem driveSdo_ic (b : Bool) (s : State) : (driveSdo b s).ic = s.ic := rfl
@[simp] theorem driveSdo_env (b : Bool) (s : State) : (driveSdo b s).env = s.env := rfl
@[simp] theorem driveSdo_board (b : Bool) (s : State) : (driveSdo b s).board = s.board := rfl
-- startCondition
@[simp] theorem startCondition_tick (s : State) : (startCondition s).tick = s.tick := rfl
@[simp] theorem startCondition_btn (s : State) : (startCondition s).btn = s.btn := rfl
@[simp] theorem startCondition_evq (s : State) : (startCondition s).evq = s.evq := rfl
@[simp] theorem startCondition_cal (s : State) : (startCondition s).cal = s.cal := rfl
@[simp] theorem startCondition_nvm (s : State) : (startCondition s).nvm = s.nvm := rfl
@[simp] theorem startCondition_irq (s : State) : (startCondition s).irq = s.irq := rfl
@[simp] theorem startCondition_port (s : State) : (startCondition s).port = s.port := rfl
@[simp] theorem startCondition_env (s : State) : (startCondition s).env = s.env := rfl
@[simp] theorem startCondition_board (s : State) : (startCondition s).board = s.board := rfl
-- clearChecksum
@[simp] theorem clearChecksum_tick (s : State) : (clearChecksum s).tick = s.tick := rfl
@[simp] theorem clearChecksum_btn (s : State) : (clearChecksum s).btn = s.btn := rfl
@[simp] theorem clearChecksum_evq (s : State) : (clearChecksum s).evq = s.evq := rfl
@[simp] theorem clearChecksum_cal (s : State) : (clearChecksum s).cal = s.cal := rfl
@[simp] theorem clearChecksum_nvm (s : State) : (clearChecksum s).nvm = s.nvm := rfl
@[simp] theorem clearChecksum_irq (s : State) : (clearChecksum s).irq = s.irq := rfl
@[simp] theorem clearChecksum_port (s : State) : (clearChecksum s).port = s.port := rfl
@[simp] theorem clearChecksum_ic (s : State) : (clearChecksum s).ic = s.ic := rfl
@[simp] theorem clearChecksum_env (s : State) : (clearChecksum s).env = s.env := rfl
@[simp] theorem clearChecksum_board (s : State) : (clearChecksum s).board = s.board := rfl
@[simp] theorem clearChecksum_log (s : State) : (clearChecksum s).log = s.log := rfl
-- addChecksum
@[simp] theorem addChecksum_tick (v : Half) (s : State) : (addChecksum v s).tick = s.tick := rfl
@[simp] theorem addChecksum_btn (v : Half) (s : State) : (addChecksum v s).btn = s.btn := rfl
@[simp] theorem addChecksum_evq (v : Half) (s : State) : (addChecksum v s).evq = s.evq := rfl
@[simp] theorem addChecksum_cal (v : Half) (s : State) : (addChecksum v s).cal = s.cal := rfl
@[simp] theorem addChecksum_nvm (v : Half) (s : State) : (addChecksum v s).nvm = s.nvm := rfl
@[simp] theorem addChecksum_irq (v : Half) (s : State) : (addChecksum v s).irq = s.irq := rfl
@[simp] theorem addChecksum_port (v : Half) (s : State) : (addChecksum v s).port = s.port := rfl
@[simp] theorem addChecksum_ic (v : Half) (s : State) : (addChecksum v s).ic = s.ic := rfl
@[simp] theorem addChecksum_env (v : Half) (s : State) : (addChecksum v s).env = s.env := rfl
@[simp] theorem addChecksum_board (v : Half) (s : State) : (addChecksum v s).board = s.board := rfl
@[simp] theorem addChecksum_log (v : Half) (s : State) : (addChecksum v s).log = s.log := rfl
-- nvmStore
@[simp] theorem nvmStore_tick (s : State) : (nvmStore s).tick = s.tick := rfl
@[simp] theorem nvmStore_sst (s : State) : (nvmStore s).sst = s.sst := rfl
@[simp] theorem nvmStore_btn (s : State) : (nvmStore s).btn = s.btn := rfl
@[simp] theorem nvmStore_evq (s : State) : (nvmStore s).evq = s.evq := rfl
@[simp] theorem nvmStore_cal (s : State) : (nvmStore s).cal = s.cal := rfl
@[simp] theorem nvmStore_irq (s : State) : (nvmStore s).irq = s.irq := rfl
@[simp] theorem nvmStore_port (s : State) : (nvmStore s).port = s.port := rfl
@[simp] theorem nvmStore_ic (s : State) : (nvmStore s).ic = s.ic := rfl
@[simp] theorem nvmStore_env (s : State) : (nvmStore s).env = s.env := rfl
@[simp] theorem nvmStore_board (s : State) : (nvmStore s).board = s.board := rfl
-- setWork
@[simp] theorem setWork_tick (r : CalRecord) (s : State) : (setWork r s).tick = s.tick := rfl
@[simp] theorem setWork_sst (r : CalRecord) (s : State) : (setWork r s).sst = s.sst := rfl
@[simp] theorem setWork_btn (r : CalRecord) (s : State) : (setWork r s).btn = s.btn := rfl
@[simp] theorem setWork_evq (r : CalRecord) (s : State) : (setWork r s).evq = s.evq := rfl
@[simp] theorem setWork_nvm (r : CalRecord) (s : State) : (setWork r s).nvm = s.nvm := rfl
@[simp] theorem setWork_irq (r : CalRecord) (s : State) : (setWork r s).irq = s.irq := rfl
@[simp] theorem setWork_port (r : CalRecord) (s : State) : (setWork r s).port = s.port := rfl
@[simp] theorem setWork_ic (r : CalRecord) (s : State) : (setWork r s).ic = s.ic := rfl
@[simp] theorem setWork_env (r : CalRecord) (s : State) : (setWork r s).env = s.env := rfl
@[simp] theorem setWork_board (r : CalRecord) (s : State) : (setWork r s).board = s.board := rfl
@[simp] theorem setWork_log (r : CalRecord) (s : State) : (setWork r s).log = s.log := rfl
-- sealAndStore
@[simp] theorem sealAndStore_tick (s : State) : (sealAndStore s).tick = s.tick := rfl
@[simp] theorem sealAndStore_sst (s : State) : (sealAndStore s).sst = s.sst := rfl
@[simp] theorem sealAndStore_btn (s : State) : (sealAndStore s).btn = s.btn := rfl
@[simp] theorem sealAndStore_evq (s : State) : (sealAndStore s).evq = s.evq := rfl
@[simp] theorem sealAndStore_irq (s : State) : (sealAndStore s).irq = s.irq := rfl
@[simp] theorem sealAndStore_port (s : State) : (sealAndStore s).port = s.port := rfl
@[simp] theorem sealAndStore_ic (s : State) : (sealAndStore s).ic = s.ic := rfl
@[simp] theorem sealAndStore_env (s : State) : (sealAndStore s).env = s.env := rfl
@[simp] theorem sealAndStore_board (s : State) : (sealAndStore s).board = s.board := rfl
-- markLoaded
@[simp] theorem markLoaded_tick (s : State) : (markLoaded s).tick = s.tick := rfl
@[simp] theorem markLoaded_sst (s : State) : (markLoaded s).sst = s.sst := rfl
@[simp] theorem markLoaded_btn (s : State) : (markLoaded s).btn = s.btn := rfl
@[simp] theorem markLoaded_evq (s : State) : (markLoaded s).evq = s.evq := rfl
@[simp] theorem markLoaded_nvm (s : State) : (markLoaded s).nvm = s.nvm := rfl
@[simp] theorem markLoaded_irq (s : State) : (markLoaded s).irq = s.irq := rfl
@[simp] theorem markLoaded_port (s : State) : (markLoaded s).port = s.port := rfl
@[simp] theorem markLoaded_ic (s : State) : (markLoaded s).ic = s.ic := rfl
@[simp] theorem markLoaded_env (s : State) : (markLoaded s).env = s.env := rfl
@[simp] theorem markLoaded_board (s : State) : (markLoaded s).board = s.board := rfl
@[simp] theorem markLoaded_log (s : State) : (markLoaded s).log = s.log := rfl
-- tickArrives
@[simp] theorem tickArrives_tick (s : State) : (tickArrives s).tick = s.tick := rfl
@[simp] theorem tickArrives_sst (s : State) : (tickArrives s).sst = s.sst := rfl
@[simp] theorem tickArrives_btn (s : State) : (tickArrives s).btn = s.btn := rfl
@[simp] theorem tickArrives_evq (s : State) : (tickArrives s).evq = s.evq := rfl
@[simp] theorem tickArrives_cal (s : State) : (tickArrives s).cal = s.cal := rfl
@[simp] theorem tickArrives_nvm (s : State) : (tickArrives s).nvm = s.nvm := rfl
@[simp] theorem tickArrives_port (s : State) : (tickArrives s).port = s.port := rfl
@[simp] theorem tickArrives_ic (s : State) : (tickArrives s).ic = s.ic := rfl
@[simp] theorem tickArrives_env (s : State) : (tickArrives s).env = s.env := rfl
@[simp] theorem tickArrives_board (s : State) : (tickArrives s).board = s.board := rfl
@[simp] theorem tickArrives_log (s : State) : (tickArrives s).log = s.log := rfl
-- consume
@[simp] theorem consume_tick (s : State) : (consume s).tick = s.tick := rfl
@[simp] theorem consume_sst (s : State) : (consume s).sst = s.sst := rfl
@[simp] theorem consume_btn (s : State) : (consume s).btn = s.btn := rfl
@[simp] theorem consume_evq (s : State) : (consume s).evq = s.evq := rfl
@[simp] theorem consume_cal (s : State) : (consume s).cal = s.cal := rfl
@[simp] theorem consume_nvm (s : State) : (consume s).nvm = s.nvm := rfl
@[simp] theorem consume_irq (s : State) : (consume s).irq = s.irq := rfl
@[simp] theorem consume_port (s : State) : (consume s).port = s.port := rfl
@[simp] theorem consume_ic (s : State) : (consume s).ic = s.ic := rfl
@[simp] theorem consume_board (s : State) : (consume s).board = s.board := rfl
@[simp] theorem consume_log (s : State) : (consume s).log = s.log := rfl
-- drawIteration
@[simp] theorem drawIteration_tick (s : State) : (drawIteration s).tick = s.tick := by
  unfold drawIteration; split <;> rfl
@[simp] theorem drawIteration_sst (s : State) : (drawIteration s).sst = s.sst := by
  unfold drawIteration; split <;> rfl
@[simp] theorem drawIteration_btn (s : State) : (drawIteration s).btn = s.btn := by
  unfold drawIteration; split <;> rfl
@[simp] theorem drawIteration_evq (s : State) : (drawIteration s).evq = s.evq := by
  unfold drawIteration; split <;> rfl
@[simp] theorem drawIteration_cal (s : State) : (drawIteration s).cal = s.cal := by
  unfold drawIteration; split <;> rfl
@[simp] theorem drawIteration_nvm (s : State) : (drawIteration s).nvm = s.nvm := by
  unfold drawIteration; split <;> rfl
@[simp] theorem drawIteration_irq (s : State) : (drawIteration s).irq = s.irq := by
  unfold drawIteration; split <;> rfl
@[simp] theorem drawIteration_ic (s : State) : (drawIteration s).ic = s.ic := by
  unfold drawIteration; split <;> rfl
@[simp] theorem drawIteration_board (s : State) : (drawIteration s).board = s.board := by
  unfold drawIteration; split <;> rfl
@[simp] theorem drawIteration_log (s : State) : (drawIteration s).log = s.log := by
  unfold drawIteration; split <;> rfl
@[simp] theorem drawIteration_request (s : State) : (drawIteration s).port.request = s.port.request := by
  unfold drawIteration; split <;> rfl
@[simp] theorem drawIteration_done (s : State) : (drawIteration s).port.done = s.port.done := by
  unfold drawIteration; split <;> rfl
@[simp] theorem drawIteration_inbox (s : State) : (drawIteration s).env.inbox = s.env.inbox := by
  unfold drawIteration; split <;> rfl
-- resumeLoop
@[simp] theorem resumeLoop_tick (s : State) : (resumeLoop s).tick = s.tick := rfl
@[simp] theorem resumeLoop_sst (s : State) : (resumeLoop s).sst = s.sst := rfl
@[simp] theorem resumeLoop_btn (s : State) : (resumeLoop s).btn = s.btn := rfl
@[simp] theorem resumeLoop_evq (s : State) : (resumeLoop s).evq = s.evq := rfl
@[simp] theorem resumeLoop_cal (s : State) : (resumeLoop s).cal = s.cal := rfl
@[simp] theorem resumeLoop_nvm (s : State) : (resumeLoop s).nvm = s.nvm := rfl
@[simp] theorem resumeLoop_irq (s : State) : (resumeLoop s).irq = s.irq := rfl
@[simp] theorem resumeLoop_ic (s : State) : (resumeLoop s).ic = s.ic := rfl
@[simp] theorem resumeLoop_env (s : State) : (resumeLoop s).env = s.env := rfl
@[simp] theorem resumeLoop_board (s : State) : (resumeLoop s).board = s.board := rfl
@[simp] theorem resumeLoop_log (s : State) : (resumeLoop s).log = s.log := rfl
-- resetBlock
@[simp] theorem resetBlock_nvm (s : State) : (resetBlock s).nvm = s.nvm := rfl
@[simp] theorem resetBlock_ic (s : State) : (resetBlock s).ic = s.ic := rfl
@[simp] theorem resetBlock_board (s : State) : (resetBlock s).board = s.board := rfl
@[simp] theorem resetBlock_log (s : State) : (resetBlock s).log = s.log := rfl
-- powerLost
@[simp] theorem powerLost_ic (image : Vector Byte 46) (s : State) : (powerLost image s).ic = s.ic := rfl
@[simp] theorem powerLost_board (image : Vector Byte 46) (s : State) : (powerLost image s).board = s.board := rfl
@[simp] theorem powerLost_log (image : Vector Byte 46) (s : State) : (powerLost image s).log = s.log := rfl

-- the fields written
@[simp] theorem record_log (o : Obs) (s : State) :
    (record o s).log = o :: s.log := rfl
@[simp] theorem finish_port (v : BitVec 32) (s : State) :
    (finish v s).port = { s.port with done := true, res := v, spinning := false } := rfl
@[simp] theorem giveInner_port (v : BitVec 32) (s : State) :
    (giveInner v s).port = { s.port with innerRes := v } := rfl
@[simp] theorem keepWaiting_port (s : State) :
    (keepWaiting s).port = { s.port with done := false, spinning := true } := rfl
@[simp] theorem drawn_env (s : State) :
    (drawn s).env = { s.env with draws := s.env.draws + 1 } := rfl
@[simp] theorem enterSection_irq (s : State) :
    (enterSection s).irq = { s.irq with masked := true } := rfl
@[simp] theorem latchMidTick_irq (s : State) :
    (latchMidTick s).irq = { s.irq with pending := s.irq.pending || s.env.midTick } := rfl
@[simp] theorem latchMidTick_env (s : State) :
    (latchMidTick s).env = { s.env with midTick := s.env.midTick && s.irq.pending } := rfl
@[simp] theorem leaveSection_irq (s : State) :
    (leaveSection s).irq = { s.irq with masked := false } := rfl
@[simp] theorem advanceTick_tick (s : State) :
    (advanceTick s).tick = s.tick + 1 := rfl
@[simp] theorem advanceTick_log (s : State) :
    (advanceTick s).log = .tick :: s.log := rfl
@[simp] theorem enterIsr_irq (s : State) :
    (enterIsr s).irq = { s.irq with pending := false, inIsr := true, op := some advanceWord } := rfl
@[simp] theorem leaveIsr_irq (s : State) :
    (leaveIsr s).irq = { s.irq with inIsr := false, op := none } := rfl
@[simp] theorem appendButton_btn (loc mask id : Byte) (s : State) :
    (appendButton loc mask id s).btn = s.btn ++
      [{ loc := loc, mask := mask, id := id, st := .awaitPress, last := Config.btnInitLast s.env.draws }] := rfl
@[simp] theorem appendButton_env (loc mask id : Byte) (s : State) :
    (appendButton loc mask id s).env = { s.env with draws := s.env.draws + 1 } := rfl
theorem driveSclk_log (b : Bool) (s : State) :
    (driveSclk b s).log = if s.sst.sclk = b then s.log else .sclk b :: s.log := rfl
theorem driveSclk_ic (b : Bool) (s : State) :
    (driveSclk b s).ic = if b && !s.sst.sclk then icTake s.sst.sdo s.ic else s.ic := rfl
theorem driveSdo_log (b : Bool) (s : State) :
    (driveSdo b s).log = if s.sst.sdo = b then s.log else .sdo b :: s.log := rfl
@[simp] theorem driveSclk_sst (b : Bool) (s : State) :
    (driveSclk b s).sst = { s.sst with sclk := b } := rfl
@[simp] theorem driveSdo_sst (b : Bool) (s : State) :
    (driveSdo b s).sst = { s.sst with sdo := b } := rfl
@[simp] theorem startCondition_sst (s : State) :
    (startCondition s).sst = { s.sst with busy := true, sclk := false } := rfl
@[simp] theorem clearChecksum_sst (s : State) :
    (clearChecksum s).sst = { s.sst with cksum := 0 } := rfl
@[simp] theorem addChecksum_sst (v : Half) (s : State) :
    (addChecksum v s).sst = { s.sst with cksum := ckStep s.sst.cksum v } := rfl
@[simp] theorem setWork_cal (r : CalRecord) (s : State) :
    (setWork r s).cal = { s.cal with work := r } := rfl
@[simp] theorem markLoaded_cal (s : State) :
    (markLoaded s).cal = { s.cal with loaded := true } := rfl
@[simp] theorem sealAndStore_cal (s : State) :
    (sealAndStore s).cal = { s.cal with work := sealRecord s.board.crc s.cal.work } := rfl
@[simp] theorem tickArrives_irq (s : State) :
    (tickArrives s).irq = { s.irq with pending := true } := rfl
@[simp] theorem consume_env (s : State) :
    (consume s).env = { s.env with inbox := s.env.inbox.drop 1 } := rfl
@[simp] theorem resumeLoop_port (s : State) :
    (resumeLoop s).port = { s.port with spinning := false } := rfl
@[simp] theorem wait_eq (n : Nat) (s : State) :
    wait n s = s := rfl

/-- A critical section around a body that only reads: the whole trace it leaves (R76, R249). -/
theorem critical_read (s : State) :
    critical (fun t => t) s =
      { s with
        irq := { s.irq with masked := false, pending := s.irq.pending || s.env.midTick }
        env := { s.env with midTick := s.env.midTick && s.irq.pending } } := rfl

/-- `POLL_EVENT`'s critical section: the pop, and the section's trace (R193, R249). -/
theorem critical_popEvent (s : State) :
    critical popEvent s =
      { s with
        evq := (popEvent s).evq
        irq := { s.irq with masked := false, pending := s.irq.pending || s.env.midTick }
        env := { s.env with midTick := s.env.midTick && s.irq.pending } } := rfl

/-- `REGISTER_BUTTON`'s critical section: the append, and the section's trace (R181, R249). -/
theorem critical_appendButton (loc mask id : Byte) (s : State) :
    critical (appendButton loc mask id) s =
      { s with
        btn := (appendButton loc mask id s).btn
        irq := { s.irq with masked := false, pending := s.irq.pending || s.env.midTick }
        env := { s.env with midTick := s.env.midTick && s.irq.pending, draws := s.env.draws + 1 } } := rfl

end Sys2Proof.Machine
end

