-- ==== Sys2Proof/Laws/Link.lean ====
section
/-! SUPPORT. What the serial link's operations can do: which fields they leave alone,
  and how they leave the lines. -/

namespace Sys2Proof.Machine

/-- What no operation of the link touches: everything but the lines and shift registers, the metering IC, the
environment's answers and the history (R80). -/
structure LinkFrame (s t : State) : Prop where
  tick : t.tick = s.tick
  btn : t.btn = s.btn
  evq : t.evq = s.evq
  cal : t.cal = s.cal
  nvm : t.nvm = s.nvm
  irq : t.irq = s.irq
  port : t.port = s.port
  board : t.board = s.board
  inbox : t.env.inbox = s.env.inbox
  midTick : t.env.midTick = s.env.midTick
  inp : t.env.inp = s.env.inp
  buf : t.sst.buf = s.sst.buf
  writes : writeCount t.log = writeCount s.log
  ticks : tickCount t.log = tickCount s.log

theorem LinkFrame.refl (s : State) : LinkFrame s s :=
  ⟨rfl, rfl, rfl, rfl, rfl, rfl, rfl, rfl, rfl, rfl, rfl, rfl, rfl, rfl⟩

theorem LinkFrame.trans {s t u : State} (h : LinkFrame s t) (k : LinkFrame t u) : LinkFrame s u :=
  ⟨k.tick.trans h.tick, k.btn.trans h.btn, k.evq.trans h.evq, k.cal.trans h.cal, k.nvm.trans h.nvm,
    k.irq.trans h.irq, k.port.trans h.port, k.board.trans h.board, k.inbox.trans h.inbox,
    k.midTick.trans h.midTick, k.inp.trans h.inp, k.buf.trans h.buf, k.writes.trans h.writes,
    k.ticks.trans h.ticks⟩

/-- The frame as one equation between states. -/
theorem LinkFrame.eq {s t : State} (h : LinkFrame s t) :
    t = { s with sst := t.sst, log := t.log, ic := t.ic, env := t.env } := by
  obtain ⟨h1, h2, h3, h4, h5, h6, h7, h8, -, -, -, -, -, -⟩ := h
  cases s; cases t; simp_all

-- ---------------------------------------------------------------- counts over the history

@[simp] theorem writeCount_nil : writeCount [] = 0 := rfl
@[simp] theorem writeCount_sclk (b : Bool) (l : List Obs) : writeCount (.sclk b :: l) = writeCount l := by
  simp [writeCount]
@[simp] theorem writeCount_sdo (b : Bool) (l : List Obs) : writeCount (.sdo b :: l) = writeCount l := by
  simp [writeCount]
@[simp] theorem writeCount_sdi (b : Bool) (l : List Obs) : writeCount (.sdi b :: l) = writeCount l := by
  simp [writeCount]
@[simp] theorem writeCount_drop (e : EventWord) (l : List Obs) : writeCount (.drop e :: l) = writeCount l := by
  simp [writeCount]
@[simp] theorem writeCount_tick (l : List Obs) : writeCount (.tick :: l) = writeCount l := by
  simp [writeCount]
@[simp] theorem writeCount_nvmWrite (a : Nat) (bs : List Byte) (l : List Obs) :
    writeCount (.nvmWrite a bs :: l) = writeCount l + 1 := by simp [writeCount]

@[simp] theorem tickCount_nil : tickCount [] = 0 := rfl
@[simp] theorem tickCount_sclk (b : Bool) (l : List Obs) : tickCount (.sclk b :: l) = tickCount l := by
  simp [tickCount]
@[simp] theorem tickCount_sdo (b : Bool) (l : List Obs) : tickCount (.sdo b :: l) = tickCount l := by
  simp [tickCount]
@[simp] theorem tickCount_sdi (b : Bool) (l : List Obs) : tickCount (.sdi b :: l) = tickCount l := by
  simp [tickCount]
@[simp] theorem tickCount_drop (e : EventWord) (l : List Obs) : tickCount (.drop e :: l) = tickCount l := by
  simp [tickCount]
@[simp] theorem tickCount_nvmWrite (a : Nat) (bs : List Byte) (l : List Obs) :
    tickCount (.nvmWrite a bs :: l) = tickCount l := by simp [tickCount]
@[simp] theorem tickCount_tick (l : List Obs) : tickCount (.tick :: l) = tickCount l + 1 := by
  simp [tickCount]

-- ---------------------------------------------------------------- one bit

theorem driveSclk_frame (b : Bool) (s : State) : LinkFrame s (driveSclk b s) := by
  constructor <;> first | rfl | (unfold driveSclk; dsimp only; split <;> simp)

theorem driveSdo_frame (b : Bool) (s : State) : LinkFrame s (driveSdo b s) := by
  constructor <;> first | rfl | (unfold driveSdo; dsimp only; split <;> simp)

/-- A sample records the bit it returns and leaves the lines alone. -/
theorem sampleSdi_spec (s : State) :
    LinkFrame s (sampleSdi s).2 ∧ (sampleSdi s).2.sst = s.sst ∧ (sampleSdi s).2.ic = s.ic ∧
      (sampleSdi s).2.log = .sdi (sampleSdi s).1 :: s.log := by
  unfold sampleSdi
  split
  · exact ⟨by constructor <;> simp, rfl, rfl, rfl⟩
  · split
    · exact ⟨by constructor <;> simp, rfl, rfl, rfl⟩
    · exact ⟨by constructor <;> simp, rfl, rfl, rfl⟩

/-- With the oracle and an answer listed, the sample is that answer (R66). -/
theorem sampleSdi_oracle {s : State} {b : Bool} {rest : List Bool} (hi : s.ic = .oracle)
    (h : s.env.sdi = b :: rest) :
    sampleSdi s = (b, record (.sdi b) { s with env := { s.env with sdi := rest } }) := by
  unfold sampleSdi; rw [hi]; simp [icDrives, h]

/-- One bit period: the clock ends high and `SDO` has the bit sent (R152). -/
theorem exchangeBitOp_spec (o : Bool) (s : State) :
    LinkFrame s (exchangeBitOp o s).2 ∧
      (exchangeBitOp o s).2.sst = { s.sst with sclk := true, sdo := o } := by
  have h1 := driveSclk_frame false s
  have h2 := driveSdo_frame o (driveSclk false s)
  have h3 := sampleSdi_spec (driveSdo o (driveSclk false s))
  have h4 := driveSclk_frame true (sampleSdi (driveSdo o (driveSclk false s))).2
  refine ⟨((h1.trans h2).trans h3.1).trans h4, ?_⟩
  show (driveSclk true (sampleSdi (driveSdo o (driveSclk false s))).2).sst = _
  rw [driveSclk_sst, h3.2.1]; rfl

/-- The events of one bit period, newest first (R152, R162). -/
theorem exchangeBitOp_log (o : Bool) (s : State) :
    (exchangeBitOp o s).2.log = .sclk true :: .sdi (exchangeBitOp o s).1 ::
      (sdoChange s.sst.sdo o ++ ((if s.sst.sclk then [.sclk false] else []) ++ s.log)) := by
  have h := sampleSdi_spec (driveSdo o (driveSclk false s))
  have hu : (driveSdo o (driveSclk false s)).log =
      sdoChange s.sst.sdo o ++ ((if s.sst.sclk then [.sclk false] else []) ++ s.log) := by
    unfold driveSdo driveSclk sdoChange
    cases s.sst.sclk <;> cases s.sst.sdo <;> cases o <;> rfl
  have hr : exchangeBitOp o s =
      ((sampleSdi (driveSdo o (driveSclk false s))).1,
        driveSclk true (sampleSdi (driveSdo o (driveSclk false s))).2) := rfl
  have hc : (sampleSdi (driveSdo o (driveSclk false s))).2.sst.sclk = false := by rw [h.2.1]; rfl
  rw [hr, driveSclk_log, if_neg (by rw [hc]; simp), h.2.2.2, hu]

/-- One bit period against the oracle with an answer listed (R66, R152). -/
theorem exchangeBitOp_oracle {o b : Bool} {s : State} {rest : List Bool} (hi : s.ic = .oracle)
    (h : s.env.sdi = b :: rest) :
    (exchangeBitOp o s).1 = b ∧ (exchangeBitOp o s).2.env = { s.env with sdi := rest } := by
  have hd : (driveSdo o (driveSclk false s)).ic = .oracle := by simp [driveSdo, driveSclk, hi]
  have hs := sampleSdi_oracle hd (show (driveSdo o (driveSclk false s)).env.sdi = b :: rest from h)
  unfold exchangeBitOp wait
  rw [hs]
  exact ⟨rfl, rfl⟩

theorem exchangeBitOp_ic {o : Bool} {s : State} (hi : s.ic = .oracle) : (exchangeBitOp o s).2.ic = .oracle := by
  have hd : (driveSdo o (driveSclk false s)).ic = .oracle := by simp [driveSdo, driveSclk, hi]
  have h := (sampleSdi_spec (driveSdo o (driveSclk false s))).2.2.1
  show (driveSclk true (sampleSdi (driveSdo o (driveSclk false s))).2).ic = _
  rw [driveSclk_ic, h, hd]
  split <;> rfl

-- ---------------------------------------------------------------- one byte

/-- A change of the shift registers alone is inside the frame. -/
theorem linkFrame_shift (s : State) (sho shi : Byte) (n : BitVec 4) :
    LinkFrame s { s with sst := { s.sst with sho := sho, shi := shi, bitcnt := n } } := by
  constructor <;> rfl

/-- The loop of a byte: the clock ends high, `SDO` has bit 0, `BITCNT` is 0 (R153). -/
theorem exchangeBits_spec (k : Nat) (s : State) :
    LinkFrame s (exchangeBits (k + 1) s) ∧
      (exchangeBits (k + 1) s).sst = { s.sst with
        sclk := true, sdo := s.sst.sho.getLsbD 0, shi := (exchangeBits (k + 1) s).sst.shi, bitcnt := 0 } := by
  induction k generalizing s with
  | zero =>
    have h := exchangeBitOp_spec (s.sst.sho.getLsbD 0) s
    refine ⟨h.1.trans ?_, ?_⟩
    · exact linkFrame_shift (exchangeBitOp (s.sst.sho.getLsbD 0) s).2 _ _ _
    · simp only [exchangeBits]; rw [h.2]; rfl
  | succ k ih =>
    have h := exchangeBitOp_spec (s.sst.sho.getLsbD (k + 1)) s
    rw [show exchangeBits (k + 1 + 1) s = exchangeBits (k + 1)
      { (exchangeBitOp (s.sst.sho.getLsbD (k + 1)) s).2 with
        sst := { (exchangeBitOp (s.sst.sho.getLsbD (k + 1)) s).2.sst with
          shi := setBit (exchangeBitOp (s.sst.sho.getLsbD (k + 1)) s).2.sst.shi (k + 1)
            (exchangeBitOp (s.sst.sho.getLsbD (k + 1)) s).1
          bitcnt := BitVec.ofNat 4 (k + 1) } } from rfl]
    have g := ih { (exchangeBitOp (s.sst.sho.getLsbD (k + 1)) s).2 with
        sst := { (exchangeBitOp (s.sst.sho.getLsbD (k + 1)) s).2.sst with
          shi := setBit (exchangeBitOp (s.sst.sho.getLsbD (k + 1)) s).2.sst.shi (k + 1)
            (exchangeBitOp (s.sst.sho.getLsbD (k + 1)) s).1
          bitcnt := BitVec.ofNat 4 (k + 1) } }
    refine ⟨(h.1.trans (linkFrame_shift _ _ _ _)).trans g.1, ?_⟩
    rw [g.2, h.2]

/-- One byte: the clock ends high, `SDO` has bit 0 of the byte sent, the byte received is in `SHI` (R153). -/
theorem exchangeByteOp_spec (o : Byte) (s : State) :
    LinkFrame s (exchangeByteOp o s).2 ∧
      (exchangeByteOp o s).2.sst = { s.sst with
        sclk := true, sdo := o.getLsbD 0, sho := o, shi := (exchangeByteOp o s).1, bitcnt := 0 } := by
  have h := exchangeBits_spec 7 { s with sst := { s.sst with sho := o, shi := 0, bitcnt := 8 } }
  exact ⟨(linkFrame_shift s o 0 8).trans h.1, h.2⟩

-- ---------------------------------------------------------------- transactions

theorem startCondition_frame (s : State) : LinkFrame s (startCondition s) := by
  have h : LinkFrame s { s with sst := { s.sst with busy := true } } := by constructor <;> rfl
  exact h.trans (driveSclk_frame false _)

theorem linkFrame_busy (s : State) (b : Bool) :
    LinkFrame s { s with sst := { s.sst with busy := b } } := by constructor <;> rfl

/-- A transaction, whatever the IC does: the clock ends high, the link free, `CKSUM` and `BUF` as they were
(R154, R155, R161). -/
theorem transact_spec (f : FrameWord) (s : State) :
    LinkFrame s (transact f s).2 ∧
      (transact f s).2.sst = { s.sst with
        sclk := true, busy := false, sdo := f.getLsbD 0, sho := f.extractLsb' 0 8
        shi := (transact f s).2.sst.shi, bitcnt := 0 } := by
  have h0 := exchangeByteOp_spec (f.extractLsb' 16 8) (startCondition s)
  have h1 := exchangeByteOp_spec (f.extractLsb' 8 8) (exchangeByteOp (f.extractLsb' 16 8) (startCondition s)).2
  have h2 := exchangeByteOp_spec (f.extractLsb' 0 8)
    (exchangeByteOp (f.extractLsb' 8 8) (exchangeByteOp (f.extractLsb' 16 8) (startCondition s)).2).2
  have hf := (((startCondition_frame s).trans h0.1).trans h1.1).trans h2.1
  constructor
  · exact hf.trans (linkFrame_busy _ false)
  · simp only [transact]
    rw [h2.2, h1.2, h0.2, startCondition_sst]
    simp

theorem writeRegister_spec (addr : Byte) (data : Half) (s : State) :
    LinkFrame s (writeRegister addr data s) ∧ (writeRegister addr data s).sst.sclk = true ∧
      (writeRegister addr data s).sst.busy = false ∧
      (writeRegister addr data s).sst.cksum = s.sst.cksum := by
  have h := transact_spec (writeFrameOf addr data) s
  unfold writeRegister
  exact ⟨h.1, by rw [h.2], by rw [h.2], by rw [h.2]⟩

theorem readRegister_spec (addr : Byte) (s : State) :
    LinkFrame s (readRegister addr s).2 ∧ (readRegister addr s).2.sst.sclk = true ∧
      (readRegister addr s).2.sst.busy = false ∧
      (readRegister addr s).2.sst.cksum = s.sst.cksum := by
  have h := transact_spec (readFrameOf addr s.board.dummyByte) s
  unfold readRegister
  exact ⟨h.1, by rw [h.2], by rw [h.2], by rw [h.2]⟩

-- ---------------------------------------------------------------- blocks

theorem addChecksum_frame (v : Half) (s : State) : LinkFrame s (addChecksum v s) := by constructor <;> rfl
theorem clearChecksum_frame (s : State) : LinkFrame s (clearChecksum s) := by constructor <;> rfl

/-- The loop of `WRITE_BLOCK`: its checksum is that of the values in `BUF` (R157). -/
theorem writeRange_spec (n : Nat) (addr : Byte) (k : Nat) (s : State) :
    LinkFrame s (writeRange n addr k s) ∧
      (writeRange n addr k s).sst.cksum =
        ((List.range' k n).map (bufAt s.sst.buf)).foldl ckStep s.sst.cksum ∧
      (n = 0 → writeRange n addr k s = s) ∧
      (0 < n → (writeRange n addr k s).sst.sclk = true ∧ (writeRange n addr k s).sst.busy = false) := by
  induction n generalizing addr k s with
  | zero => exact ⟨LinkFrame.refl s, rfl, fun _ => rfl, fun h => absurd h (by omega)⟩
  | succ n ih =>
    have h := writeRegister_spec addr (bufAt s.sst.buf k) s
    have g := ih (addr + 1) (k + 1)
      (addChecksum (bufAt s.sst.buf k) (writeRegister addr (bufAt s.sst.buf k) s))
    rw [show writeRange (n + 1) addr k s = writeRange n (addr + 1) (k + 1)
      (addChecksum (bufAt s.sst.buf k) (writeRegister addr (bufAt s.sst.buf k) s)) from rfl]
    refine ⟨(h.1.trans (addChecksum_frame _ _)).trans g.1, ?_, fun h => by omega, fun _ => ?_⟩
    · rw [g.2.1]
      simp [List.range'_succ, h.1.buf, h.2.2.2]
    · rcases Nat.eq_zero_or_pos n with hn | hn
      · rw [g.2.2.1 hn]; exact ⟨h.2.1, h.2.2.1⟩
      · exact g.2.2.2 hn

/-- The loop of a read-block: as many values as addresses, and their checksum (R158). -/
theorem readRange_spec (n : Nat) (addr : Byte) (s : State) :
    LinkFrame s (readRange n addr s).2 ∧
      (readRange n addr s).1.length = n ∧
      (readRange n addr s).2.sst.cksum = (readRange n addr s).1.foldl ckStep s.sst.cksum ∧
      (n = 0 → (readRange n addr s).2 = s) ∧
      (0 < n → (readRange n addr s).2.sst.sclk = true ∧ (readRange n addr s).2.sst.busy = false) := by
  induction n generalizing addr s with
  | zero => exact ⟨LinkFrame.refl s, rfl, rfl, fun _ => rfl, fun h => absurd h (by omega)⟩
  | succ n ih =>
    have h := readRegister_spec addr s
    have g := ih (addr + 1) (addChecksum (readRegister addr s).1 (readRegister addr s).2)
    simp only [readRange]
    refine ⟨(h.1.trans (addChecksum_frame _ _)).trans g.1, congrArg (· + 1) g.2.1, ?_, fun h => by omega,
      fun _ => ?_⟩
    · rw [g.2.2.1]; simp [h.2.2.2]
    · rcases Nat.eq_zero_or_pos n with hn | hn
      · rw [g.2.2.2.1 hn]; exact ⟨h.2.1, h.2.2.1⟩
      · exact g.2.2.2.2 hn

/-- The elements of `BUF` after the values received are put there (R158). -/
theorem bufAt_storeBuf (k : Nat) (vs : List Half) (buf : Vector Half 112) (h : k + vs.length ≤ 112) (j : Nat) :
    bufAt (storeBuf k vs buf) j = if k ≤ j ∧ j < k + vs.length then vs.getD (j - k) 0 else bufAt buf j := by
  induction vs generalizing k buf with
  | nil => rw [if_neg (by simp)]; rfl
  | cons v vs ih =>
    rw [storeBuf, ih (k + 1) _ (by simp at h; omega)]
    simp at h
    by_cases hj : j = k
    · subst hj
      rw [if_neg (by omega), if_pos (by simp)]
      simp [bufAt, Vector.getD, show j < 112 by omega]
    · by_cases hin : k + 1 ≤ j ∧ j < k + 1 + vs.length
      · rw [if_pos hin, if_pos (by simp; omega), show j - k = (j - (k + 1)) + 1 by omega]; rfl
      · rw [if_neg hin, if_neg (by simp; omega)]
        simp [bufAt, Vector.getD, show k ≠ j by omega]

end Sys2Proof.Machine
end

