-- ==== Sys2Proof/Laws/Buttons.lean ====
section
/-! SUPPORT. What the handler's operations can do: the push, the service step, the debounce decision. -/

namespace Sys2Proof.Machine

/-- What the service step's pushes and samples leave alone (R80): everything but the queue's producer side, the
environment's answers and the history. -/
structure ProducerFrame (s t : State) : Prop where
  tick : t.tick = s.tick
  sst : t.sst = s.sst
  btn : t.btn = s.btn
  cal : t.cal = s.cal
  nvm : t.nvm = s.nvm
  irq : t.irq = s.irq
  port : t.port = s.port
  ic : t.ic = s.ic
  board : t.board = s.board
  tail : t.evq.tail = s.evq.tail
  inbox : t.env.inbox = s.env.inbox
  midTick : t.env.midTick = s.env.midTick
  writes : writeCount t.log = writeCount s.log
  ticks : tickCount t.log = tickCount s.log

theorem ProducerFrame.refl (s : State) : ProducerFrame s s :=
  ⟨rfl, rfl, rfl, rfl, rfl, rfl, rfl, rfl, rfl, rfl, rfl, rfl, rfl, rfl⟩

theorem ProducerFrame.trans {s t u : State} (h : ProducerFrame s t) (k : ProducerFrame t u) :
    ProducerFrame s u :=
  ⟨k.tick.trans h.tick, k.sst.trans h.sst, k.btn.trans h.btn, k.cal.trans h.cal, k.nvm.trans h.nvm,
    k.irq.trans h.irq, k.port.trans h.port, k.ic.trans h.ic, k.board.trans h.board, k.tail.trans h.tail,
    k.inbox.trans h.inbox, k.midTick.trans h.midTick, k.writes.trans h.writes, k.ticks.trans h.ticks⟩

theorem pushEvent_frame (ev : EventWord) (s : State) : ProducerFrame s (pushEvent ev s) := by
  unfold pushEvent
  split <;> (constructor <;> simp)

/-- A push onto a full queue records the drop and changes nothing else (R191). -/
theorem pushEvent_full {ev : EventWord} {s : State} (h : s.evq.head + 1 = s.evq.tail) :
    pushEvent ev s = { s with log := .drop ev :: s.log } := by
  unfold pushEvent Queue.isFull
  rw [if_pos (by rw [h]; exact beq_self_eq_true _)]
  rfl

/-- A push onto a queue that is not full writes the slot and then the cursor (R191). -/
theorem pushEvent_room {ev : EventWord} {s : State} (h : s.evq.head + 1 ≠ s.evq.tail) :
    pushEvent ev s = { s with
      evq := { s.evq with slot := setSlot s.evq.slot s.evq.head ev, head := s.evq.head + 1 } } := by
  unfold pushEvent Queue.isFull
  rw [if_neg (by rw [beq_iff_eq]; exact h)]

theorem slotAt_setSlot (v : Vector EventWord 8) (c d : BitVec 3) (e : EventWord) :
    slotAt (setSlot v c e) d = if d = c then e else slotAt v d := by
  unfold slotAt setSlot
  by_cases h : d = c
  · subst h; simp
  · have : c.toNat ≠ d.toNat := fun x => h (BitVec.eq_of_toNat_eq x.symm)
    simp [h, this]

theorem pushFired_frame (ev : Option EventWord) (s : State) : ProducerFrame s (pushFired ev s) := by
  cases ev with
  | none => exact ProducerFrame.refl s
  | some e => exact pushEvent_frame e s

theorem readInput_frame (loc : Byte) (s : State) : ProducerFrame s (readInput loc s).2 := by
  unfold readInput
  split <;> (constructor <;> rfl)

/-- The debounce step keeps what identifies the button (R35) and samples its level. -/
theorem debounce_keeps (a : Bool) (d : Descriptor) (r : Bool) :
    (debounce a d r).1.loc = d.loc ∧ (debounce a d r).1.mask = d.mask ∧ (debounce a d r).1.id = d.id ∧
      (debounce a d r).1.last = r := by
  unfold debounce
  cases d.st <;> dsimp only <;> split <;> exact ⟨rfl, rfl, rfl, rfl⟩

/-- After a debounce step a button awaiting its release is active (R36), if it was so before. -/
theorem debounce_releaseActive (a : Bool) (d : Descriptor) (r : Bool)
    (h : d.st = .awaitRelease → isActive a d.last = true)
    (hr : (debounce a d r).1.st = .awaitRelease) : isActive a (debounce a d r).1.last = true := by
  rw [(debounce_keeps a d r).2.2.2]
  obtain ⟨loc, mask, id, st, last⟩ := d
  cases st <;> cases a <;> cases r <;> cases last <;> simp_all [debounce, isActive]

/-- When a debounce step leaves R36's property: always, but in the fourth row of R186 (log 35). -/
theorem debounce_matches_iff (a : Bool) (d : Descriptor) (r : Bool) (h : d.st = .awaitRelease → d.last = a) :
    StateMatchesLevel a (debounce a d r).1 ↔ ¬ (d.st = .awaitPress ∧ d.last = a ∧ r = a) := by
  obtain ⟨loc, mask, id, st, last⟩ := d
  cases st <;> cases a <;> cases r <;> cases last <;> simp_all [StateMatchesLevel, debounce, isActive]

/-- The service step over a list: the producer's frame, and one descriptor for each, identified as before. -/
theorem serviceList_spec (ds : List Descriptor) (s : State) :
    ProducerFrame s (serviceList ds s).2 ∧
      (serviceList ds s).1.map (fun d => (d.loc, d.mask, d.id)) = ds.map (fun d => (d.loc, d.mask, d.id)) := by
  induction ds generalizing s with
  | nil => exact ⟨ProducerFrame.refl s, rfl⟩
  | cons d ds ih =>
    have h := ih (serviceOne d s).2
    have hd := debounce_keeps s.board.activeLevel d (rawLevel (readInput d.loc s).1 d.mask)
    constructor
    · exact ((readInput_frame d.loc s).trans (pushFired_frame _ _)).trans h.1
    · show _ :: _ = _ :: _
      rw [h.2]
      simp only [serviceOne, hd.1, hd.2.1, hd.2.2.1]

theorem serviceList_length (ds : List Descriptor) (s : State) : (serviceList ds s).1.length = ds.length := by
  have h := congrArg List.length (serviceList_spec ds s).2
  simpa using h

/-- One descriptor's service step leaves the configuration. -/
theorem serviceOne_board (d : Descriptor) (s : State) : (serviceOne d s).2.board = s.board :=
  ((readInput_frame d.loc s).trans (pushFired_frame _ _)).board

/-- Each descriptor takes one debounce step, with the level it has sampled. -/
theorem serviceList_getElem? (ds : List Descriptor) (s : State) (k : Nat) {d e : Descriptor} (hd : ds[k]? = some d)
    (he : (serviceList ds s).1[k]? = some e) : e = (debounce s.board.activeLevel d e.last).1 := by
  induction ds generalizing s k with
  | nil => cases hd
  | cons c ds ih =>
    cases k with
    | zero =>
      obtain rfl := Option.some.inj hd
      obtain rfl := Option.some.inj he
      rw [serviceOne, (debounce_keeps _ _ _).2.2.2]
    | succ k =>
      have h := ih (serviceOne c s).2 k hd he
      rwa [serviceOne_board] at h

/-- The service step keeps the direction of R36 that `Inv` has. -/
theorem serviceList_releaseActive (ds : List Descriptor) (s : State)
    (h : ∀ d ∈ ds, d.st = .awaitRelease → isActive s.board.activeLevel d.last = true) :
    ∀ d ∈ (serviceList ds s).1, d.st = .awaitRelease → isActive s.board.activeLevel d.last = true := by
  induction ds generalizing s with
  | nil => intro d hd; cases hd
  | cons d ds ih =>
    have hf := serviceOne_board d s
    intro e he
    rcases List.mem_cons.mp he with rfl | he
    · exact debounce_releaseActive _ d _ (h d (by simp))
    · have := ih (serviceOne d s).2 (by rw [hf]; exact fun x hx => h x (by simp [hx])) e he
      rwa [hf] at this

/-- The service step does not look at the interrupt state. -/
theorem serviceList_irq (ds : List Descriptor) (s : State) (q : Interrupt) :
    serviceList ds { s with irq := q } =
      ((serviceList ds s).1, { (serviceList ds s).2 with irq := q }) := by
  induction ds generalizing s with
  | nil => rfl
  | cons d ds ih =>
    have h1 : readInput d.loc { s with irq := q } =
        ((readInput d.loc s).1, { (readInput d.loc s).2 with irq := q }) := by
      cases hi : s.env.inp with
      | nil => simp only [readInput, hi]; rfl
      | cons v rest => simp only [readInput, hi]
    have h2 : ∀ (ev : Option EventWord) (t : State),
        pushFired ev { t with irq := q } = { pushFired ev t with irq := q } := by
      intro ev t
      cases ev with
      | none => rfl
      | some e => simp only [pushFired, pushEvent]; split <;> rfl
    have h3 : serviceOne d { s with irq := q } =
        ((serviceOne d s).1, { (serviceOne d s).2 with irq := q }) := by
      simp only [serviceOne, h1, h2]
    simp only [serviceList, h3, ih]

theorem serviceStep_irq (s : State) (q : Interrupt) :
    serviceStep { s with irq := q } = { serviceStep s with irq := q } := by
  simp only [serviceStep, serviceList_irq]

/-- What `SERVICE` leaves alone. -/
theorem serviceStep_spec (s : State) :
    (serviceStep s).tick = s.tick ∧ (serviceStep s).sst = s.sst ∧ (serviceStep s).cal = s.cal ∧
      (serviceStep s).nvm = s.nvm ∧ (serviceStep s).irq = s.irq ∧ (serviceStep s).port = s.port ∧
      (serviceStep s).ic = s.ic ∧ (serviceStep s).board = s.board ∧
      (serviceStep s).evq.tail = s.evq.tail ∧ (serviceStep s).env.inbox = s.env.inbox ∧
      (serviceStep s).env.midTick = s.env.midTick ∧
      writeCount (serviceStep s).log = writeCount s.log ∧ tickCount (serviceStep s).log = tickCount s.log ∧
      (serviceStep s).btn = (serviceList s.btn s).1 := by
  have h := (serviceList_spec s.btn s).1
  exact ⟨h.tick, h.sst, h.cal, h.nvm, h.irq, h.port, h.ic, h.board, h.tail, h.inbox, h.midTick, h.writes,
    h.ticks, rfl⟩

/-- `hasRoom` says `NBTN < MAX_BUTTONS` (R181). -/
theorem hasRoom_iff (n : Nat) (b : Config.Board) : hasRoom n b.maxButtonsPred = true ↔ n < b.maxButtons := by
  cases n with
  | zero => simp [hasRoom, Config.Board.maxButtons]
  | succ n => simp [hasRoom, Config.Board.maxButtons]

end Sys2Proof.Machine
end

