-- ==== Sys2Proof/Laws/Wire.lean ====
section
/-! SUPPORT. What a byte, a frame and a block put on the wire and what they receive, whatever answers the line; against
the oracle, with the answers listed, they receive these (R66, R153, R157, R158, R162). -/

namespace Sys2Proof.Machine

theorem bitPeriods_true (level : Bool) (bits : List (Bool × Bool)) :
    bitPeriods true level bits = laterPeriods level bits := by
  cases bits <;> rfl

theorem sdoChange_reverse (a b : Bool) : (sdoChange a b).reverse = sdoChange a b := by
  unfold sdoChange; split <;> rfl

theorem getLsbD_setBit (v : Byte) (k j : Nat) (b : Bool) (hk : k < 8) :
    (setBit v k b).getLsbD j = if j = k then b else v.getLsbD j := by
  unfold setBit
  by_cases hj : j < 8
  · by_cases h : j = k
    · subst h; cases b <;> simp [hj]
    · by_cases h2 : j < k
      · cases b <;> simp [h, hj, h2]
      · cases b <;> simp [h, hj, h2, show j - k ≠ 0 by omega]
  · have : j ≠ k := by omega
    rw [BitVec.getLsbD_of_ge _ _ (by omega)]; rw [if_neg this, BitVec.getLsbD_of_ge _ _ (by omega)]

/-- The bits `k - 1` down to `0` of a byte. -/
def lowBits (v : Byte) : Nat → List Bool
  | 0 => []
  | k + 1 => v.getLsbD k :: lowBits v k

theorem Hears.trans {s t u : State} {a b : List Bool} (h : Hears s t a) (k : Hears t u b) : Hears s u (a ++ b) := by
  intro given rest hi hs hl
  rw [List.length_append] at hl
  obtain ⟨h1, h2, h3⟩ := h (given.take a.length) (given.drop a.length ++ rest) hi
    (by rw [hs, ← List.append_assoc, List.take_append_drop]) (by simp [hl])
  obtain ⟨k1, k2, k3⟩ := k (given.drop a.length) rest h2 (by rw [h3]) (by simp [hl])
  refine ⟨?_, k2, by rw [k3, h3]⟩
  rw [k1]
  exact (congrArg (· ++ _) h1).trans (List.take_append_drop _ _)

/-- What follows without a sample hears nothing more. -/
theorem Hears.congr {s t u : State} {a : List Bool} (h : Hears s t a) (hi : u.ic = t.ic) (he : u.env = t.env) :
    Hears s u a := by
  intro given rest ho hs hl
  obtain ⟨h1, h2, h3⟩ := h given rest ho hs hl
  exact ⟨h1, hi.trans h2, he.trans h3⟩

/-- A step of the model's own bookkeeping hears nothing. -/
theorem Hears.of_eq {s t : State} (hi : t.ic = s.ic) (he : t.env = s.env) : Hears s t [] := by
  intro given rest ho hs hl
  obtain rfl : given = [] := List.length_eq_zero_iff.mp hl
  refine ⟨rfl, hi.trans ho, ?_⟩
  rw [he, ← (show s.env.sdi = rest from hs)]

theorem exchangeBitOp_hears (o : Bool) (s : State) : Hears s (exchangeBitOp o s).2 [(exchangeBitOp o s).1] := by
  intro given rest hi hs hl
  obtain ⟨b, rfl⟩ := List.length_eq_one_iff.mp hl
  have h := exchangeBitOp_oracle (o := o) hi (show s.env.sdi = b :: rest from hs)
  exact ⟨by rw [h.1], exchangeBitOp_ic hi, h.2⟩

/-- The loop of a byte (R153): `k` periods, their samples in `SHI` from bit `k - 1` down. -/
theorem exchangeBits_wire (k : Nat) (s : State) (hk : k ≤ 8) :
    ∃ ins : List Bool, ins.length = k ∧ Hears s (exchangeBits k s) ins ∧
      (exchangeBits k s).log =
        (bitPeriods s.sst.sclk s.sst.sdo ((lowBits s.sst.sho k).zip ins)).reverse ++ s.log ∧
      ∀ j, (exchangeBits k s).sst.shi.getLsbD j =
        if j < k then ins.getD (k - 1 - j) false else s.sst.shi.getLsbD j := by
  induction k generalizing s with
  | zero => exact ⟨[], rfl, Hears.of_eq rfl rfl, rfl, fun j => by simp; rfl⟩
  | succ k ih =>
    have ho := exchangeBitOp_hears (s.sst.sho.getLsbD k) s
    have hs := (exchangeBitOp_spec (s.sst.sho.getLsbD k) s).2
    have hg := exchangeBitOp_log (s.sst.sho.getLsbD k) s
    simp only [exchangeBits]
    generalize exchangeBitOp (s.sst.sho.getLsbD k) s = r at *
    obtain ⟨ins, g1, g2, g3, g4⟩ :=
      ih { r.2 with sst := { r.2.sst with shi := setBit r.2.sst.shi k r.1, bitcnt := BitVec.ofNat 4 k } } (by omega)
    refine ⟨r.1 :: ins, by simp [g1], ho.trans g2, ?_, ?_⟩
    · rw [g3]
      simp only [hs, bitPeriods_true]
      simp only [lowBits, List.zip_cons_cons, bitPeriods, hg]
      cases s.sst.sclk <;> simp [sdoChange_reverse]
    · intro j
      rw [g4 j]
      simp only [hs, getLsbD_setBit _ _ _ _ (show k < 8 by omega)]
      by_cases h1 : j < k
      · rw [if_pos h1, if_pos (by omega), show k + 1 - 1 - j = (k - 1 - j) + 1 by omega]; rfl
      · by_cases h2 : j = k
        · subst h2; simp
        · rw [if_neg h1, if_neg h2, if_neg (by omega)]

theorem byteOfBits_getLsbD (ins : List Bool) (h : ins.length = 8) (j : Nat) (hj : j < 8) :
    (byteOfBits ins).getLsbD j = ins.getD (7 - j) false := by
  match ins, h with
  | [a, b, c, d, e, f, g, i], _ =>
    have : ∀ a b c d e f g i : Bool, ∀ j : Fin 8, (byteOfBits [a, b, c, d, e, f, g, i]).getLsbD j.val = [a, b,
      c, d, e, f, g, i].getD (7 - j.val) false := by decide +kernel
    exact this a b c d e f g i ⟨j, hj⟩

theorem lowBits_eight (v : Byte) : lowBits v 8 = byteBits v := by
  simp [byteBits, List.range_succ_eq_map, lowBits]

/-- One byte: its bits go out most significant first, and the samples are the byte received (R153). -/
theorem exchangeByteOp_wire (o : Byte) (s : State) :
    ∃ ins : List Bool, ins.length = 8 ∧ Hears s (exchangeByteOp o s).2 ins ∧
      (exchangeByteOp o s).1 = byteOfBits ins ∧
      (exchangeByteOp o s).2.log = (bitPeriods s.sst.sclk s.sst.sdo ((byteBits o).zip ins)).reverse ++ s.log := by
  obtain ⟨ins, g1, g2, g3, g4⟩ :=
    exchangeBits_wire 8 { s with sst := { s.sst with sho := o, shi := 0, bitcnt := 8 } } (Nat.le_refl 8)
  refine ⟨ins, g1, g2, ?_, by rw [← lowBits_eight]; exact g3⟩
  apply BitVec.eq_of_getLsbD_eq
  intro j hj
  rw [byteOfBits_getLsbD ins g1 j hj]
  exact (g4 j).trans (if_pos hj)

theorem laterPeriods_append (level : Bool) (a b : List (Bool × Bool)) :
    laterPeriods level (a ++ b) =
      laterPeriods level a ++ laterPeriods ((a.map Prod.fst).getLastD level) b := by
  induction a generalizing level with
  | nil => rfl
  | cons p a ih =>
    obtain ⟨o, i⟩ := p
    simp only [List.cons_append, laterPeriods, ih, List.map_cons, List.append_assoc, List.getLastD_cons]

theorem frameBits_byteBits (f : FrameWord) :
    frameBits f = byteBits (f.extractLsb' 16 8) ++
      (byteBits (f.extractLsb' 8 8) ++ byteBits (f.extractLsb' 0 8)) := by
  simp [frameBits, byteBits, List.range_succ_eq_map]

theorem lowBits_length (v : Byte) (k : Nat) : (lowBits v k).length = k := by
  induction k with
  | zero => rfl
  | succ k ih => simp [lowBits, ih]

theorem getLastD_lowBits (v : Byte) (k : Nat) (d : Bool) : (lowBits v (k + 1)).getLastD d = v.getLsbD 0 := by
  induction k generalizing d with
  | zero => rfl
  | succ k ih => exact ih (v.getLsbD (k + 1))

theorem be16_getLsbD (x y : Byte) (i : Nat) :
    (be16 x y).getLsbD i = if i < 8 then y.getLsbD i else x.getLsbD (i - 8) := by
  unfold be16
  exact BitVec.getLsbD_append.trans (by cases decide (i < 8) <;> rfl)

theorem frameOf_getLsbD (b0 b1 b2 : Byte) (i : Nat) :
    (frameOf b0 b1 b2).getLsbD i =
      if i < 8 then b2.getLsbD i else if i < 16 then b1.getLsbD (i - 8) else b0.getLsbD (i - 16) := by
  have h1 : (frameOf b0 b1 b2).getLsbD i = if i < 8 then b2.getLsbD i else (be16 b0 b1).getLsbD (i - 8) :=
    BitVec.getLsbD_append.trans (by cases decide (i < 8) <;> rfl)
  rw [h1, be16_getLsbD]
  by_cases h8 : i < 8
  · rw [if_pos h8, if_pos h8]
  · rw [if_neg h8, if_neg h8, Nat.sub_sub]
    by_cases h16 : i < 16
    · rw [if_pos h16, if_pos (by omega)]
    · rw [if_neg h16, if_neg (by omega)]

/-- The write frame is the address byte and the data, high byte first (R99). -/
theorem writeFrameOf_eq (addr : Byte) (data : Half) : writeFrameOf addr data = addr ++ data := by
  apply BitVec.eq_of_getLsbD_eq
  intro i hi
  have h : ((addr ++ data : FrameWord)).getLsbD i = if i < 16 then data.getLsbD i else addr.getLsbD (i - 16) :=
    BitVec.getLsbD_append.trans (by cases decide (i < 16) <;> rfl)
  rw [h, writeFrameOf, frameOf_getLsbD]
  by_cases h8 : i < 8
  · rw [if_pos h8, if_pos (by omega)]; simp [lo8, h8]
  · rw [if_neg h8]
    by_cases h16 : i < 16
    · rw [if_pos h16, if_pos h16]; simp [hi8, show i - 8 < 8 by omega, show 8 + (i - 8) = i by omega]
    · rw [if_neg h16, if_neg h16]

theorem laterPeriods_eq_bitPeriods (level : Bool) (bits : List (Bool × Bool)) (h : bits ≠ []) :
    laterPeriods level bits = .sclk false :: bitPeriods false level bits := by
  cases bits with
  | nil => exact absurd rfl h
  | cons p bits => rfl

theorem waveform_eq_laterPeriods (level : Bool) (bits : List (Bool × Bool)) (h : bits ≠ []) :
    waveform level bits = laterPeriods level bits := by
  cases bits with
  | nil => exact absurd rfl h
  | cons p bits => rfl

theorem byteBits_length (v : Byte) : (byteBits v).length = 8 := by simp [byteBits]

theorem getLastD_zip_byteBits (v : Byte) (a : List Bool) (ha : a.length = 8) (d : Bool) :
    (((byteBits v).zip a).map Prod.fst).getLastD d = v.getLsbD 0 := by
  rw [List.map_fst_zip (by rw [byteBits_length, ha]), ← lowBits_eight, getLastD_lowBits]

theorem halfOfBits_append (a b : List Bool) (ha : a.length = 8) (hb : b.length = 8) :
    halfOfBits (a ++ b) = be16 (byteOfBits a) (byteOfBits b) := by
  match a, b, ha, hb with
  | [a0, a1, a2, a3, a4, a5, a6, a7], [b0, b1, b2, b3, b4, b5, b6, b7], _, _ =>
    apply BitVec.eq_of_getLsbD_eq
    intro i hi
    rw [be16_getLsbD]
    interval_cases i <;> simp [halfOfBits, byteOfBits]

/-- One transaction, whatever the IC does: the waveform of its 24 bits and 24 samples; the value received is in the
last 16 (R99, R162). -/
theorem transact_wire (f : FrameWord) (s : State) (hc : s.sst.sclk = true) :
    ∃ ins : List Bool, ins.length = 24 ∧ Hears s (transact f s).2 ins ∧
      (transact f s).1 = halfOfBits (ins.drop 8) ∧
      (transact f s).2.log = (waveform s.sst.sdo ((frameBits f).zip ins)).reverse ++ s.log := by
  have hlog : (startCondition s).log = .sclk false :: s.log := by
    show (driveSclk false _).log = _
    rw [driveSclk_log]; simp [hc]
  have hst : Hears s (startCondition s) [] :=
    Hears.of_eq (by show (driveSclk false _).ic = _; rw [driveSclk_ic]; rfl) rfl
  obtain ⟨a, ha, a1, -, a3⟩ := exchangeByteOp_wire (f.extractLsb' 16 8) (startCondition s)
  have s0 := (exchangeByteOp_spec (f.extractLsb' 16 8) (startCondition s)).2
  obtain ⟨b, hb, b1, b2, b3⟩ :=
    exchangeByteOp_wire (f.extractLsb' 8 8) (exchangeByteOp (f.extractLsb' 16 8) (startCondition s)).2
  have s1 := (exchangeByteOp_spec (f.extractLsb' 8 8)
    (exchangeByteOp (f.extractLsb' 16 8) (startCondition s)).2).2
  obtain ⟨c, hd, c1, c2, c3⟩ := exchangeByteOp_wire (f.extractLsb' 0 8)
    (exchangeByteOp (f.extractLsb' 8 8) (exchangeByteOp (f.extractLsb' 16 8) (startCondition s)).2).2
  refine ⟨a ++ (b ++ c), by simp [ha, hb, hd], ?_, ?_, ?_⟩
  · have h := hst.trans (a1.trans (b1.trans c1))
    unfold transact
    exact Hears.congr h (by dsimp only) (by dsimp only)
  · simp only [transact]
    rw [b2, c2, List.drop_left' ha, halfOfBits_append b c hb hd]
  · simp only [transact]
    rw [c3, b3, a3, hlog, s1, s0]
    simp only [startCondition_sst, bitPeriods_true]
    have z : (frameBits f).zip (a ++ (b ++ c)) = (byteBits (f.extractLsb' 16 8)).zip a ++
        ((byteBits (f.extractLsb' 8 8)).zip b ++ (byteBits (f.extractLsb' 0 8)).zip c) := by
      rw [frameBits_byteBits, List.zip_append ((byteBits_length _).trans ha.symm),
        List.zip_append ((byteBits_length _).trans hb.symm)]
    rw [z]
    have ne : ∀ (v : Byte) (x : List Bool) (l : List (Bool × Bool)), x.length = 8 →
        (byteBits v).zip x ++ l ≠ [] := by
      intro v x l hx e
      have := congrArg List.length e
      simp [byteBits_length, hx] at this
    rw [waveform_eq_laterPeriods _ _ (ne _ _ _ ha), laterPeriods_append, laterPeriods_append,
      getLastD_zip_byteBits _ _ ha, getLastD_zip_byteBits _ _ hb,
      laterPeriods_eq_bitPeriods s.sst.sdo ((byteBits (f.extractLsb' 16 8)).zip a)
        (by rw [← List.append_nil ((byteBits (f.extractLsb' 16 8)).zip a)]; exact ne _ a [] ha)]
    simp

-- ---------------------------------------------------------------- blocks

/-- The level of `SDO` after frames. -/
def sdoAfter : Bool → List FrameWord → Bool
  | level, [] => level
  | _, f :: fs => sdoAfter (f.getLsbD 0) fs

theorem blockWaves_append (level : Bool) (fs gs : List FrameWord) (as bs : List (List Bool))
    (h : fs.length = as.length) :
    blockWaves level ((fs ++ gs).zip (as ++ bs)) =
      blockWaves level (fs.zip as) ++ blockWaves (sdoAfter level fs) (gs.zip bs) := by
  induction fs generalizing level as with
  | nil => obtain rfl : as = [] := List.length_eq_zero_iff.mp h.symm; rfl
  | cons f fs ih =>
    cases as with
    | nil => cases h
    | cons a as =>
      simp only [List.cons_append, List.zip_cons_cons, blockWaves, ih (f.getLsbD 0) as (Nat.succ.inj h),
        List.append_assoc, sdoAfter]

theorem FrameAnswers.cons {n : Nat} {a : List Bool} {as : List (List Bool)} (ha : a.length = 24)
    (h : FrameAnswers n as) : FrameAnswers (n + 1) (a :: as) :=
  ⟨by simp [h.1], by simpa [ha] using h.2⟩

theorem FrameAnswers.append {n m : Nat} {as bs : List (List Bool)} (h : FrameAnswers n as)
    (k : FrameAnswers m bs) : FrameAnswers (n + m) (as ++ bs) :=
  ⟨by simp [h.1, k.1], fun a ha => (List.mem_append.mp ha).elim (h.2 a) (k.2 a)⟩

theorem readFrames_succ (first : Byte) (n : Nat) (dummy : Byte) :
    readFrames first (n + 1) dummy = readFrameOf first dummy :: readFrames (first + 1) n dummy := by
  simp only [readFrames, List.range_succ_eq_map, List.map_cons, List.map_map]
  congr 1
  · simp [readFrameOf, frameOf, readAddress, Config.readFlag]
  · apply List.map_congr_left
    intro k _
    have : first + BitVec.ofNat 8 (k + 1) = first + 1 + BitVec.ofNat 8 k := by
      apply BitVec.eq_of_toNat_eq; simp [BitVec.toNat_add]; omega
    simp [this]

theorem readFrames_length (first : Byte) (n : Nat) (dummy : Byte) : (readFrames first n dummy).length = n := by
  simp [readFrames]

/-- The read loop of a block: its frames in address order, and their values (R158). -/
theorem readRange_wire (n : Nat) (first : Byte) (s : State) (hc : 0 < n → s.sst.sclk = true) :
    ∃ answers, FrameAnswers n answers ∧ Hears s (readRange n first s).2 answers.flatten ∧
      (readRange n first s).1 = answers.map (fun a => halfOfBits (a.drop 8)) ∧
      (readRange n first s).2.log =
        (blockWaves s.sst.sdo ((readFrames first n s.board.dummyByte).zip answers)).reverse ++ s.log ∧
      (readRange n first s).2.sst.sdo = sdoAfter s.sst.sdo (readFrames first n s.board.dummyByte) := by
  induction n generalizing first s with
  | zero => exact ⟨[], ⟨rfl, by simp⟩, Hears.of_eq rfl rfl, rfl, rfl, rfl⟩
  | succ n ih =>
    have hsp := transact_spec (readFrameOf first s.board.dummyByte) s
    obtain ⟨a, h1, h2, h3, h4⟩ := transact_wire (readFrameOf first s.board.dummyByte) s (hc (by omega))
    simp only [readRange, readRegister]
    generalize transact (readFrameOf first s.board.dummyByte) s = r at *
    obtain ⟨as, g1, g2, g3, g4, g5⟩ := ih (first + 1) (addChecksum r.1 r.2) (fun _ => by
      rw [addChecksum_sst]; dsimp only; rw [hsp.2])
    have hb : (addChecksum r.1 r.2).board = s.board := hsp.1.board
    have hd : (addChecksum r.1 r.2).sst.sdo = (readFrameOf first s.board.dummyByte).getLsbD 0 := by
      rw [addChecksum_sst]; dsimp only; rw [hsp.2]
    refine ⟨a :: as, g1.cons h1, h2.trans ((Hears.of_eq rfl rfl : Hears r.2 (addChecksum r.1 r.2) []).trans g2),
      by rw [g3, h3]; rfl, ?_, ?_⟩
    · rw [g4, hb, hd, addChecksum_log, h4, readFrames_succ]
      simp [blockWaves]
    · rw [g5, hb, hd, readFrames_succ, sdoAfter]

/-- The values of `BUF` from element `k` on, as the write frames of `n` registers carry them. -/
def writeFramesFrom (first : Byte) (k n : Nat) (buf : Vector Half 112) : List FrameWord :=
  (List.range n).map (fun j => (first + BitVec.ofNat 8 j) ++ bufAt buf (k + j))

theorem writeFramesFrom_zero (first : Byte) (n : Nat) (buf : Vector Half 112) :
    writeFramesFrom first 0 n buf = writeFrames first n buf := by simp [writeFramesFrom, writeFrames]

theorem writeFramesFrom_succ (first : Byte) (k n : Nat) (buf : Vector Half 112) :
    writeFramesFrom first k (n + 1) buf =
      writeFrameOf first (bufAt buf k) :: writeFramesFrom (first + 1) (k + 1) n buf := by
  simp only [writeFramesFrom, List.range_succ_eq_map, List.map_cons, List.map_map]
  refine congrArg₂ List.cons ?_ ?_
  · have : first + BitVec.ofNat 8 0 = first := BitVec.add_zero first
    rw [writeFrameOf_eq, this]
    rfl
  · apply List.map_congr_left
    intro j _
    have : first + BitVec.ofNat 8 (j + 1) = first + 1 + BitVec.ofNat 8 j := by
      apply BitVec.eq_of_toNat_eq; simp [BitVec.toNat_add]; omega
    simp [this, show k + (j + 1) = k + 1 + j by omega]

/-- The write loop of a block: its frames in address order, with the values of `BUF` (R157). -/
theorem writeRange_wire (n : Nat) (first : Byte) (k : Nat) (s : State) (hc : 0 < n → s.sst.sclk = true) :
    ∃ answers, FrameAnswers n answers ∧ Hears s (writeRange n first k s) answers.flatten ∧
      (writeRange n first k s).log =
        (blockWaves s.sst.sdo ((writeFramesFrom first k n s.sst.buf).zip answers)).reverse ++ s.log := by
  induction n generalizing first k s with
  | zero => exact ⟨[], ⟨rfl, by simp⟩, Hears.of_eq rfl rfl, rfl⟩
  | succ n ih =>
    have hsp := transact_spec (writeFrameOf first (bufAt s.sst.buf k)) s
    obtain ⟨a, h1, h2, -, h4⟩ := transact_wire (writeFrameOf first (bufAt s.sst.buf k)) s (hc (by omega))
    simp only [writeRange, writeRegister]
    generalize transact (writeFrameOf first (bufAt s.sst.buf k)) s = r at *
    obtain ⟨as, g1, g2, g3⟩ := ih (first + 1) (k + 1) (addChecksum (bufAt s.sst.buf k) r.2) (fun _ => by
      rw [addChecksum_sst]; dsimp only; rw [hsp.2])
    have hd : (addChecksum (bufAt s.sst.buf k) r.2).sst.sdo = (writeFrameOf first (bufAt s.sst.buf k)).getLsbD 0 := by
      rw [addChecksum_sst]; dsimp only; rw [hsp.2]
    have hb : (addChecksum (bufAt s.sst.buf k) r.2).sst.buf = s.sst.buf := hsp.1.buf
    refine ⟨a :: as, g1.cons h1,
      h2.trans ((Hears.of_eq rfl rfl : Hears r.2 (addChecksum (bufAt s.sst.buf k) r.2) []).trans g2), ?_⟩
    rw [g3, hd, hb, addChecksum_log, h4, writeFramesFrom_succ]
    simp [blockWaves]

end Sys2Proof.Machine
end

