-- ==== Sys2Proof/Laws/Device.lean ====
section
/-! SUPPORT. The metering IC as `DevIdeal` behind the wire (R66): what it takes and drives over the bit periods of a
transaction. -/

namespace Sys2Proof.Machine

/-- One bit period: the IC takes the level of `SDO`, and where it drives the line its bit is received. -/
theorem exchangeBitOp_takes (o : Bool) (s : State) :
    (exchangeBitOp o s).2.ic = icTake o s.ic ∧ ∀ b, icDrives s.ic = some b → (exchangeBitOp o s).1 = b := by
  have hd : (driveSdo o (driveSclk false s)).ic = s.ic := by
    rw [driveSdo_ic, driveSclk_ic]; simp
  have h := sampleSdi_spec (driveSdo o (driveSclk false s))
  constructor
  · show (driveSclk true (sampleSdi (driveSdo o (driveSclk false s))).2).ic = _
    rw [driveSclk_ic, h.2.2.1, h.2.1, hd]
    simp
  · intro b hb
    show (sampleSdi (driveSdo o (driveSclk false s))).1 = b
    unfold sampleSdi
    rw [hd, hb]

/-- The IC after a sequence of levels of `SDO`. -/
def takeBits (ic : Ic) (bits : List Bool) : Ic := bits.foldl (fun c b => icTake b c) ic

/-- The bit periods of a byte: what the IC takes, and what is received where it drives the line. -/
theorem exchangeBits_takes (k : Nat) (s : State) (hk : k ≤ 8) :
    (exchangeBits k s).ic = takeBits s.ic (lowBits s.sst.sho k) ∧
      (∀ j, j < k → ∀ b, icDrives (takeBits s.ic ((lowBits s.sst.sho k).take (k - 1 - j))) = some b →
        (exchangeBits k s).sst.shi.getLsbD j = b) ∧
      ∀ j, k ≤ j → (exchangeBits k s).sst.shi.getLsbD j = s.sst.shi.getLsbD j := by
  induction k generalizing s with
  | zero => exact ⟨rfl, fun j hj => absurd hj (by omega), fun j _ => rfl⟩
  | succ k ih =>
    have ht := exchangeBitOp_takes (s.sst.sho.getLsbD k) s
    have hs := (exchangeBitOp_spec (s.sst.sho.getLsbD k) s).2
    simp only [exchangeBits]
    generalize exchangeBitOp (s.sst.sho.getLsbD k) s = r at *
    generalize hu : ({ r.2 with
      sst := { r.2.sst with shi := setBit r.2.sst.shi k r.1, bitcnt := BitVec.ofNat 4 k } } : State) = u
    have hsho : u.sst.sho = s.sst.sho := by rw [← hu]; dsimp only; rw [hs]
    have hshi : u.sst.shi = setBit s.sst.shi k r.1 := by rw [← hu]; dsimp only; rw [hs]
    have hic : u.ic = icTake (s.sst.sho.getLsbD k) s.ic := by rw [← hu]; exact ht.1
    have g := ih u (by omega)
    rw [hsho, hic, hshi] at g
    refine ⟨g.1, ?_, ?_⟩
    · intro j hj b hb
      by_cases h : j = k
      · subst h
        rw [g.2.2 j (Nat.le_refl j), getLsbD_setBit _ _ _ _ (by omega), if_pos rfl]
        exact ht.2 b (by simpa [takeBits] using hb)
      · apply g.2.1 j (by omega) b
        rw [← hb, show k + 1 - 1 - j = (k - 1 - j) + 1 by omega]
        rfl
    · intro j hj
      rw [g.2.2 j (by omega), getLsbD_setBit _ _ _ _ (by omega), if_neg (by omega)]

/-- A byte: what the IC takes, and what is received where it drives the line. -/
theorem exchangeByteOp_takes (o : Byte) (s : State) :
    (exchangeByteOp o s).2.ic = takeBits s.ic (byteBits o) ∧
      ∀ j, j < 8 → ∀ b, icDrives (takeBits s.ic ((byteBits o).take (7 - j))) = some b →
        (exchangeByteOp o s).1.getLsbD j = b := by
  rw [← lowBits_eight]
  have g := exchangeBits_takes 8 { s with sst := { s.sst with sho := o, shi := 0, bitcnt := 8 } } (Nat.le_refl 8)
  exact ⟨g.1, fun j hj b hb => g.2.1 j hj b hb⟩

theorem startCondition_ic (s : State) : (startCondition s).ic = s.ic := by
  show (driveSclk false _).ic = _
  rw [driveSclk_ic]; rfl

theorem takeBits_append (ic : Ic) (a b : List Bool) : takeBits ic (a ++ b) = takeBits (takeBits ic a) b := by
  simp [takeBits]

/-- A frame: what the IC takes, and what is received in the last 16 bits where it drives the line. -/
theorem transact_takes (f : FrameWord) (s : State) :
    (transact f s).2.ic = takeBits s.ic (frameBits f) ∧
      ∀ j, j < 16 → ∀ b, icDrives (takeBits s.ic ((frameBits f).take (23 - j))) = some b →
        (transact f s).1.getLsbD j = b := by
  have h0 := exchangeByteOp_takes (f.extractLsb' 16 8) (startCondition s)
  have h1 := exchangeByteOp_takes (f.extractLsb' 8 8) (exchangeByteOp (f.extractLsb' 16 8) (startCondition s)).2
  have h2 := exchangeByteOp_takes (f.extractLsb' 0 8)
    (exchangeByteOp (f.extractLsb' 8 8) (exchangeByteOp (f.extractLsb' 16 8) (startCondition s)).2).2
  rw [h1.1, h0.1, startCondition_ic] at h2
  rw [h0.1, startCondition_ic] at h1
  have l0 := byteBits_length (f.extractLsb' 16 8)
  have l1 := byteBits_length (f.extractLsb' 8 8)
  unfold transact
  dsimp only
  constructor
  · rw [h2.1, frameBits_byteBits, takeBits_append, takeBits_append]
  · intro j hj b hb
    rw [be16_getLsbD]
    rw [frameBits_byteBits] at hb
    by_cases h8 : j < 8
    · rw [if_pos h8]
      apply h2.2 j h8 b
      rw [← hb, ← takeBits_append, ← takeBits_append, List.take_append, List.take_append, l0, l1,
        List.take_of_length_le (l := byteBits (f.extractLsb' 16 8)) (by rw [l0]; omega),
        List.take_of_length_le (l := byteBits (f.extractLsb' 8 8)) (by rw [l1]; omega),
        show 23 - j - 8 - 8 = 7 - j by omega]
    · rw [if_neg h8]
      apply h1.2 (j - 8) (by omega) b
      rw [← hb, ← takeBits_append, List.take_append, List.take_append, l0, l1,
        List.take_of_length_le (l := byteBits (f.extractLsb' 16 8)) (by rw [l0]; omega),
          show 23 - j - 8 - 8 = 0 by omega,
        show 23 - j - 8 = 7 - (j - 8) by omega, List.take_zero, List.append_nil]

/-- `DevIdeal` in the middle of a frame: the bits taken so far stand in its receive register. -/
theorem takeBits_ideal (dev : Vector Half 112) (sh f : FrameWord) (n : Nat) (hn : n < 24) :
    ∃ w : FrameWord, takeBits (.ideal dev sh 0) ((frameBits f).take n) = .ideal dev w n ∧
      ∀ i, i < n → w.getLsbD i = f.getLsbD (24 - n + i) := by
  induction n with
  | zero => exact ⟨sh, rfl, fun i hi => absurd hi (by omega)⟩
  | succ n ih =>
    obtain ⟨w, hw, hb⟩ := ih (by omega)
    have hl : (frameBits f).length = 24 := by simp [frameBits]
    have ht : (frameBits f).take (n + 1) = (frameBits f).take n ++ [f.getLsbD (23 - n)] := by
      rw [List.take_succ_eq_append_getElem (by omega)]; simp [frameBits]
    refine ⟨(w <<< 1) ||| (BitVec.ofBool (f.getLsbD (23 - n))).zeroExtend 24, ?_, ?_⟩
    · rw [ht, takeBits_append, hw]
      simp only [takeBits, List.foldl_cons, List.foldl_nil, icTake]
      rw [if_neg (by omega)]
    · intro i hi
      rcases i with _ | i
      · simp [show 24 - (n + 1) = 23 - n by omega]
      · have h := hb i (by omega)
        rw [show 24 - n + i = 24 - (n + 1) + (i + 1) by omega] at h
        rw [← h, BitVec.getLsbD_or, BitVec.getLsbD_shiftLeft]
        simp [show i + 1 < 24 by omega]

/-- `DevIdeal` after a whole frame: a write frame has set its register, a read frame none (R66). -/
theorem takeBits_frame (dev : Vector Half 112) (sh f : FrameWord) :
    takeBits (.ideal dev sh 0) (frameBits f) =
      .ideal (if f.getLsbD 23 then dev
        else dev.setIfInBounds (f.extractLsb' 16 7).toNat (f.extractLsb' 0 16)) f 0 := by
  obtain ⟨w, hw, hb⟩ := takeBits_ideal dev sh f 23 (by omega)
  have ht : frameBits f = (frameBits f).take 23 ++ [f.getLsbD 0] := by
    have hl : (frameBits f).length = 24 := by simp [frameBits]
    have := List.take_succ_eq_append_getElem (l := frameBits f) (i := 23) (by omega)
    rw [List.take_of_length_le (by omega)] at this
    rw [this]; simp [frameBits]
  have he : (w <<< 1) ||| (BitVec.ofBool (f.getLsbD 0)).zeroExtend 24 = f := by
    apply BitVec.eq_of_getLsbD_eq
    intro i hi
    rcases i with _ | i
    · simp
    · have h := hb i (by omega)
      rw [show 24 - 23 + i = i + 1 by omega] at h
      rw [← h, BitVec.getLsbD_or, BitVec.getLsbD_shiftLeft]
      simp [hi]
  rw [ht, takeBits_append, hw]
  simp only [takeBits, List.foldl_cons, List.foldl_nil, icTake]
  rw [if_pos trivial, he]

/-- `DevIdeal` drives the addressed register's bits in a read frame (R66). -/
theorem icDrives_ideal (dev : Vector Half 112) (sh f : FrameWord) (j : Nat) (hj : j < 16)
    (hr : f.getLsbD 23 = true) (ha : (f.extractLsb' 16 7).toNat ≤ 0x6F) :
    icDrives (takeBits (.ideal dev sh 0) ((frameBits f).take (23 - j))) =
      some ((dev.getD (f.extractLsb' 16 7).toNat 0).getLsbD j) := by
  obtain ⟨w, hw, hb⟩ := takeBits_ideal dev sh f (23 - j) (by omega)
  have hx : (w >>> (23 - j - 8)).extractLsb' 0 8 = f.extractLsb' 16 8 := by
    apply BitVec.eq_of_getLsbD_eq
    intro i hi
    have h := hb (23 - j - 8 + i) (by omega)
    rw [show 24 - (23 - j) + (23 - j - 8 + i) = 16 + i by omega] at h
    rw [BitVec.getLsbD_extractLsb', BitVec.getLsbD_extractLsb', ← h, BitVec.getLsbD_ushiftRight]
    simp [hi]
  have h7 : (f.extractLsb' 16 8).extractLsb' 0 7 = f.extractLsb' 16 7 := by
    apply BitVec.eq_of_getLsbD_eq
    intro i hi
    simp [hi, show i < 8 by omega]
  rw [hw]
  unfold icDrives
  simp only [hx, h7]
  rw [if_pos (by omega), if_pos ⟨by simpa using hr, ha⟩, show 23 - (23 - j) = j by omega]

theorem writeFrameOf_fields (addr : Byte) (data : Half) (ha : addr.toNat ≤ 0x6F) :
    (writeFrameOf addr data).getLsbD 23 = false ∧ ((writeFrameOf addr data).extractLsb' 16 7).toNat = addr.toNat ∧
      (writeFrameOf addr data).extractLsb' 0 16 = data := by
  have hb : ∀ a : Byte, a.toNat ≤ 0x6F → a.getLsbD 7 = false ∧ (a.extractLsb' 0 7).toNat = a.toNat := by decide +kernel
  have h7 : (writeFrameOf addr data).extractLsb' 16 7 = addr.extractLsb' 0 7 := by
    apply BitVec.eq_of_getLsbD_eq
    intro i hi
    rw [BitVec.getLsbD_extractLsb', writeFrameOf, frameOf_getLsbD, if_neg (by omega), if_neg (by omega)]
    simp
  refine ⟨?_, by rw [h7, (hb addr ha).2], ?_⟩
  · rw [writeFrameOf, frameOf_getLsbD, if_neg (by omega), if_neg (by omega)]; exact (hb addr ha).1
  · rw [writeFrameOf_eq]; exact BitVec.extractLsb'_append_eq_right

theorem readFrameOf_fields (addr dummy : Byte) (ha : addr.toNat ≤ 0x6F) :
    (readFrameOf addr dummy).getLsbD 23 = true ∧
      ((readFrameOf addr dummy).extractLsb' 16 7).toNat = addr.toNat := by
  have hb : ∀ a : Byte, a.toNat ≤ 0x6F →
      (readAddress a).getLsbD 7 = true ∧ ((readAddress a).extractLsb' 0 7).toNat = a.toNat := by decide +kernel
  have h7 : (readFrameOf addr dummy).extractLsb' 16 7 = (readAddress addr).extractLsb' 0 7 := by
    apply BitVec.eq_of_getLsbD_eq
    intro i hi
    rw [BitVec.getLsbD_extractLsb', readFrameOf, frameOf_getLsbD, if_neg (by omega), if_neg (by omega)]
    simp
  refine ⟨?_, by rw [h7, (hb addr ha).2]⟩
  rw [readFrameOf, frameOf_getLsbD, if_neg (by omega), if_neg (by omega)]; exact (hb addr ha).1

/-- A write transaction sets the addressed register of `DevIdeal` (R66). -/
theorem writeRegister_ideal {s : State} {dev : Vector Half 112} {sh : FrameWord} (hi : s.ic = .ideal dev sh 0)
    (addr : Byte) (data : Half) (ha : addr.toNat ≤ 0x6F) :
    (writeRegister addr data s).ic =
      .ideal (dev.setIfInBounds addr.toNat data) (writeFrameOf addr data) 0 := by
  have f := writeFrameOf_fields addr data ha
  unfold writeRegister
  rw [(transact_takes _ s).1, hi, takeBits_frame, f.1, f.2.1, f.2.2]
  simp

/-- A read transaction returns the addressed register of `DevIdeal` and changes none (R66). -/
theorem readRegister_ideal {s : State} {dev : Vector Half 112} {sh : FrameWord} (hi : s.ic = .ideal dev sh 0)
    (addr : Byte) (ha : addr.toNat ≤ 0x6F) :
    (readRegister addr s).1 = dev.getD addr.toNat 0 ∧
      (readRegister addr s).2.ic = .ideal dev (readFrameOf addr s.board.dummyByte) 0 := by
  have f := readFrameOf_fields addr s.board.dummyByte ha
  unfold readRegister
  have t := transact_takes (readFrameOf addr s.board.dummyByte) s
  constructor
  · apply BitVec.eq_of_getLsbD_eq
    intro j hj
    apply t.2 j hj
    rw [hi, icDrives_ideal dev sh _ j hj f.1 (by rw [f.2]; exact ha), f.2]
  · rw [t.1, hi, takeBits_frame, f.1]
    simp

/-- A read-block returns the registers of `DevIdeal` (R158, R66). -/
theorem readRange_ideal (n : Nat) (addr : Byte) (s : State) (dev : Vector Half 112) (sh : FrameWord)
    (hi : s.ic = .ideal dev sh 0) (ha : addr.toNat + n ≤ 112) :
    (readRange n addr s).1 = (List.range' addr.toNat n).map (fun a => dev.getD a 0) ∧
      ∃ w, (readRange n addr s).2.ic = .ideal dev w 0 := by
  induction n generalizing addr s sh with
  | zero => exact ⟨rfl, sh, hi⟩
  | succ n ih =>
    have h := readRegister_ideal hi addr (by omega)
    have hn : (addr + 1).toNat = addr.toNat + 1 ∨ n = 0 := by
      rcases Nat.eq_zero_or_pos n with h | h
      · exact .inr h
      · left; rw [BitVec.toNat_add, Nat.mod_eq_of_lt (by simp; omega)]; rfl
    simp only [readRange]
    rcases hn with hn | hn
    · have g := ih (addr + 1) (addChecksum (readRegister addr s).1 (readRegister addr s).2) _
        (by rw [addChecksum_ic, h.2]) (by omega)
      rw [hn] at g
      exact ⟨by rw [g.1, h.1, List.range'_succ]; rfl, g.2⟩
    · subst hn
      exact ⟨by rw [h.1]; rfl, _, by rw [readRange, addChecksum_ic, h.2]⟩

/-- A block write sets the registers of `DevIdeal` in its range from `BUF` and leaves the others (R157, R66). -/
theorem writeRange_ideal (n : Nat) (addr : Byte) (k : Nat) (s : State) (dev : Vector Half 112) (sh : FrameWord)
    (hi : s.ic = .ideal dev sh 0) (ha : addr.toNat + n ≤ 112) :
    ∃ dev' w, (writeRange n addr k s).ic = .ideal dev' w 0 ∧
      (∀ j, j < n → dev'.getD (addr.toNat + j) 0 = bufAt s.sst.buf (k + j)) ∧
      ∀ a, (a < addr.toNat ∨ addr.toNat + n ≤ a) → dev'.getD a 0 = dev.getD a 0 := by
  induction n generalizing addr k s sh dev with
  | zero => exact ⟨dev, sh, hi, fun j hj => absurd hj (by omega), fun _ _ => rfl⟩
  | succ n ih =>
    have h := writeRegister_ideal hi addr (bufAt s.sst.buf k) (by omega)
    have hb := (writeRegister_spec addr (bufAt s.sst.buf k) s).1.buf
    have hset : ∀ a, (dev.setIfInBounds addr.toNat (bufAt s.sst.buf k)).getD a 0 =
        if addr.toNat = a then bufAt s.sst.buf k else dev.getD a 0 := by
      intro a
      have h112 : addr.toNat < 112 := by omega
      by_cases hx : addr.toNat = a
      · subst hx; simp [Vector.getD, h112]
      · simp [Vector.getD, hx, Array.getD_eq_getD_getElem?]
    rcases Nat.eq_zero_or_pos n with hz | hz
    · subst hz
      refine ⟨_, _, by rw [writeRange, writeRange, addChecksum_ic, h], fun j hj => ?_, fun a hx => ?_⟩
      · obtain rfl : j = 0 := by omega
        rw [hset, if_pos (by omega)]; rfl
      · rw [hset, if_neg (by omega)]
    · have hn : (addr + 1).toNat = addr.toNat + 1 := by
        rw [BitVec.toNat_add, Nat.mod_eq_of_lt (by simp; omega)]; rfl
      obtain ⟨dev', w, g1, g2, g3⟩ := ih (addr + 1) (k + 1)
        (addChecksum (bufAt s.sst.buf k) (writeRegister addr (bufAt s.sst.buf k) s)) _ _
        (by rw [addChecksum_ic, h]) (by omega)
      refine ⟨dev', w, g1, fun j hj => ?_, fun a hx => ?_⟩
      · rcases j with _ | j
        · rw [Nat.add_zero, g3 _ (by omega), hset, if_pos rfl]; rfl
        · have := g2 j (by omega)
          rw [hn, show addr.toNat + 1 + j = addr.toNat + (j + 1) by omega] at this
          rw [this, show k + (j + 1) = k + 1 + j by omega, addChecksum_sst]
          dsimp only
          rw [hb]
      · rw [g3 a (by omega), hset, if_neg (by omega)]

end Sys2Proof.Machine
end

