-- ==== Sys2Proof/Laws/Encoding.lean ====
section
/-! SUPPORT. The fields of a command word come apart as they were put together (R91). -/

namespace Sys2Proof

theorem mkCw_getLsbD (o : Byte) (a : BitVec 32) (b : BitVec 16) (i : Nat) :
    (mkCw o a b).getLsbD i =
      if i < 16 then b.getLsbD i else if i < 48 then a.getLsbD (i - 16) else o.getLsbD (i - 48) := by
  have h1 : (mkCw o a b).getLsbD i = if i < 16 then b.getLsbD i else ((o ++ a : BitVec 40)).getLsbD (i - 16) :=
    BitVec.getLsbD_append.trans (by cases decide (i < 16) <;> rfl)
  have h2 : ((o ++ a : BitVec 40)).getLsbD (i - 16) =
      if i - 16 < 32 then a.getLsbD (i - 16) else o.getLsbD (i - 16 - 32) :=
    BitVec.getLsbD_append.trans (by cases decide (i - 16 < 32) <;> rfl)
  rw [h1, h2, Nat.sub_sub]
  by_cases h16 : i < 16
  · rw [if_pos h16, if_pos h16]
  · rw [if_neg h16, if_neg h16]
    by_cases h48 : i < 48
    · rw [if_pos h48, if_pos (by omega)]
    · rw [if_neg h48, if_neg (by omega)]

@[simp] theorem cwOp_mkCw (o : Byte) (a : BitVec 32) (b : BitVec 16) : cwOp (mkCw o a b) = o := by
  apply BitVec.eq_of_getLsbD_eq
  intro i hi
  rw [cwOp, BitVec.getLsbD_extractLsb', mkCw_getLsbD, if_neg (by omega), if_neg (by omega)]
  simp [hi]

@[simp] theorem cwA_mkCw (o : Byte) (a : BitVec 32) (b : BitVec 16) : cwA (mkCw o a b) = a := by
  apply BitVec.eq_of_getLsbD_eq
  intro i hi
  rw [cwA, BitVec.getLsbD_extractLsb', mkCw_getLsbD, if_neg (by omega), if_pos (by omega)]
  simp [hi]

@[simp] theorem cwB_mkCw (o : Byte) (a : BitVec 32) (b : BitVec 16) : cwB (mkCw o a b) = b := by
  apply BitVec.eq_of_getLsbD_eq
  intro i hi
  rw [cwB, BitVec.getLsbD_extractLsb', mkCw_getLsbD, if_pos (by omega)]
  simp [hi]

/-- A command word made of an operation byte the map assigns decodes to its operation (R94). -/
theorem decodeCw_mkCw {o : Byte} {a : BitVec 32} {b : BitVec 16} {i : Instr} (h : decodeOp o a b = some i) :
    decodeCw (mkCw o a b) = .ok i := by
  unfold decodeCw
  simp [h]

end Sys2Proof
end

