-- ==== Sys2Proof/Laws/Exec.lean ====
section
/-! SUPPORT. What an operation that completes has done: the guards that held, and its next state, one lemma for all
operations and one for the step. -/

namespace Sys2Proof.Machine

/-- What completing means for each operation: the guards that held and the next state. -/
def Completes (s t : State) : Instr → Prop
  | .snapshot =>
    (s.irq.inIsr = true ∧ t = giveInner s.tick s) ∨
      (s.irq.inIsr = false ∧ t = finish s.tick (critical (fun u => u) s))
  | .computeDeadline d =>
    s.irq.inIsr = false ∧
      t = finish (s.tick + BitVec.ofNat 32 (ticksOf d.toNat)) (critical (fun u => u) s)
  | .isExpired x =>
    s.irq.inIsr = false ∧
      t = finish ((BitVec.ofBool (reached s.tick x)).zeroExtend 32) (critical (fun u => u) s)
  | .blockUntil x =>
    s.irq.inIsr = false ∧
      ((reached s.tick x = true ∧ t = finish 0 (critical (fun u => u) s)) ∨
        (reached s.tick x = false ∧ t = keepWaiting (critical (fun u => u) s)))
  | .formatElapsed =>
    s.irq.inIsr = false ∧
      ∃ (n : BitVec 32) (str : List Byte) (u : State),
        (u = critical (fun u => u) s ∨ u = drawn (critical (fun u => u) s)) ∧
          t = { finish n u with port := { (finish n u).port with str := str } }
  | .writeTransaction addr data =>
    s.irq.inIsr = false ∧ addr.toNat ≤ Config.devAddrMax ∧ s.sst.busy = false ∧ s.sst.sclk = true ∧
      t = finish 0 (writeRegister addr data s)
  | .readTransaction addr =>
    s.irq.inIsr = false ∧ addr.toNat ≤ Config.devAddrMax ∧ s.sst.busy = false ∧ s.sst.sclk = true ∧
      t = finish ((readRegister addr s).1.zeroExtend 32) (readRegister addr s).2
  | .writeBlock first last =>
    s.irq.inIsr = false ∧ last.toNat ≤ Config.devAddrMax ∧ s.sst.busy = false ∧
      (first.toNat ≤ last.toNat → s.sst.sclk = true) ∧
      t = finish ((writeBlockOp first last s).sst.cksum.zeroExtend 32) (writeBlockOp first last s)
  | .readBlock first last =>
    s.irq.inIsr = false ∧ last.toNat ≤ Config.devAddrMax ∧ s.sst.busy = false ∧
      (first.toNat ≤ last.toNat → s.sst.sclk = true) ∧
      t = finish ((readBlockOp first last s).sst.cksum.zeroExtend 32) (readBlockOp first last s)
  | .registerButton loc mask id =>
    s.irq.inIsr = false ∧ hasRoom s.nbtn s.board.maxButtonsPred = true ∧
      t = finish 0 (critical (appendButton loc mask id) s)
  | .pollEvent => s.irq.inIsr = false ∧ t = finish (pollResult s.evq) (critical popEvent s)
  | .calLoad =>
    s.irq.inIsr = false ∧ s.sst.busy = false ∧
      ((validRecord s.board.crc (recordOf (nvmImage s)) = true ∧
          t = finish 0 (markLoaded (setWork (recordOf (nvmImage s)) s))) ∨
        (validRecord s.board.crc (recordOf (nvmImage s)) = false ∧ s.sst.sclk = true ∧
          t = finish 0 (markLoaded (defaultRecord (setWork (recordOf (nvmImage s)) s)))))
  | .calReadField offset =>
    s.irq.inIsr = false ∧ s.cal.loaded = true ∧ offset.toNat ≤ Config.offsetMax ∧
      t = finish ((getField s.cal.work offset.toNat).zeroExtend 32) s
  | .calUpdateField offset value =>
    s.irq.inIsr = false ∧ s.cal.loaded = true ∧ offset.toNat ≤ Config.offsetMax ∧
      t = finish 0 (sealAndStore (setWork (setField s.cal.work offset.toNat value) s))
  | .calPersist => s.irq.inIsr = false ∧ s.cal.loaded = true ∧ t = finish 0 (sealAndStore s)
  | .startCond =>
    s.irq.inIsr = false ∧ s.sst.busy = false ∧ s.sst.sclk = true ∧ t = startCondition s
  | .exchangeBit o =>
    s.irq.inIsr = false ∧
      t = giveInner ((BitVec.ofBool (exchangeBitOp o s).1).zeroExtend 32) (exchangeBitOp o s).2
  | .exchangeByte o =>
    s.irq.inIsr = false ∧ t = giveInner ((exchangeByteOp o s).1.zeroExtend 32) (exchangeByteOp o s).2
  | .push ev => s.irq.inIsr = true ∧ t = pushEvent ev s
  | .crc16 n =>
    s.irq.inIsr = false ∧
      t = giveInner ((crcOfWork n s).zeroExtend 32) (if n.toNat ≤ Config.recBytes then s else drawn s)
  | .advance => s.irq.inIsr = true ∧ t = advanceTick s
  | .service => s.irq.inIsr = true ∧ t = serviceStep s
  | .frameWrite addr data =>
    s.irq.inIsr = false ∧ addr.toNat ≤ Config.devAddrMax ∧ s.sst.busy = false ∧ s.sst.sclk = true ∧
      t = (transact (0b0#1 ++ addr ++ data) s).2
  | .frameRead addr dummy =>
    s.irq.inIsr = false ∧ addr.toNat ≤ Config.devAddrMax ∧ s.sst.busy = false ∧ s.sst.sclk = true ∧
      t = giveInner ((transact (0b1#1 ++ addr ++ dummy) s).1.zeroExtend 32)
        (transact (0b1#1 ++ addr ++ dummy) s).2

theorem foregroundOnly_next {s t : State} {k : Host.Outcome State Fault Refusal}
    (h : foregroundOnly s k = .next t) : s.irq.inIsr = false ∧ k = .next t := by
  unfold foregroundOnly at h
  split at h
  · cases h
  · exact ⟨by simp_all, h⟩

theorem interruptOnly_next {s t : State} {k : Host.Outcome State Fault Refusal}
    (h : interruptOnly s k = .next t) : s.irq.inIsr = true ∧ k = .next t := by
  unfold interruptOnly at h
  split at h
  · exact ⟨‹_›, h⟩
  · cases h

theorem linkRefusal_none {s : State} (h : linkRefusal s = none) : s.sst.busy = false ∧ s.sst.sclk = true := by
  unfold linkRefusal at h
  split at h
  · cases h
  · split at h
    · exact ⟨by simp_all, ‹_›⟩
    · cases h

theorem onIdleLink_next {a : Nat} {s t : State} {k : Host.Outcome State Fault Refusal}
    (h : onIdleLink a s k = .next t) :
    s.irq.inIsr = false ∧ a ≤ Config.devAddrMax ∧ s.sst.busy = false ∧ s.sst.sclk = true ∧ k = .next t := by
  obtain ⟨h1, h⟩ := foregroundOnly_next h
  split at h
  · split at h
    · rename_i hl
      exact ⟨h1, ‹_›, (linkRefusal_none hl).1, (linkRefusal_none hl).2, h⟩
    · cases h
  · cases h

theorem onBlockLink_next {first last : Byte} {s t : State} {k : Host.Outcome State Fault Refusal}
    (h : onBlockLink first last s k = .next t) :
    s.irq.inIsr = false ∧ last.toNat ≤ Config.devAddrMax ∧ s.sst.busy = false ∧
      (first.toNat ≤ last.toNat → s.sst.sclk = true) ∧ k = .next t := by
  obtain ⟨h1, h⟩ := foregroundOnly_next h
  split at h
  · split at h
    · cases h
    · split at h
      · cases h
      · refine ⟨h1, ‹_›, by simp_all, fun hr => ?_, h⟩
        rename_i hn
        cases hc : s.sst.sclk
        · exact absurd ⟨hr, hc⟩ hn
        · rfl
  · cases h

theorem onStoreField_next {offset : Byte} {s t : State} {k : Host.Outcome State Fault Refusal}
    (h : onStoreField offset s k = .next t) :
    s.irq.inIsr = false ∧ s.cal.loaded = true ∧ offset.toNat ≤ Config.offsetMax ∧ k = .next t := by
  obtain ⟨h1, h⟩ := foregroundOnly_next h
  split at h
  · split at h
    · exact ⟨h1, ‹_›, ‹_›, h⟩
    · cases h
  · cases h

/-- An operation that completes has done what `Completes` says. -/
theorem exec_next {i : Instr} {s t : State} (h : exec i s = .next t) : Completes s t i := by
  cases i with
  | snapshot =>
    simp only [exec, execSnapshot] at h
    split at h <;> cases h
    · exact .inl ⟨‹_›, rfl⟩
    · exact .inr ⟨by simp_all, rfl⟩
  | computeDeadline d => obtain ⟨h1, h⟩ := foregroundOnly_next h; exact ⟨h1, (Host.Outcome.next.inj h).symm⟩
  | isExpired x => obtain ⟨h1, h⟩ := foregroundOnly_next h; exact ⟨h1, (Host.Outcome.next.inj h).symm⟩
  | blockUntil x =>
    obtain ⟨h1, h⟩ := foregroundOnly_next h
    by_cases hr : reached s.tick x = true
    · have h := (if_pos hr).symm.trans h; exact ⟨h1, .inl ⟨hr, (Host.Outcome.next.inj h).symm⟩⟩
    · have h := (if_neg hr).symm.trans h; cases h; exact ⟨h1, .inr ⟨Bool.eq_false_iff.mpr hr, rfl⟩⟩
  | formatElapsed =>
    obtain ⟨h1, h⟩ := foregroundOnly_next h
    by_cases hr : s.tick.toNat < Config.horizonTicks
    · have h := (if_pos hr).symm.trans h; cases h; exact ⟨h1, _, _, _, .inl rfl, rfl⟩
    · have h := (if_neg hr).symm.trans h; cases h; exact ⟨h1, _, _, _, .inr rfl, rfl⟩
  | writeTransaction addr data =>
    obtain ⟨h1, h2, h3, h4, h⟩ := onIdleLink_next h; exact ⟨h1, h2, h3, h4, (Host.Outcome.next.inj h).symm⟩
  | readTransaction addr =>
    obtain ⟨h1, h2, h3, h4, h⟩ := onIdleLink_next h; exact ⟨h1, h2, h3, h4, (Host.Outcome.next.inj h).symm⟩
  | writeBlock first last =>
    obtain ⟨h1, h2, h3, h4, h⟩ := onBlockLink_next h; exact ⟨h1, h2, h3, h4, (Host.Outcome.next.inj h).symm⟩
  | readBlock first last =>
    obtain ⟨h1, h2, h3, h4, h⟩ := onBlockLink_next h; exact ⟨h1, h2, h3, h4, (Host.Outcome.next.inj h).symm⟩
  | registerButton loc mask id =>
    obtain ⟨h1, h⟩ := foregroundOnly_next h
    split at h
    · cases h; exact ⟨h1, ‹_›, rfl⟩
    · cases h
  | pollEvent => obtain ⟨h1, h⟩ := foregroundOnly_next h; exact ⟨h1, (Host.Outcome.next.inj h).symm⟩
  | calLoad =>
    obtain ⟨h1, h⟩ := foregroundOnly_next h
    split at h
    · cases h
    · rename_i hb
      dsimp only at h
      split at h
      · exact ⟨h1, by simpa using hb, .inl ⟨‹_›, (Host.Outcome.next.inj h).symm⟩⟩
      · rename_i hv
        split at h
        · exact ⟨h1, by simpa using hb, .inr ⟨Bool.eq_false_iff.mpr hv, ‹_›, (Host.Outcome.next.inj h).symm⟩⟩
        · cases h
  | calReadField offset =>
    obtain ⟨h1, h2, h3, h⟩ := onStoreField_next h; cases h; exact ⟨h1, h2, h3, rfl⟩
  | calUpdateField offset value =>
    obtain ⟨h1, h2, h3, h⟩ := onStoreField_next h; cases h; exact ⟨h1, h2, h3, rfl⟩
  | calPersist =>
    obtain ⟨h1, h⟩ := foregroundOnly_next h
    split at h
    · cases h; exact ⟨h1, ‹_›, rfl⟩
    · cases h
  | startCond =>
    obtain ⟨h1, h⟩ := foregroundOnly_next h
    split at h
    · rename_i hl
      cases h; exact ⟨h1, (linkRefusal_none hl).1, (linkRefusal_none hl).2, rfl⟩
    · cases h
  | exchangeBit o => obtain ⟨h1, h⟩ := foregroundOnly_next h; exact ⟨h1, (Host.Outcome.next.inj h).symm⟩
  | exchangeByte o => obtain ⟨h1, h⟩ := foregroundOnly_next h; exact ⟨h1, (Host.Outcome.next.inj h).symm⟩
  | push ev => obtain ⟨h1, h⟩ := interruptOnly_next h; exact ⟨h1, (Host.Outcome.next.inj h).symm⟩
  | crc16 n => obtain ⟨h1, h⟩ := foregroundOnly_next h; exact ⟨h1, (Host.Outcome.next.inj h).symm⟩
  | advance => obtain ⟨h1, h⟩ := interruptOnly_next h; exact ⟨h1, (Host.Outcome.next.inj h).symm⟩
  | service => obtain ⟨h1, h⟩ := interruptOnly_next h; exact ⟨h1, (Host.Outcome.next.inj h).symm⟩
  | frameWrite addr data =>
    obtain ⟨h1, h2, h3, h4, h⟩ := onIdleLink_next h; exact ⟨h1, h2, h3, h4, (Host.Outcome.next.inj h).symm⟩
  | frameRead addr dummy =>
    obtain ⟨h1, h2, h3, h4, h⟩ := onIdleLink_next h; exact ⟨h1, h2, h3, h4, (Host.Outcome.next.inj h).symm⟩

end Sys2Proof.Machine
end

