-- ==== Sys2Proof/Laws/Step.lean ====
section
/-! SUPPORT. What a step that completes has done: an operation performed, or one of the moves of the interrupt logic
and the outside. -/

namespace Sys2Proof.Machine

/-- The effect of an input taken from outside, and where the inbox lists it (R248, R97, R33, R270, R82). -/
inductive InputMove (s : State) : State → Prop where
  /-- The timer's own tick event, with nothing listed (log 3). -/
  | timer (hi : s.env.inbox = []) (hp : s.irq.pending = false) : InputMove s (tickArrives (drawIteration s))
  | tick (rest : List Input) (hi : s.env.inbox = .tick :: rest) (hp : s.irq.pending = false) :
    InputMove s (tickArrives (consume s))
  | midTick (rest : List Input) (hi : s.env.inbox = .tickInSection :: rest) (hm : s.env.midTick = false) :
    InputMove s (consume { s with env := { s.env with midTick := true } })
  | iterate (rest : List Input) (hi : s.env.inbox = .iterate :: rest) : InputMove s (consume (resumeLoop s))
  | command (cw : CommandWord) (rest : List Input) (hi : s.env.inbox = .command cw :: rest)
      (hr : s.port.request = none) :
    InputMove s (consume { s with port := { s.port with request := some (.host cw), done := false } })
  | bufWrite (k : Nat) (v : Half) (rest : List Input) (hi : s.env.inbox = .bufWrite k v :: rest)
      (hr : s.port.request = none) (hk : k < 112) :
    InputMove s (consume { s with sst := { s.sst with buf := s.sst.buf.setIfInBounds k v } })
  | reset (rest : List Input) (hi : s.env.inbox = .reset :: rest ∨
      s.port.request.isSome = true ∧ ∃ image, s.env.inbox = .powerLoss image :: rest) :
    InputMove s (resetBlock (consume s))
  | powerLoss (image : Vector Byte 46) (rest : List Input) (hi : s.env.inbox = .powerLoss image :: rest)
      (hr : s.port.request = none) : InputMove s (powerLost image (consume s))

theorem takeTick_moved {s u : State} (h : takeTick s = .moved u) : s.irq.pending = false ∧ u = tickArrives s := by
  unfold takeTick at h
  split at h
  · cases h
  · exact ⟨by simp_all, (Action.moved.inj h).symm⟩

theorem takeHost_moved {s u : State} {k : Action} (h : takeHost s k = .moved u) :
    s.port.request = none ∧ k = .moved u := by
  unfold takeHost at h
  split at h
  · cases h
  · exact ⟨by simp_all, h⟩

theorem takeInput_moved {s t : State} (h : takeInput s = .moved t) : InputMove s t := by
  unfold takeInput at h
  split at h
  · rename_i hi; obtain ⟨hp, rfl⟩ := takeTick_moved h; exact .timer hi (by simpa using hp)
  · rename_i hi; obtain ⟨hp, rfl⟩ := takeTick_moved h; exact .tick _ hi hp
  · split at h
    · cases h
    · rename_i hi hm; cases h; exact .midTick _ hi (by simpa using hm)
  · rename_i hi; cases h; exact .iterate _ hi
  · rename_i hi; obtain ⟨hr, h⟩ := takeHost_moved h; cases h; exact .command _ _ hi hr
  · rename_i hi
    obtain ⟨hr, h⟩ := takeHost_moved h
    split at h
    · cases h; exact .bufWrite _ _ _ hi hr ‹_›
    · cases h
  · rename_i hi; cases h; exact .reset _ (.inl hi)
  · rename_i hi
    split at h
    · cases h; exact .reset _ (.inr ⟨‹_›, _, hi⟩)
    · cases h; exact .powerLoss _ _ hi (by simp_all)

/-- The moves of a step that performs no operation. -/
inductive Moves (s : State) : State → Prop where
  | leave (hi : s.irq.inIsr = true) (ho : s.irq.op = none) : Moves s (leaveIsr s)
  | entry (hi : s.irq.inIsr = false) (hp : s.irq.pending = true) (hm : s.irq.masked = false) :
    Moves s (enterIsr s)
  | idle (t : State) (hi : s.irq.inIsr = false) (hr : s.port.request = none) (ht : InputMove s t) : Moves s t
  | waiting (t : State) (hi : s.irq.inIsr = false) (hw : s.port.spinning = true)
      (hr : s.port.request.isSome = true) (ht : InputMove s t) : Moves s t

/-- Where the operation a step performs stands (R92, R97, R247; log 1). -/
inductive Fetched (s : State) (i : Instr) : Prop where
  | handler (cw : CommandWord) (hi : s.irq.inIsr = true) (ho : s.irq.op = some cw) (hd : decodeCw cw = .ok i)
  | host (cw : CommandWord) (hi : s.irq.inIsr = false) (hw : s.port.spinning = false)
      (hr : s.port.request = some (.host cw)) (hd : decodeCw cw = .ok i) (hc : i.opClass = .foreground)
  | inner (cw : CommandWord) (hi : s.irq.inIsr = false) (hw : s.port.spinning = false)
      (hr : s.port.request = some (.inner cw)) (hd : decodeCw cw = .ok i) (hc : i.opClass = .internal)
  | frame (f : FrameWord) (hi : s.irq.inIsr = false) (hw : s.port.spinning = false)
      (hr : s.port.request = some (.frame f)) (hd : decodeFrame f = i)

theorem fetchWord_perform {cw : CommandWord} {c : OpClass} {i : Instr} (h : fetchWord cw c = .perform i) :
    decodeCw cw = .ok i ∧ i.opClass = c := by
  unfold fetchWord at h
  split at h
  · split at h
    · cases h; exact ⟨‹_›, ‹_›⟩
    · cases h
  · cases h

theorem takeInput_perform {s : State} {i : Instr} : takeInput s ≠ .perform i := by
  unfold takeInput takeTick takeHost
  intro h
  split at h <;> (try split at h) <;> (try split at h) <;> cases h

theorem nextAction_perform {s : State} {i : Instr} (h : nextAction s = .perform i) : Fetched s i := by
  unfold nextAction at h
  split at h
  · split at h
    · unfold fetchHandler at h
      split at h
      · cases h; exact .handler _ ‹_› ‹_› ‹_›
      · cases h
    · cases h
  · rename_i hi
    split at h
    · cases h
    · split at h
      · exact absurd h takeInput_perform
      · rename_i r hr
        split at h
        · exact absurd h takeInput_perform
        · rename_i hw
          simp only [Bool.not_eq_true] at hi hw
          cases r with
          | host cw => obtain ⟨hd, hc⟩ := fetchWord_perform h; exact .host cw hi hw hr hd hc
          | inner cw => obtain ⟨hd, hc⟩ := fetchWord_perform h; exact .inner cw hi hw hr hd hc
          | frame f => cases h; exact .frame f hi hw hr rfl

/-- A step that completes: an operation whose meaning answers a next state, or a move. -/
theorem step_next {s t : State} (h : step s = .next t) :
    (∃ i u, nextAction s = .perform i ∧ exec i s = .next u ∧ t = afterOperation i u) ∨ Moves s t := by
  unfold step at h
  split at h
  · rename_i i hn
    split at h
    · rename_i u he
      exact .inl ⟨i, u, hn, he, (Host.Outcome.next.inj h).symm⟩
    · cases h
    · cases h
  · rename_i u hn
    obtain rfl := Host.Outcome.next.inj h
    right
    unfold nextAction at hn
    split at hn
    · split at hn
      · rename_i cw ho
        unfold fetchHandler at hn
        split at hn <;> cases hn
      · cases hn; exact .leave ‹_› ‹_›
    · rename_i hi
      split at hn
      · rename_i hp
        cases hn
        simp only [Bool.and_eq_true, Bool.not_eq_true'] at hp
        exact .entry (by simp_all) hp.1 hp.2
      · split at hn
        · rename_i hr
          exact .idle _ (by simp_all) hr (takeInput_moved hn)
        · rename_i r hr
          split at hn
          · exact .waiting _ (by simp_all) ‹_› (by simp [hr]) (takeInput_moved hn)
          · unfold fetchRequest fetchWord at hn
            split at hn
            · split at hn
              · split at hn <;> cases hn
              · cases hn
            · split at hn
              · split at hn <;> cases hn
              · cases hn
            · cases hn
  · cases h
  · cases h

end Sys2Proof.Machine
end

