-- ==== Sys2Proof/Laws/Memory.lean ====
section
/-! SUPPORT. The byte memory: a read after a write, and the canonical form that every operation keeps. -/

namespace Sys2Proof.Machine

/-- Every cell of `m` lies above `x`. -/
def Above (x : Nat) (m : Memory) : Prop := ∀ c ∈ m, x < c.1

theorem memRead_of_above {x : Nat} {m : Memory} (h : Above x m) : memRead m x = Config.freshByte := by
  induction m with
  | nil => rfl
  | cons c rest ih =>
    obtain ⟨a, b⟩ := c
    have ha : x < a := h (a, b) (by simp)
    have hr : Above x rest := fun d hd => h d (by simp [hd])
    rw [memRead, if_neg (by omega), ih hr]

theorem memWrite_above {x y : Nat} {m : Memory} {v : Byte} (h : Above x m) (hxy : x < y) :
    Above x (memWrite m y v) := by
  induction m with
  | nil =>
    intro c hc
    unfold memWrite at hc
    split at hc
    · simp at hc
    · simp at hc; subst hc; exact hxy
  | cons c rest ih =>
    obtain ⟨a, b⟩ := c
    have ha : x < a := h (a, b) (by simp)
    have hr : Above x rest := fun d hd => h d (by simp [hd])
    intro d hd
    unfold memWrite at hd
    split at hd
    · split at hd
      · exact h d hd
      · rcases List.mem_cons.mp hd with rfl | hd
        · exact hxy
        · exact h d hd
    · split at hd
      · split at hd
        · exact hr d hd
        · rcases List.mem_cons.mp hd with rfl | hd
          · exact hxy
          · exact hr d hd
      · rcases List.mem_cons.mp hd with rfl | hd
        · exact ha
        · exact ih hr d hd

theorem Memory.wf_cons_iff {a : Nat} {b : Byte} {rest : Memory} :
    Memory.wf ((a, b) :: rest) ↔ Above a rest ∧ b ≠ Config.freshByte ∧ Memory.wf rest := by
  simp only [Memory.wf, List.pairwise_cons, List.mem_cons, forall_eq_or_imp, Above]
  tauto

/-- A write keeps the canonical form. -/
theorem memWrite_wf {m : Memory} (x : Nat) (v : Byte) (h : Memory.wf m) : Memory.wf (memWrite m x v) := by
  induction m with
  | nil =>
    unfold memWrite
    split
    · exact h
    · rw [Memory.wf_cons_iff]; exact ⟨by simp [Above], ‹_›, h⟩
  | cons c rest ih =>
    obtain ⟨a, b⟩ := c
    have h' := Memory.wf_cons_iff.mp h
    unfold memWrite
    split
    · split
      · exact h
      · rw [Memory.wf_cons_iff]
        refine ⟨?_, ‹_›, h⟩
        intro d hd
        rcases List.mem_cons.mp hd with rfl | hd
        · assumption
        · exact Nat.lt_trans ‹_› (h'.1 d hd)
    · split
      · split
        · exact h'.2.2
        · subst x; rw [Memory.wf_cons_iff]; exact ⟨h'.1, ‹_›, h'.2.2⟩
      · rw [Memory.wf_cons_iff]
        exact ⟨memWrite_above h'.1 (by omega), h'.2.1, ih h'.2.2⟩

/-- Reading after a write: the byte written there, every other byte as before. -/
theorem memRead_memWrite {m : Memory} (h : Memory.wf m) (x y : Nat) (v : Byte) :
    memRead (memWrite m x v) y = if x = y then v else memRead m y := by
  induction m with
  | nil =>
    unfold memWrite
    split <;> simp_all [memRead]
  | cons c rest ih =>
    obtain ⟨a, b⟩ := c
    have h' := Memory.wf_cons_iff.mp h
    unfold memWrite
    by_cases hxa : x < a
    · have hab : Above x ((a, b) :: rest) := by
        intro d hd
        rcases List.mem_cons.mp hd with rfl | hd
        · exact hxa
        · exact Nat.lt_trans hxa (h'.1 d hd)
      rw [if_pos hxa]
      split
      · rename_i hv
        by_cases hxy : x = y
        · subst hxy; rw [if_pos rfl, memRead_of_above hab, hv]
        · rw [if_neg hxy]
      · conv => lhs; unfold memRead
    · rw [if_neg hxa]
      by_cases hxe : x = a
      · subst hxe
        rw [if_pos rfl]
        split
        · rename_i hv
          by_cases hxy : x = y
          · subst hxy; rw [if_pos rfl, memRead_of_above h'.1, hv]
          · rw [if_neg hxy]; conv => rhs; unfold memRead
            rw [if_neg hxy]
        · conv => lhs; unfold memRead
          by_cases hxy : x = y
          · rw [if_pos hxy, if_pos hxy]
          · rw [if_neg hxy, if_neg hxy]; conv => rhs; unfold memRead
            rw [if_neg hxy]
      · rw [if_neg hxe]
        conv => lhs; unfold memRead
        conv => rhs; rw [show memRead ((a, b) :: rest) y = if a = y then b else memRead rest y from rfl]
        by_cases hay : a = y
        · subst hay; rw [if_pos rfl, if_neg hxe, if_pos rfl]
        · rw [if_neg hay, if_neg hay, ih h'.2.2]

/-- A write of a list keeps the canonical form. -/
theorem memWriteList_wf {m : Memory} (x : Nat) (bs : List Byte) (h : Memory.wf m) :
    Memory.wf (memWriteList m x bs) := by
  induction bs generalizing m x with
  | nil => exact h
  | cons b bs ih => exact ih (x + 1) (memWrite_wf x b h)

/-- Reading after a write of a list: its bytes where it lies, every other byte as before. -/
theorem memRead_memWriteList {m : Memory} (h : Memory.wf m) (x y : Nat) (bs : List Byte) :
    memRead (memWriteList m x bs) y =
      if x ≤ y ∧ y < x + bs.length then bs.getD (y - x) 0 else memRead m y := by
  induction bs generalizing m x with
  | nil => rw [if_neg (by simp)]; rfl
  | cons b bs ih =>
    rw [show memWriteList m x (b :: bs) = memWriteList (memWrite m x b) (x + 1) bs from rfl,
      ih (memWrite_wf x b h), memRead_memWrite h]
    by_cases hxy : x = y
    · subst hxy
      rw [if_neg (by omega), if_pos rfl, if_pos (by simp), Nat.sub_self]; rfl
    · by_cases hin : x + 1 ≤ y ∧ y < x + 1 + bs.length
      · rw [if_pos hin, if_pos (by simp; omega)]
        obtain ⟨k, rfl⟩ : ∃ k, y = x + 1 + k := ⟨y - (x + 1), by omega⟩
        rw [show x + 1 + k - (x + 1) = k by omega, show x + 1 + k - x = k + 1 by omega]; rfl
      · rw [if_neg hin, if_neg hxy, if_neg (by simp; omega)]

/-- What was written over a whole range reads back. -/
theorem memReadList_memWriteList {m : Memory} (h : Memory.wf m) (x : Nat) (bs : List Byte) :
    memReadList (memWriteList m x bs) x bs.length = bs := by
  apply List.ext_getElem
  · simp [memReadList]
  · intro k h1 h2
    simp only [memReadList, List.getElem_map, List.getElem_range, memRead_memWriteList h]
    rw [if_pos ⟨by omega, by omega⟩, Nat.add_sub_cancel_left, List.getD_eq_getElem?_getD,
      List.getElem?_eq_getElem h2, Option.getD_some]

end Sys2Proof.Machine
end

