-- ==== Sys2Proof/Laws/Store.lean ====
section
/-! SUPPORT. The Calibration Record: its bytes and its fields are one another's images, sealing makes it valid, and a
record write puts exactly its bytes into storage; defaulting fills it with what the read frames received. -/

namespace Sys2Proof.Machine

/-- Two bytes joined low byte first come apart as they were (R12, R68). -/
theorem leBytes_le16 (b0 b1 : Byte) : leBytes (le16 b0 b1) = [b0, b1] := by
  have h0 : lo8 (le16 b0 b1) = b0 := BitVec.extractLsb'_append_eq_right
  have h1 : hi8 (le16 b0 b1) = b1 := BitVec.extractLsb'_append_eq_left
  simp [leBytes, h0, h1]

theorem recordBody_length (r : CalRecord) : (recordBody r).length = 44 := by
  obtain ⟨sig, ⟨⟨m⟩, hm⟩, ⟨⟨j⟩, hj⟩, crc⟩ := r
  have hl : ∀ l : List Half, (l.flatMap leBytes).length = 2 * l.length := by
    intro l
    induction l with
    | nil => rfl
    | cons v vs ih => simp only [List.flatMap_cons, List.length_append, ih, List.length_cons]; simp [leBytes]; omega
  simp at hm hj
  simp [recordBody, hl, hm, hj, leBytes]

theorem recordBytes_length (r : CalRecord) : (recordBytes r).length = 46 := by
  simp [recordBytes, recordBody_length, leBytes]

/-- The bytes of the record an image holds are the image (R102). -/
theorem recordBytes_recordOf (image : List Byte) (h : image.length = 46) :
    recordBytes (recordOf image) = image ∧ recordBody (recordOf image) = image.take 44 := by
  have hsplit : image = (List.range 46).map (fun k => image.getD k 0) := by
    apply List.ext_getElem
    · simp [h]
    · intro k h1 h2
      simp [List.getD_eq_getElem?_getD, h1]
  have hm : ∀ o, leBytes (fieldOf image o) = [image.getD o 0, image.getD (o + 1) 0] :=
    fun o => leBytes_le16 _ _
  have hb : recordBody (recordOf image) = (List.range 44).map (fun k => image.getD k 0) := by
    simp only [recordBody, recordOf, Vector.toList_ofFn, List.ofFn_succ, List.ofFn_zero, List.flatMap_cons,
      List.flatMap_nil, hm]
    rfl
  constructor
  · rw [recordBytes, hb]
    conv => rhs; rw [hsplit]
    rw [show (recordOf image).crc = fieldOf image 44 from rfl, hm]
    rfl
  · rw [hb]
    conv => rhs; rw [hsplit]
    rw [← List.map_take]; rfl

theorem nvmImage_length (s : State) : (nvmImage s).length = 46 := by
  simp [nvmImage, memReadList, Config.recBytes]

theorem setField_sig (r : CalRecord) (f : Nat) (v : Half) : (setField r f v).sig = r.sig := by
  unfold setField; split <;> rfl

theorem setField_crc (r : CalRecord) (f : Nat) (v : Half) : (setField r f v).crc = r.crc := by
  unfold setField; split <;> rfl

/-- A field set reads back, and the other fields are as before (R63). -/
theorem getField_setField (r : CalRecord) (f g : Nat) (v : Half) (hf : f ≤ 20) :
    getField (setField r f v) g = if f = g then v else getField r g := by
  unfold getField setField
  by_cases h1 : f ≤ 10 <;> by_cases h2 : g ≤ 10
  · by_cases h : f = g
    · subst h; simp [h1, Vector.getD, show f < 11 by omega]
    · simp [h1, h2, h, Vector.getD]
  · have h : f ≠ g := by omega
    simp [h1, h2, h]
  · have h : f ≠ g := by omega
    simp [h1, h2, h]
  · by_cases h : f = g
    · subst h; simp [h1, Vector.getD, show f - 11 < 10 by omega]
    · have h' : f - 11 ≠ g - 11 := by omega
      simp [h1, h2, h, h', Vector.getD]

theorem applyForced_sig (forced : List (Fin 21 × Half)) (r : CalRecord) : (applyForced forced r).sig = r.sig := by
  unfold applyForced
  induction forced generalizing r with
  | nil => rfl
  | cons p ps ih => rw [List.foldl_cons, ih, setField_sig]

/-- Sealing does not change what the CRC is computed over. -/
theorem recordBody_sealRecord (c : Config.CrcChoice) (r : CalRecord) :
    recordBody (sealRecord c r) = recordBody r := rfl

/-- A sealed record with the signature is valid (R213). -/
theorem validRecord_sealRecord (c : Config.CrcChoice) (r : CalRecord) (h : r.sig = Config.signature) :
    validRecord c (sealRecord c r) = true := by
  unfold validRecord
  rw [recordBody_sealRecord]
  simp [sealRecord, h]

theorem validRecord_iff (c : Config.CrcChoice) (r : CalRecord) :
    validRecord c r = true ↔ r.sig = Config.signature ∧ crcOf c (recordBody r) = r.crc := by
  simp [validRecord]

/-- A record write puts exactly the record's bytes into storage (R62, R219). -/
theorem nvmImage_nvmStore (s : State) (h : Memory.wf s.nvm) : nvmImage (nvmStore s) = recordBytes s.cal.work := by
  have h' := memReadList_memWriteList h s.board.nvmBase (recordBytes s.cal.work)
  rw [recordBytes_length] at h'
  exact h'

theorem memRead_nvmStore (s : State) (h : Memory.wf s.nvm) (a : Nat)
    (ha : a < s.board.nvmBase ∨ s.board.nvmBase + 46 ≤ a) : memRead (nvmStore s).nvm a = memRead s.nvm a := by
  show memRead (memWriteList s.nvm _ _) a = _
  rw [memRead_memWriteList h, recordBytes_length, if_neg (by omega)]

theorem nvmStore_wf (s : State) (h : Memory.wf s.nvm) : Memory.wf (nvmStore s).nvm :=
  memWriteList_wf _ _ h

/-- `sealAndStore`: storage holds the sealed record (R217, R218). -/
theorem sealAndStore_spec (s : State) (h : Memory.wf s.nvm) :
    nvmImage (sealAndStore s) = recordBytes (sealAndStore s).cal.work ∧
      Memory.wf (sealAndStore s).nvm ∧
      (∀ a, (a < s.board.nvmBase ∨ s.board.nvmBase + 46 ≤ a) →
        memRead (sealAndStore s).nvm a = memRead s.nvm a) ∧
      (sealAndStore s).log =
        .nvmWrite s.board.nvmBase (recordBytes (sealAndStore s).cal.work) :: s.log :=
  ⟨nvmImage_nvmStore (setWork (sealRecord s.board.crc s.cal.work) s) h,
    nvmStore_wf (setWork (sealRecord s.board.crc s.cal.work) s) h,
    memRead_nvmStore (setWork (sealRecord s.board.crc s.cal.work) s) h, rfl⟩

-- ---------------------------------------------------------------- defaulting (R214)

theorem getField_applyForced_other (forced : List (Fin 21 × Half)) (r : CalRecord) (f : Fin 21)
    (h : ∀ p ∈ forced, p.1 ≠ f) : getField (applyForced forced r) f.val = getField r f.val := by
  induction forced generalizing r with
  | nil => rfl
  | cons p ps ih =>
    show getField (applyForced ps (setField r p.1.val p.2)) f.val = _
    rw [ih _ (fun q hq => h q (List.mem_cons_of_mem p hq)), getField_setField _ _ _ _ (by omega), if_neg]
    exact fun e => h p List.mem_cons_self (Fin.ext e)

/-- The last value `FORCED` lists for a field is the field's. -/
theorem getField_applyForced (before after : List (Fin 21 × Half)) (f : Fin 21) (v : Half) (r : CalRecord)
    (h : ∀ p ∈ after, p.1 ≠ f) : getField (applyForced (before ++ (f, v) :: after) r) f.val = v := by
  have e : applyForced (before ++ (f, v) :: after) r =
      applyForced after (setField (applyForced before r) f.val v) := by simp [applyForced]
  rw [e, getField_applyForced_other _ _ _ h, getField_setField _ _ _ _ (by omega), if_pos rfl]

/-- A field of the defaulted record that `FORCED` does not name is the value read for it. -/
theorem getField_defaultedRecord (forced : List (Fin 21 × Half)) (meter meas : List Half) (crc : Half) (f : Fin 21)
    (hm : meter.length = 11) (h : ∀ p ∈ forced, p.1 ≠ f) :
    getField (defaultedRecord forced meter meas crc) f.val = (meter ++ meas).getD f.val 0 := by
  rw [defaultedRecord, getField_applyForced_other _ _ _ h]
  unfold getField
  by_cases hf : f.val ≤ 10
  · rw [if_pos hf]
    simp [Vector.getD, List.getElem?_append, hm, show f.val < 11 by omega]
  · rw [if_neg hf]
    simp [Vector.getD, List.getElem?_append, hm, show ¬f.val < 11 by omega, show f.val - 11 < 10 by omega]

/-- Defaulting (R214): 21 read frames, the meter range first, then one record write; each field holds the value received
for it, or the last value `FORCED` lists for it. -/
theorem defaultRecord_wire (s : State) (hc : s.sst.sclk = true) :
    ∃ answers, FrameAnswers 21 answers ∧ Hears s (defaultRecord s) answers.flatten ∧
      (defaultRecord s).log = .nvmWrite s.board.nvmBase (recordBytes (defaultRecord s).cal.work) ::
        ((blockWaves s.sst.sdo
          ((readFrames (BitVec.ofNat 8 s.board.meterFirst.val) 11 s.board.dummyByte ++
            readFrames (BitVec.ofNat 8 s.board.measFirst.val) 10 s.board.dummyByte).zip answers)).reverse ++ s.log) ∧
      (∀ f : Fin 21, (∀ p ∈ s.board.forced, p.1 ≠ f) →
        getField (defaultRecord s).cal.work f.val = halfOfBits ((answers.getD f.val []).drop 8)) ∧
      ∀ (f : Fin 21) (v : Half) (before after : List (Fin 21 × Half)),
        s.board.forced = before ++ (f, v) :: after → (∀ p ∈ after, p.1 ≠ f) →
        getField (defaultRecord s).cal.work f.val = v := by
  have sp := (readRange_spec 11 (BitVec.ofNat 8 s.board.meterFirst.val) (clearChecksum s)).2.2.2.2 (by omega)
  have sb := (readRange_spec 11 (BitVec.ofNat 8 s.board.meterFirst.val) (clearChecksum s)).1.board
  obtain ⟨as, a1, a2, a3, a4, a5⟩ := readRange_wire 11 (BitVec.ofNat 8 s.board.meterFirst.val) (clearChecksum s)
    (fun _ => hc)
  unfold defaultRecord
  dsimp only
  generalize readRange 11 (BitVec.ofNat 8 s.board.meterFirst.val) (clearChecksum s) = x at *
  have tb := (readRange_spec 10 (BitVec.ofNat 8 s.board.measFirst.val) (clearChecksum x.2)).1.board
  obtain ⟨bs, b1, b2, b3, b4, -⟩ := readRange_wire 10 (BitVec.ofNat 8 s.board.measFirst.val) (clearChecksum x.2)
    (fun _ => sp.1)
  generalize readRange 10 (BitVec.ofNat 8 s.board.measFirst.val) (clearChecksum x.2) = y at *
  have xb : x.2.board = s.board := sb
  have yb : y.2.board = s.board := tb.trans xb
  generalize hd : defaultedRecord s.board.forced x.1 y.1 s.cal.work.crc = d
  have hf : ∀ f, getField (sealAndStore (setWork d y.2)).cal.work f = getField d f := fun _ => rfl
  refine ⟨as ++ bs, a1.append b1, ?_, ?_, fun f h => ?_, fun f v before after hb ha => ?_⟩
  · rw [List.flatten_append]
    have h0 : Hears s (clearChecksum s) [] := Hears.of_eq rfl rfl
    have h1 : Hears x.2 (clearChecksum x.2) [] := Hears.of_eq rfl rfl
    exact (h0.trans (a2.trans (h1.trans b2))).congr rfl rfl
  · have hl : (sealAndStore (setWork d y.2)).log =
        .nvmWrite y.2.board.nvmBase (recordBytes (sealAndStore (setWork d y.2)).cal.work) :: y.2.log := rfl
    rw [hl, yb, blockWaves_append _ _ _ _ _ (by rw [readFrames_length, a1.1]), b4, clearChecksum_log, a4,
      clearChecksum_log, clearChecksum_board, xb]
    have e : (clearChecksum x.2).sst.sdo = x.2.sst.sdo := rfl
    rw [e, a5]
    simp only [clearChecksum_board, List.reverse_append, List.append_assoc]
    rfl
  · rw [hf, ← hd, getField_defaultedRecord _ _ _ _ _ (by rw [a3, List.length_map, a1.1]) h, a3, b3, ← List.map_append]
    have hlt : f.val < (as ++ bs).length := by rw [(a1.append b1).1]; exact f.isLt
    rw [List.getD_eq_getElem?_getD, List.getElem?_map, List.getD_eq_getElem?_getD, List.getElem?_eq_getElem hlt]
    rfl
  · rw [hf, ← hd, defaultedRecord, hb, getField_applyForced _ _ _ _ _ ha]

end Sys2Proof.Machine
end

