-- ==== Sys2Proof/Laws/Frame.lean ====
section
/-! SUPPORT. What every operation that completes leaves alone, one structure for all of them (`ExecFrame`), how the
foreground operations leave the lines, and that a machine without requests and inputs stays so. -/

namespace Sys2Proof.Machine

theorem writeBlockOp_frame (first last : Byte) (s : State) : LinkFrame s (writeBlockOp first last s) :=
  (clearChecksum_frame s).trans (writeRange_spec _ _ _ _).1

/-- A read-block keeps everything outside the link but `BUF`. -/
theorem readBlockOp_frame (first last : Byte) (s : State) :
    LinkFrame s { (readBlockOp first last s) with
      sst := { (readBlockOp first last s).sst with buf := s.sst.buf } } := by
  obtain ⟨h1, h2, h3, h4, h5, h6, h7, h8, h9, h10, h11, -, h13, h14⟩ :=
    (clearChecksum_frame s).trans (readRange_spec (rangeLength first last) first (clearChecksum s)).1
  exact ⟨h1, h2, h3, h4, h5, h6, h7, h8, h9, h10, h11, rfl, h13, h14⟩

/-- Defaulting is some reads on the link, then a record with the signature sealed and stored (R214). -/
theorem defaultRecord_frame (s : State) :
    ∃ (d : CalRecord) (u : State), LinkFrame s u ∧ d.sig = Config.signature ∧
      defaultRecord s = sealAndStore (setWork d u) ∧ u.sst.sclk = true ∧ u.sst.busy = false := by
  have m := readRange_spec 11 (BitVec.ofNat 8 s.board.meterFirst.val) (clearChecksum s)
  have j := readRange_spec 10 (BitVec.ofNat 8 s.board.measFirst.val)
    (clearChecksum (readRange 11 (BitVec.ofNat 8 s.board.meterFirst.val) (clearChecksum s)).2)
  refine ⟨_, _, (((clearChecksum_frame s).trans m.1).trans (clearChecksum_frame _)).trans j.1, ?_, rfl,
    (j.2.2.2.2 (by omega)).1, (j.2.2.2.2 (by omega)).2⟩
  rw [defaultedRecord, applyForced_sig]

/-- An operation that makes no record write: storage as before, and the working copy,
but for a valid image loaded. -/
def NoRecordWrite (i : Instr) (s t : State) : Prop :=
  writeCount t.log = writeCount s.log ∧ t.nvm = s.nvm ∧
    (t.cal = s.cal ∨
      (i = .calLoad ∧ validRecord s.board.crc (recordOf (nvmImage s)) = true ∧
        t.cal = ⟨recordOf (nvmImage s), true⟩)) ∧
    (∀ a b, i ≠ .calUpdateField a b) ∧ i ≠ .calPersist ∧
    (i = .calLoad → validRecord s.board.crc (recordOf (nvmImage s)) = true)

/-- An operation that makes one record write, of a sealed working copy (R219, R221). -/
def OneRecordWrite (i : Instr) (s t : State) : Prop :=
  ∃ (r : CalRecord) (m : Bool), writeCount t.log = writeCount s.log + 1 ∧
    t.nvm = memWriteList s.nvm s.board.nvmBase (recordBytes t.cal.work) ∧
    t.cal = ⟨sealRecord s.board.crc r, m⟩ ∧
    (r.sig = Config.signature ∨ r.sig = s.cal.work.sig ∧ s.cal.loaded = true) ∧
    ((∃ a b, i = .calUpdateField a b) ∨ i = .calPersist ∨
      (i = .calLoad ∧ validRecord s.board.crc (recordOf (nvmImage s)) = false))

/-- What every operation that completes keeps, and how it may move the rest. -/
structure ExecFrame (i : Instr) (s t : State) : Prop where
  inIsr : t.irq.inIsr = s.irq.inIsr
  op : t.irq.op = s.irq.op
  masked : s.irq.masked = false → t.irq.masked = false
  board : t.board = s.board
  req : t.port.request = s.port.request
  inbox : t.env.inbox = s.env.inbox
  /-- In the handler (R255). -/
  isrKeeps : s.irq.inIsr = true →
    t.sst = s.sst ∧ t.cal = s.cal ∧ t.ic = s.ic ∧ t.evq.tail = s.evq.tail ∧ t.nvm = s.nvm ∧ t.irq = s.irq ∧
      t.port.done = s.port.done ∧ t.port.spinning = s.port.spinning
  /-- In the foreground (R60). -/
  fgKeeps : s.irq.inIsr = false →
    t.tick = s.tick ∧ t.evq.head = s.evq.head ∧ t.evq.slot = s.evq.slot ∧ tickCount t.log = tickCount s.log
  isrTick : s.irq.inIsr = true →
    (t.tick = s.tick ∧ tickCount t.log = tickCount s.log) ∨
      (t.tick = s.tick + 1 ∧ tickCount t.log = tickCount s.log + 1)
  writes : NoRecordWrite i s t ∨ OneRecordWrite i s t
  btn : t.btn = s.btn ∨
    (∃ d : Descriptor, d.st = .awaitPress ∧ t.btn = s.btn ++ [d] ∧ s.nbtn < s.board.maxButtons) ∨
    t.btn = (serviceList s.btn s).1

/-- Not an operation of the store that may write a record. -/
def NoStoreWrite (i : Instr) : Prop := (∀ a b, i ≠ .calUpdateField a b) ∧ i ≠ .calPersist ∧ i ≠ .calLoad

theorem ExecFrame.ofLink (i : Instr) (s u t : State) (h0 : s.irq.inIsr = false) (f : LinkFrame s u) (p : Port)
    (hp : p.request = s.port.request) (w : Transport) (ht : t = { u with port := p, sst := w })
    (hi : NoStoreWrite i) : ExecFrame i s t := by
  subst ht
  exact
    { inIsr := by rw [f.irq]
      op := by rw [f.irq]
      masked := by rw [f.irq]; exact id
      board := f.board
      req := hp
      inbox := f.inbox
      isrKeeps := fun h => by rw [h0] at h; cases h
      fgKeeps := fun _ => ⟨f.tick, by rw [f.evq], by rw [f.evq], f.ticks⟩
      isrTick := fun h => by rw [h0] at h; cases h
      writes := .inl ⟨f.writes, f.nvm, .inl f.cal, hi.1, hi.2.1, fun h => absurd h hi.2.2⟩
      btn := .inl f.btn }

theorem ExecFrame.ofFinish (i : Instr) (s u : State) (v : BitVec 32) (h0 : s.irq.inIsr = false)
    (f : LinkFrame s u) (hi : NoStoreWrite i) : ExecFrame i s (finish v u) :=
  ExecFrame.ofLink i s u _ h0 f (doneWith u v) (show u.port.request = _ by rw [f.port]) u.sst rfl hi

theorem ExecFrame.ofInner (i : Instr) (s u : State) (v : BitVec 32) (h0 : s.irq.inIsr = false)
    (f : LinkFrame s u) (hi : NoStoreWrite i) : ExecFrame i s (giveInner v u) :=
  ExecFrame.ofLink i s u _ h0 f { u.port with innerRes := v } (show u.port.request = _ by rw [f.port]) u.sst rfl hi

theorem ExecFrame.ofSeal (i : Instr) (s u t : State) (h0 : s.irq.inIsr = false) (f : LinkFrame s u)
    (r : CalRecord) (m : Bool)
    (ht : t = finish 0 { sealAndStore (setWork r u) with
      cal := { (sealAndStore (setWork r u)).cal with loaded := m } })
    (hs : r.sig = Config.signature ∨ r.sig = s.cal.work.sig ∧ s.cal.loaded = true)
    (hi : (∃ a b, i = .calUpdateField a b) ∨ i = .calPersist ∨
      (i = .calLoad ∧ validRecord s.board.crc (recordOf (nvmImage s)) = false)) : ExecFrame i s t := by
  subst ht
  exact
    { inIsr := congrArg _ f.irq
      op := congrArg _ f.irq
      masked := fun h => (congrArg (·.masked) f.irq).trans h
      board := f.board
      req := congrArg (·.request) f.port
      inbox := f.inbox
      isrKeeps := fun h => by rw [h0] at h; cases h
      fgKeeps := fun _ =>
        ⟨f.tick, congrArg _ f.evq, congrArg _ f.evq, (tickCount_nvmWrite _ _ _).trans f.ticks⟩
      isrTick := fun h => by rw [h0] at h; cases h
      writes := .inr ⟨r, m, (writeCount_nvmWrite _ _ _).trans (congrArg (· + 1) f.writes), by
        show memWriteList u.nvm u.board.nvmBase _ = _
        rw [f.nvm, f.board]; rfl, by
        show (⟨sealRecord u.board.crc r, m⟩ : CalStore) = _
        rw [f.board], hs, hi⟩
      btn := .inl f.btn }

/-- What every operation that completes leaves alone. -/
theorem exec_frame {i : Instr} {s t : State} (h : exec i s = .next t) : ExecFrame i s t := by
  have c := exec_next h
  clear h
  cases i <;> simp only [Completes] at c
  case snapshot =>
    rcases c with ⟨h0, rfl⟩ | ⟨h0, rfl⟩
    all_goals constructor <;> simp [NoRecordWrite, giveInner, finish, critical, enterSection, latchMidTick,
      leaveSection, h0]
  case computeDeadline =>
    obtain ⟨h0, rfl⟩ := c
    constructor <;> simp [NoRecordWrite, finish, critical, enterSection, latchMidTick, leaveSection, h0]
  case isExpired =>
    obtain ⟨h0, rfl⟩ := c
    constructor <;> simp [NoRecordWrite, finish, critical, enterSection, latchMidTick, leaveSection, h0]
  case blockUntil =>
    rcases c with ⟨h0, ⟨_, rfl⟩ | ⟨_, rfl⟩⟩
    all_goals constructor <;> simp [NoRecordWrite, finish, keepWaiting, critical, enterSection,
      latchMidTick, leaveSection, h0]
  case formatElapsed =>
    obtain ⟨h0, n, str, u, hu, rfl⟩ := c
    rcases hu with rfl | rfl
    all_goals constructor <;> simp [NoRecordWrite, finish, drawn, critical, enterSection,
      latchMidTick, leaveSection, h0]
  case writeTransaction a d =>
    obtain ⟨h0, _, _, _, rfl⟩ := c
    have f := (writeRegister_spec a d s).1
    exact ExecFrame.ofFinish _ s _ _ h0 f (by simp [NoStoreWrite])
  case readTransaction a =>
    obtain ⟨h0, _, _, _, rfl⟩ := c
    have f := (readRegister_spec a s).1
    exact ExecFrame.ofFinish _ s _ _ h0 f (by simp [NoStoreWrite])
  case writeBlock a b =>
    obtain ⟨h0, _, _, _, rfl⟩ := c
    have f := writeBlockOp_frame a b s
    exact ExecFrame.ofFinish _ s _ _ h0 f (by simp [NoStoreWrite])
  case readBlock a b =>
    obtain ⟨h0, _, _, _, rfl⟩ := c
    have f := readBlockOp_frame a b s
    exact ExecFrame.ofLink _ s
      { (readBlockOp a b s) with sst := { (readBlockOp a b s).sst with buf := s.sst.buf } } _ h0 f
      (doneWith (readBlockOp a b s) ((readBlockOp a b s).sst.cksum.zeroExtend 32))
      (congrArg Port.request f.port : (readBlockOp a b s).port.request = _) (readBlockOp a b s).sst rfl (by simp [NoStoreWrite])
  case registerButton loc mask id =>
    obtain ⟨h0, hr, rfl⟩ := c
    have hh := (hasRoom_iff s.nbtn s.board).1 hr
    constructor <;> simp [NoRecordWrite, finish, critical, enterSection, latchMidTick,
      leaveSection, h0, appendButton, drawn, hh]
  case pollEvent =>
    obtain ⟨h0, rfl⟩ := c
    constructor <;> simp [NoRecordWrite, finish, critical, enterSection, latchMidTick,
      leaveSection, h0, popEvent]
  case calLoad =>
    rcases c with ⟨h0, hb, ⟨hv, rfl⟩ | ⟨hv, hs, rfl⟩⟩
    · constructor <;> simp [NoRecordWrite, finish, markLoaded, setWork, h0, hv]
    · obtain ⟨d, u, hf, hd, he, _, _⟩ := defaultRecord_frame (setWork (recordOf (nvmImage s)) s)
      rw [he]
      obtain ⟨h1, h2, h3, h4, h5, h6, h7, h8, h9, h10, h11, h12, h13, h14⟩ := hf
      exact ExecFrame.ofSeal _ s {u with cal := s.cal} _ h0 ⟨h1, h2, h3, rfl, h5, h6, h7, h8, h9, h10, h11,
        h12, h13, h14⟩ d true rfl (.inl hd) (by simp [hv])
  case calReadField o =>
    obtain ⟨h0, h1, h2, rfl⟩ := c
    constructor <;> simp [NoRecordWrite, finish, h0]
  case calUpdateField o v =>
    obtain ⟨h0, h1, h2, rfl⟩ := c
    exact ExecFrame.ofSeal _ s s _ h0 (LinkFrame.refl s) (setField s.cal.work o.toNat v) s.cal.loaded rfl (.inr ⟨setField_sig _ _ _, h1⟩) (by simp)
  case calPersist =>
    obtain ⟨h0, h1, rfl⟩ := c
    exact ExecFrame.ofSeal _ s s _ h0 (LinkFrame.refl s) s.cal.work s.cal.loaded rfl (.inr ⟨rfl, h1⟩) (by simp)
  case startCond =>
    obtain ⟨h0, _, _, rfl⟩ := c
    exact ExecFrame.ofLink _ s _ _ h0 (startCondition_frame s) _ (congrArg Port.request (startCondition_frame s).port) _ rfl (by simp [NoStoreWrite])
  case exchangeBit o =>
    obtain ⟨h0, rfl⟩ := c
    have f := (exchangeBitOp_spec o s).1
    exact ExecFrame.ofInner _ s _ _ h0 f (by simp [NoStoreWrite])
  case exchangeByte o =>
    obtain ⟨h0, rfl⟩ := c
    have f := (exchangeByteOp_spec o s).1
    exact ExecFrame.ofInner _ s _ _ h0 f (by simp [NoStoreWrite])
  case push ev =>
    obtain ⟨h0, rfl⟩ := c
    have f := pushEvent_frame ev s
    constructor <;> simp [NoRecordWrite, h0, f.irq, f.tick, f.sst, f.btn, f.cal, f.nvm, f.port, f.ic, f.board,
      f.tail, f.inbox, f.writes, f.ticks]
  case crc16 n =>
    obtain ⟨h0, rfl⟩ := c
    split <;> constructor <;> simp [NoRecordWrite, giveInner, drawn, h0]
  case advance =>
    obtain ⟨h0, rfl⟩ := c
    constructor <;> simp [NoRecordWrite, h0, advanceTick, record]
  case service =>
    obtain ⟨h0, rfl⟩ := c
    obtain ⟨a1, a2, a3, a4, a5, a6, a7, a8, a9, a10, a11, a12, a13, a14⟩ := serviceStep_spec s
    constructor <;> simp [NoRecordWrite, h0, a1, a2, a3, a4, a5, a6, a7, a8, a9, a10, a12, a13, a14]
  case frameWrite a d =>
    obtain ⟨h0, _, _, _, rfl⟩ := c
    have f := (transact_spec (0b0#1 ++ a ++ d) s).1
    generalize (transact (0b0#1 ++ a ++ d) s).2 = u at *
    exact ExecFrame.ofLink _ s _ _ h0 f u.port (by rw [f.port]) u.sst rfl (by simp [NoStoreWrite])
  case frameRead a d =>
    obtain ⟨h0, _, _, _, rfl⟩ := c
    have f := (transact_spec (0b1#1 ++ a ++ d) s).1
    exact ExecFrame.ofInner _ s _ _ h0 f (by simp [NoStoreWrite])

/-- A foreground command leaves the clock idle and the link free, and a `BLOCK_UNTIL` that waits leaves `DONE` low
(R27, R30, R97). -/
theorem exec_foreground_lines {i : Instr} {s t : State} (h : exec i s = .next t) (hc : i.opClass = .foreground)
    (h1 : s.sst.sclk = true) (h2 : s.sst.busy = false) :
    t.sst.sclk = true ∧ t.sst.busy = false ∧
      (t.port.spinning = true → s.port.spinning = true ∨ t.port.done = false) := by
  have c := exec_next h
  clear h
  cases i <;> simp only [Completes] at c <;> (try simp [Instr.opClass] at hc)
  case snapshot =>
    rcases c with ⟨h0, rfl⟩ | ⟨h0, rfl⟩
    all_goals simp [giveInner, finish, critical, enterSection, latchMidTick, leaveSection, h0, h1, h2]
    exact fun h => .inl h
  case computeDeadline =>
    obtain ⟨h0, rfl⟩ := c
    simp [finish, critical, enterSection, latchMidTick, leaveSection, h0, h1, h2]
  case isExpired =>
    obtain ⟨h0, rfl⟩ := c
    simp [finish, critical, enterSection, latchMidTick, leaveSection, h0, h1, h2]
  case blockUntil =>
    rcases c with ⟨h0, ⟨_, rfl⟩ | ⟨_, rfl⟩⟩
    all_goals simp [finish, keepWaiting, critical, enterSection, latchMidTick, leaveSection, h0, h1, h2]
  case formatElapsed =>
    obtain ⟨h0, n, str, u, hu, rfl⟩ := c
    rcases hu with rfl | rfl
    all_goals simp [finish, drawn, critical, enterSection, latchMidTick, leaveSection, h0, h1, h2]
  case writeTransaction a d =>
    obtain ⟨h0, _, _, _, rfl⟩ := c
    have f := (writeRegister_spec a d s)
    generalize writeRegister a d s = u at *
    exact ⟨f.2.1, f.2.2.1, fun h => by cases h⟩
  case readTransaction a =>
    obtain ⟨h0, _, _, _, rfl⟩ := c
    have f := (readRegister_spec a s)
    generalize readRegister a s = u at *
    exact ⟨f.2.1, f.2.2.1, fun h => by cases h⟩
  case writeBlock a b =>
    obtain ⟨h0, _, _, _, rfl⟩ := c
    have f := writeRange_spec (rangeLength a b) a 0 (clearChecksum s)
    have : (writeBlockOp a b s).sst.sclk = true ∧ (writeBlockOp a b s).sst.busy = false := by
      rw [writeBlockOp]
      rcases Nat.eq_zero_or_pos (rangeLength a b) with hz | hz
      · rw [f.2.2.1 hz]; exact ⟨h1, h2⟩
      · exact f.2.2.2 hz
    exact ⟨this.1, this.2, fun h => by cases h⟩
  case readBlock a b =>
    obtain ⟨h0, _, _, _, rfl⟩ := c
    have f := readRange_spec (rangeLength a b) a (clearChecksum s)
    have : (readBlockOp a b s).sst.sclk = true ∧ (readBlockOp a b s).sst.busy = false := by
      rw [readBlockOp]; dsimp only
      rcases Nat.eq_zero_or_pos (rangeLength a b) with hz | hz
      · rw [f.2.2.2.1 hz]; exact ⟨h1, h2⟩
      · exact f.2.2.2.2 hz
    exact ⟨this.1, this.2, fun h => by cases h⟩
  case registerButton loc mask id =>
    obtain ⟨h0, hr, rfl⟩ := c
    simp [finish, critical, enterSection, latchMidTick, leaveSection, h0, appendButton,
      drawn, h1, h2]
  case pollEvent =>
    obtain ⟨h0, rfl⟩ := c
    simp [finish, critical, enterSection, latchMidTick, leaveSection, h0, popEvent, h1, h2]
  case calLoad =>
    rcases c with ⟨h0, hb, ⟨hv, rfl⟩ | ⟨hv, hs, rfl⟩⟩
    · simp [finish, markLoaded, setWork, h1, h2]
    · obtain ⟨d, u, hf, hd, he, ha, hb⟩ := defaultRecord_frame (setWork (recordOf (nvmImage s)) s)
      rw [he]
      exact ⟨ha, hb, fun h => by cases h⟩
  case calReadField o =>
    obtain ⟨h0, _, _, rfl⟩ := c
    simp [finish, h1, h2]
  case calUpdateField o v =>
    obtain ⟨h0, _, _, rfl⟩ := c
    exact ⟨h1, h2, fun h => by cases h⟩
  case calPersist =>
    obtain ⟨h0, _, rfl⟩ := c
    exact ⟨h1, h2, fun h => by cases h⟩


/-- With nothing requested and nothing listed, nothing comes to be requested or listed (log 1). -/
theorem step_keeps_idle {s t : State} (h : step s = .next t) (hr : s.port.request = none) (hi : s.env.inbox = []) :
    t.port.request = none ∧ t.env.inbox = [] := by
  obtain ⟨i, u, -, he, rfl⟩ | m := step_next h
  · have f := exec_frame he
    unfold afterOperation
    split
    · exact ⟨f.req.trans hr, f.inbox.trans hi⟩
    · split
      · exact ⟨f.req.trans hr, f.inbox.trans hi⟩
      · exact ⟨rfl, f.inbox.trans hi⟩
  · cases m with
    | leave => exact ⟨hr, hi⟩
    | entry => exact ⟨hr, hi⟩
    | waiting _ _ _ hs => simp [hr] at hs
    | idle _ _ _ m => cases m <;> simp_all

/-- The same over a run. -/
theorem run_keeps_idle (n : Nat) {s t : State} (h : Host.Core.run core n s = .next t)
    (hr : s.port.request = none) (hi : s.env.inbox = []) : t.port.request = none := by
  induction n generalizing s with
  | zero => cases h; exact hr
  | succ n ih =>
    simp only [Host.Core.run] at h
    split at h
    · rename_i u hu
      obtain ⟨ur, ui⟩ := step_keeps_idle hu hr hi
      exact ih h ur ui
    · cases h
    · cases h

/-- A run of `m` steps and then of `n`. -/
theorem run_add (m n : Nat) {s t : State} (h : Host.Core.run core m s = .next t) :
    Host.Core.run core (m + n) s = Host.Core.run core n t := by
  induction m generalizing s with
  | zero => cases h; rw [Nat.zero_add]
  | succ m ih =>
    rw [Nat.succ_add]
    simp only [Host.Core.run] at h ⊢
    split at h
    · exact ih h
    · cases h
    · cases h

end Sys2Proof.Machine
end

