-- ==== Sys2Proof/Laws/PerInstr.lean ====
section
/-! SUPPORT. The family OpClass: the word of an operation carries the operation's class in the top two bits of its
operation byte (R92, R94), and a wire frame's word is a frame (R99). -/

namespace Sys2Proof.Laws.OpClass

/-- The class bits of an operation byte (R92); a wire frame has none. -/
def classBits : OpClass → Option (BitVec 2)
  | .foreground => some 0b00
  | .internal => some 0b01
  | .interrupt => some 0b10
  | .wire => none

/-- The class bits of a word: the top two bits of a command word, none for a frame. -/
def wordClass : Word → Option (BitVec 2)
  | .command cw => some ((cwOp cw).extractLsb' 6 2)
  | .frame _ => none

/-- The word of an instruction carries the instruction's class. -/
def Statement (i : Instr) : Prop := wordClass (encode i) = classBits i.opClass

theorem snapshot : Statement .snapshot := by
  simp [Statement, encode, wordClass, Instr.opClass, classBits]

theorem computeDeadline (d : BitVec 16) : Statement (.computeDeadline d) := by
  simp [Statement, encode, wordClass, Instr.opClass, classBits]

theorem isExpired (x : Tick) : Statement (.isExpired x) := by
  simp [Statement, encode, wordClass, Instr.opClass, classBits]

theorem blockUntil (x : Tick) : Statement (.blockUntil x) := by
  simp [Statement, encode, wordClass, Instr.opClass, classBits]

theorem formatElapsed : Statement .formatElapsed := by
  simp [Statement, encode, wordClass, Instr.opClass, classBits]

theorem writeTransaction (addr : Byte) (data : Half) : Statement (.writeTransaction addr data) := by
  simp [Statement, encode, wordClass, Instr.opClass, classBits]

theorem readTransaction (addr : Byte) : Statement (.readTransaction addr) := by
  simp [Statement, encode, wordClass, Instr.opClass, classBits]

theorem writeBlock (first last : Byte) : Statement (.writeBlock first last) := by
  simp [Statement, encode, wordClass, Instr.opClass, classBits]

theorem readBlock (first last : Byte) : Statement (.readBlock first last) := by
  simp [Statement, encode, wordClass, Instr.opClass, classBits]

theorem registerButton (loc mask id : Byte) : Statement (.registerButton loc mask id) := by
  simp [Statement, encode, wordClass, Instr.opClass, classBits]

theorem pollEvent : Statement .pollEvent := by
  simp [Statement, encode, wordClass, Instr.opClass, classBits]

theorem calLoad : Statement .calLoad := by
  simp [Statement, encode, wordClass, Instr.opClass, classBits]

theorem calReadField (offset : Byte) : Statement (.calReadField offset) := by
  simp [Statement, encode, wordClass, Instr.opClass, classBits]

theorem calUpdateField (offset : Byte) (value : Half) : Statement (.calUpdateField offset value) := by
  simp [Statement, encode, wordClass, Instr.opClass, classBits]

theorem calPersist : Statement .calPersist := by
  simp [Statement, encode, wordClass, Instr.opClass, classBits]

theorem startCond : Statement .startCond := by
  simp [Statement, encode, wordClass, Instr.opClass, classBits]

theorem exchangeBit (o : Bool) : Statement (.exchangeBit o) := by
  simp [Statement, encode, wordClass, Instr.opClass, classBits]

theorem exchangeByte (o : Byte) : Statement (.exchangeByte o) := by
  simp [Statement, encode, wordClass, Instr.opClass, classBits]

theorem push (ev : EventWord) : Statement (.push ev) := by
  simp [Statement, encode, wordClass, Instr.opClass, classBits]

theorem crc16 (n : Half) : Statement (.crc16 n) := by
  simp [Statement, encode, wordClass, Instr.opClass, classBits]

theorem advance : Statement .advance := by
  simp [Statement, encode, wordClass, Instr.opClass, classBits]

theorem service : Statement .service := by
  simp [Statement, encode, wordClass, Instr.opClass, classBits]

theorem frameWrite (addr : BitVec 7) (data : Half) : Statement (.frameWrite addr data) := rfl

theorem frameRead (addr : BitVec 7) (dummy : Half) : Statement (.frameRead addr dummy) := rfl

end Sys2Proof.Laws.OpClass
end

