-- ==== Sys2Proof/Tests/Slice0.lean ====
section
/-! SUPPORT. Small checks of the model, their expected results taken from spec/95_test_vectors.md (named by section)
or from the rule named; and after them, for every statement with hypotheses, a state and operands that meet them. -/

namespace Sys2Proof.Tests

open Sys2Proof.Machine

set_option Elab.async false

-- ================================================================ the bench

/-- The parameters assumed in 95_test_vectors.md §3, program 4. -/
def board : Config.Board :=
  { maxButtonsPred := 1, activeLevel := false, dummyByte := 0x00, crc := .modbus, nvmBase := 0
    meterFirst := 0x21, measFirst := 0x31, forced := [(0, 0x0015), (1, 0xD174), (10, 0x9422)]
    csMeterReg := 0x2C, csMeasReg := 0x3B, lockReg := 0x20, unlockValue := 0x5678, lockValue := 0x8765
    tStart := 1, tSetup := 1, tHold := 1 }

/-- A state after reset with every free value zero and the board above. -/
def bench : State :=
  { State.reset with
    board := board
    sst :=
      { sclk := true, sdo := false, busy := false, sho := 0, shi := 0, bitcnt := 0, cksum := 0
        buf := Vector.replicate 112 0 }
    evq := { slot := Vector.replicate 8 0, head := 0, tail := 0 }
    cal := { work := recordOf [], loaded := false } }

/-- The bench in the timer handler, at its end. -/
def handler : State := { bench with irq := { bench.irq with inIsr := true } }

/-- The bench with a transaction in progress. -/
def busy : State := { bench with sst := { bench.sst with busy := true } }

/-- The bench at a tick. -/
def atTick (t : Tick) : State := { bench with tick := t }

/-- The bench with a host command in progress. -/
def asked (cw : CommandWord) : State := { bench with port := { bench.port with request := some (.host cw) } }

/-- The bench with answers on `SDI`. -/
def hearing (bits : List Bool) : State := { bench with env := { bench.env with sdi := bits } }

/-- The bench with `BUF` as in §2.5. -/
def loaded2 : State :=
  { bench with sst := { bench.sst with buf := (bench.sst.buf.set 0 0x1234).set 1 0xABCD } }

/-- The bench with `DevIdeal`, its registers as in §3, program 4. -/
def ideal : State :=
  { bench with
    ic := .ideal (Vector.ofFn (fun k : Fin 112 =>
      if 0x21 ≤ k.val ∧ k.val ≤ 0x2B then BitVec.ofNat 16 (0x1000 + (k.val - 0x21))
      else if 0x31 ≤ k.val ∧ k.val ≤ 0x3A then BitVec.ofNat 16 (0x2000 + (k.val - 0x31)) else 0)) 0 0 }

/-- The bench with a queue. -/
def queued (slots : List EventWord) (head tail : BitVec 3) : State :=
  { bench with evq := { slot := Vector.ofFn (fun k => slots.getD k.val 0), head := head, tail := tail } }

/-- The descriptor of §2.6. -/
def button (st : Debounce) (last : Bool) : Descriptor := { loc := 0, mask := 0x04, id := 1, st := st, last := last }

/-- Record A of §2.8. -/
def recordA : List Byte :=
  [0xAA, 0x55, 0x00, 0x01, 0x01, 0x01, 0x02, 0x01, 0x03, 0x01, 0x04, 0x01, 0x05, 0x01, 0x06, 0x01,
    0x07, 0x01, 0x08, 0x01, 0x09, 0x01, 0x0A, 0x01] ++
  [0x00, 0x02, 0x01, 0x02, 0x02, 0x02, 0x03, 0x02, 0x04, 0x02, 0x05, 0x02, 0x06, 0x02, 0x07, 0x02,
    0x08, 0x02, 0x09, 0x02, 0x73, 0x72]

/-- The bench with an image in `NVM`. -/
def stored (image : List Byte) : State := { bench with nvm := memWriteList [] 0 image }

/-- The bench with record A stored and loaded. -/
def working : State := { stored recordA with cal := { work := recordOf recordA, loaded := true } }

/-- The bench with what the outside does next. -/
def facing (inbox : List Input) : State := { bench with env := { bench.env with inbox := inbox } }

/-- The bench waiting in `BLOCK_UNTIL`. -/
def waiting (inbox : List Input) : State :=
  { facing inbox with
    port := { bench.port with request := some (.host (mkCw 0x0A 6 0)), done := false, spinning := true } }

/-- A clock left low, with the link free. -/
def lowClock : State := { bench with sst := { bench.sst with sclk := false } }

/-- Record A with its CRC corrupted (R215 a). -/
def badCrc : List Byte := recordA.take 45 ++ [0x73]

/-- A next state with a property. -/
def gives (o : Host.Outcome State Fault Refusal) (p : State → Bool) : Bool :=
  match o with
  | .next t => p t
  | .fault _ => false
  | .refused _ => false

theorem gives_next {o : Host.Outcome State Fault Refusal} {p : State → Bool} (h : gives o p = true) :
    ∃ t, o = .next t ∧ p t = true := by
  unfold gives at h
  split at h
  · exact ⟨_, rfl, h⟩
  · cases h
  · cases h

/-- A refusal of a name. -/
def refuses (o : Host.Outcome State Fault Refusal) (r : Refusal) : Bool :=
  match o with
  | .refused q => q == r
  | .next _ => false
  | .fault _ => false

-- ================================================================ well-formedness (one ill-formed term per check)

theorem test_wf_write_transaction :
    (Instr.writeTransaction 0x6F 0xFFFF).wellFormed = true ∧ (Instr.writeTransaction 0x70 0).wellFormed = false := by
  decide
theorem test_wf_read_transaction :
    (Instr.readTransaction 0x6F).wellFormed = true ∧ (Instr.readTransaction 0xA1).wellFormed = false := by decide
theorem test_wf_write_block :
    (Instr.writeBlock 0x22 0x21).wellFormed = true ∧ (Instr.writeBlock 0x21 0x70).wellFormed = false := by decide
theorem test_wf_read_block :
    (Instr.readBlock 0x21 0x22).wellFormed = true ∧ (Instr.readBlock 0x60 0x70).wellFormed = false := by decide
theorem test_wf_read_field :
    (Instr.calReadField 20).wellFormed = true ∧ (Instr.calReadField 21).wellFormed = false := by decide
theorem test_wf_update_field :
    (Instr.calUpdateField 20 0).wellFormed = true ∧ (Instr.calUpdateField 21 0).wellFormed = false := by decide
theorem test_wf_crc16 : (Instr.crc16 44).wellFormed = true ∧ (Instr.crc16 43).wellFormed = false := by decide
theorem test_wf_frame_write :
    (Instr.frameWrite 0x6F 0).wellFormed = true ∧ (Instr.frameWrite 0x70 0).wellFormed = false := by decide
theorem test_wf_frame_read_address :
    (Instr.frameRead 0x6F 0).wellFormed = true ∧ (Instr.frameRead 0x70 0).wellFormed = false := by decide
theorem test_wf_frame_read_dummy : (Instr.frameRead 0x21 0x0001).wellFormed = false := by decide

-- ================================================================ decoding (§2.2 to §2.9; R94's fields by hand)

theorem test_decode_snapshot :
    decodeCw 0x00000000000000 = .ok .snapshot ∧ decodeCw 0x00DEADBEEF1234 = .ok .snapshot := by decide +kernel
theorem test_decode_deadline :
    decodeCw 0x0800000000FFFF = .ok (.computeDeadline 65535) ∧
      decodeCw 0x08FFFFFFFF0064 = .ok (.computeDeadline 100) ∧
      decodeCw 0x09000004490000 = .ok (.isExpired 1097) ∧
      decodeCw 0x0A000003ED0000 = .ok (.blockUntil 1005) ∧
      decodeCw 0x0B000000000000 = .ok .formatElapsed := by decide +kernel
theorem test_decode_transactions :
    decodeCw 0x10FFFFFF211234 = .ok (.writeTransaction 0x21 0x1234) ∧
      decodeCw 0x110000006F0000 = .ok (.readTransaction 0x6F) ∧
      decodeCw 0x12000022210000 = .ok (.writeBlock 0x21 0x22) ∧
      decodeCw 0x13000070600000 = .ok (.readBlock 0x60 0x70) := by decide +kernel
theorem test_decode_buttons :
    decodeCw 0x18000000040001 = .ok (.registerButton 0x00 0x04 1) ∧
      decodeCw 0x180000028000FF = .ok (.registerButton 0x02 0x80 0xFF) ∧
      decodeCw 0x19000000000000 = .ok .pollEvent ∧
      decodeCw 0x58000000000101 = .ok (.push 0x101) := by decide +kernel
theorem test_decode_store :
    decodeCw 0x20000000000000 = .ok .calLoad ∧
      decodeCw 0x21000000000014 = .ok (.calReadField 20) ∧
      decodeCw 0x220000BEEF000B = .ok (.calUpdateField 11 0xBEEF) ∧
      decodeCw 0x23000000000000 = .ok .calPersist ∧
      decodeCw 0x600000002C0000 = .ok (.crc16 44) := by decide +kernel
theorem test_decode_bits :
    decodeCw 0x50000000000000 = .ok .startCond ∧
      decodeCw 0x51000000000001 = .ok (.exchangeBit true) ∧
      decodeCw 0x520000000000A1 = .ok (.exchangeByte 0xA1) := by decide +kernel
theorem test_decode_interrupt :
    decodeCw 0x80000000000000 = .ok .advance ∧ decodeCw 0x98000000000000 = .ok .service := by decide +kernel
theorem test_decode_frames :
    decodeFrame 0b001000010001001000110100#24 = .frameWrite 0x21 0x1234 ∧
      decodeFrame 0b101000010000000000000000#24 = .frameRead 0x21 0x0000 ∧
      decodeFrame 0b111011110000000000000000#24 = .frameRead 0x6F 0x0000 := by decide +kernel
theorem test_decode_reserved :
    decodeCw 0x01000000000000 = .error .reservedOp ∧ decodeCw 0x0C000000000000 = .error .reservedOp ∧
      decodeCw 0x28000000000000 = .error .reservedOp ∧ decodeCw 0xC0000000000000 = .error .reservedClass := by
  decide +kernel

-- ================================================================ Tick Clock (§2.1)

theorem test_advance :
    gives (exec .advance { handler with tick := 0x7FFFFFFF }) (fun t => t.tick == 0x80000000) = true := by
  decide +kernel
theorem test_advance_wraps :
    gives (exec .advance { handler with tick := 0xFFFFFFFF }) (fun t => t.tick == 0) = true := by decide +kernel
theorem test_snapshot : gives (exec .snapshot (atTick 0xFF)) (fun t => t.port.res == 0xFF) = true := by decide +kernel
theorem test_snapshot_undisturbed :
    gives (exec .snapshot { atTick 0xFF with env := { bench.env with midTick := true } })
      (fun t => t.port.res == 0xFF && t.irq.pending && t.tick == 0xFF) = true := by decide +kernel

-- ================================================================ Scheduler Primitives (§2.2 to §2.4)

theorem test_compute_deadline :
    gives (exec (.computeDeadline 42) (atTick 1000)) (fun t => t.port.res == 1041) = true := by decide +kernel
theorem test_compute_deadline_wraps :
    gives (exec (.computeDeadline 65535) (atTick 0xFFFFFFF0)) (fun t => t.port.res == 0x0000F9EF) = true := by
  decide +kernel
theorem test_is_expired :
    gives (exec (.isExpired 1097) (atTick 1096)) (fun t => t.port.res == 0) = true ∧
      gives (exec (.isExpired 1097) (atTick 1097)) (fun t => t.port.res == 1) = true := by decide +kernel
theorem test_is_expired_wraps :
    gives (exec (.isExpired 0x10) (atTick 0xFFFFFFF0)) (fun t => t.port.res == 0) = true ∧
      gives (exec (.isExpired 0xFFFFFFF0) (atTick 0x10)) (fun t => t.port.res == 1) = true ∧
      gives (exec (.isExpired 0) (atTick 0x80000000)) (fun t => t.port.res == 0) = true := by decide +kernel
theorem test_block_until_done :
    gives (exec (.blockUntil 1005) (atTick 1005)) (fun t => t.port.done && !t.port.spinning) = true := by
  decide +kernel
theorem test_block_until_waits :
    gives (exec (.blockUntil 1005) (atTick 1004)) (fun t => !t.port.done && t.port.spinning) = true := by
  decide +kernel
theorem test_format_elapsed :
    gives (exec .formatElapsed (atTick 976)) (fun t => t.port.res == 0 && t.port.str == [0x30]) = true ∧
      gives (exec .formatElapsed (atTick 58594)) (fun t => t.port.str == [0x36, 0x30]) = true := by decide +kernel
theorem test_format_elapsed_last :
    gives (exec .formatElapsed (atTick 4039453124))
      (fun t => t.port.res == 4136399 && t.port.str == [0x34, 0x31, 0x33, 0x36, 0x33, 0x39, 0x39]) = true := by
  decide +kernel

-- ================================================================ Bit-Level Transport (§2.5)

theorem test_start_cond :
    gives (exec .startCond bench)
      (fun t => t.sst.busy && !t.sst.sclk && t.log == [.sclk false]) = true := by decide +kernel
theorem test_exchange_bit :
    gives (exec (.exchangeBit true) (hearing [true]))
      (fun t => t.port.innerRes == 1 && t.log == [.sclk true, .sdi true, .sdo true, .sclk false]) = true := by
  decide +kernel
theorem test_exchange_byte :
    gives (exec (.exchangeByte 0xA1) (hearing [false, true, false, true, true, false, true, false]))
      (fun t => t.port.innerRes == 0x5A && t.sst.shi == 0x5A && t.sst.bitcnt == 0) = true := by decide +kernel
theorem test_exchange_byte_stuck_high :
    gives (exec (.exchangeByte 0x00) (hearing (List.replicate 8 true))) (fun t => t.sst.shi == 0xFF) = true := by
  decide +kernel
/-- The first eight bit periods of the history §2.5 writes out. -/
def firstByteHistory : List Obs :=
  [.sclk false, .sdi false, .sclk true, .sclk false, .sdi false, .sclk true,
    .sclk false, .sdo true, .sdi false, .sclk true, .sclk false, .sdo false, .sdi false, .sclk true,
    .sclk false, .sdi false, .sclk true, .sclk false, .sdi false, .sclk true, .sclk false, .sdi false, .sclk true,
    .sclk false, .sdo true, .sdi false, .sclk true]
/-- The history §2.5 writes out has 84 events. -/
theorem test_write_transaction :
    gives (exec (.writeTransaction 0x21 0x1234) (hearing (List.replicate 24 false)))
      (fun t => t.log.length == 84 && t.sst.sclk && !t.sst.sdo && !t.sst.busy && t.port.res == 0 &&
        t.log.reverse.take 27 == firstByteHistory) = true := by decide +kernel
theorem test_write_transaction_refused :
    refuses (exec (.writeTransaction 0x70 0) bench) .addrOutOfRange = true := by decide +kernel
theorem test_read_transaction :
    gives (exec (.readTransaction 0x21) (hearing (List.replicate 8 true ++ [false, false, false, true, false, false,
        true, false, false, false, true, true, false, true, false,
          false]))) (fun t => t.port.res == 0x1234) = true := by
  decide +kernel
theorem test_read_transaction_stuck_high :
    gives (exec (.readTransaction 0x6F) (hearing (List.replicate 24 true))) (fun t => t.port.res == 0xFFFF) = true := by
  decide +kernel
theorem test_write_block :
    gives (exec (.writeBlock 0x21 0x22) loaded2) (fun t => t.port.res == 0x40BE && t.sst.buf == loaded2.sst.buf) = true := by
  decide +kernel
theorem test_write_block_empty :
    gives (exec (.writeBlock 0x22 0x21) loaded2) (fun t => t.port.res == 0 && t.log == []) = true := by decide +kernel
theorem test_read_block :
    gives (exec (.readBlock 0x21 0x22) (hearing (List.replicate 48 true)))
      (fun t => t.port.res == 0x00FC && bufPrefix t 3 == [0xFFFF, 0xFFFF, 0]) = true := by decide +kernel
theorem test_read_block_ideal :
    gives (exec (.readBlock 0x21 0x2B) ideal)
      (fun t => t.port.res == 0x1BE7 && bufPrefix t 2 == [0x1000, 0x1001]) = true := by decide +kernel
theorem test_frame_write :
    gives (exec (.frameWrite 0x21 0x1234) ideal) (fun t => t.ic ==
      (match ideal.ic with
        | .ideal dev _ _ => .ideal (dev.setIfInBounds 0x21 0x1234) 0x211234 0
        | .oracle => .oracle)) = true := by decide +kernel
theorem test_frame_read : gives (exec (.frameRead 0x2A 0) ideal) (fun t => t.port.innerRes == 0x1009) = true := by
  decide +kernel

-- ================================================================ Buttons and events (§2.6, §2.7)

theorem test_register_button :
    gives (exec (.registerButton 0x02 0x80 0xFF) bench)
      (fun t => t.btn.map (fun d => (d.loc, d.mask, d.id, d.st)) == [(0x02, 0x80, 0xFF, .awaitPress)]) = true := by
  decide +kernel
theorem test_register_button_full :
    refuses (exec (.registerButton 0 4 1) { bench with btn := List.replicate 2 (button .awaitPress true) })
      .storeFull = true := by decide +kernel
theorem test_service_press :
    gives (exec .service { handler with
        btn := [button .awaitPress true], env := { bench.env with inp := [0xFB] } })
      (fun t => t.btn == [button .awaitRelease false] && t.evq.live == [0x001]) = true := by decide +kernel
theorem test_service_release :
    gives (exec .service { handler with
        btn := [button .awaitRelease false], env := { bench.env with inp := [0x04] } })
      (fun t => t.btn == [button .awaitPress true] && t.evq.live == [0x101]) = true := by decide +kernel
/-- The fifth row of §2.6: held since before its registration with the initial level drawn active, the button fires
nothing and keeps `AWAIT_PRESS` with `last` 0, the vector R36's wording overlooks (log 35). -/
theorem test_service_held_since_registration :
    gives (exec .service { handler with
        btn := [button .awaitPress false], env := { bench.env with inp := [0xFB] } })
      (fun t => t.btn == [button .awaitPress false] && t.evq.live == []) = true := by decide +kernel
/-- The second and third sequences of §2.6, with the initial level inactive and active. -/
theorem test_sequences_by_initial_level :
    firedKinds false (button .awaitPress true) [false, true, false, true] = [false, true, false, true] ∧
      firedKinds false (button .awaitPress false) [false, true, false, true] = [false, true] ∧
      firedKinds false (button .awaitPress true) [false, false, false] = [false] ∧
      firedKinds false (button .awaitPress false) [false, false, false] = [] := by decide
theorem test_push :
    gives (exec (.push 0x001) { handler with evq := (queued [] 7 1).evq })
      (fun t => t.evq.head == 0 && slotAt t.evq.slot 7 == 0x001) = true := by decide +kernel
theorem test_push_drops :
    gives (exec (.push 0x101) { handler with evq := (queued [] 0 1).evq })
      (fun t => t.evq == (queued [] 0 1).evq && t.log == [.drop 0x101]) = true := by decide +kernel
theorem test_poll_event :
    gives (exec .pollEvent (queued [0x001, 0x101] 2 1)) (fun t => t.port.res == 0x301 && t.evq.tail == 2) = true := by
  decide +kernel
theorem test_poll_event_empty :
    gives (exec .pollEvent (queued [0x001] 1 1)) (fun t => t.port.res == 0 && t.evq.tail == 1) = true := by
  decide +kernel

-- ================================================================ Calibration Store (§2.8, §3 program 4)

theorem test_cal_load_valid :
    gives (exec .calLoad (stored recordA))
      (fun t => t.cal.loaded && recordBytes t.cal.work == recordA && t.log == []) = true := by decide +kernel
theorem test_cal_load_first_boot :
    gives (exec .calLoad ideal)
      (fun t => t.cal.work.sig == 0x55AA && t.cal.work.crc == 0x661F && writeCount t.log == 1 &&
        getField t.cal.work 0 == 0x0015 && getField t.cal.work 2 == 0x1002 && getField t.cal.work 11 == 0x2000) =
      true := by decide +kernel
theorem test_cal_read_field :
    gives (exec (.calReadField 10) working) (fun t => t.port.res == 0x010A) = true ∧
      gives (exec (.calReadField 11) working) (fun t => t.port.res == 0x0200) = true := by decide +kernel
theorem test_cal_read_field_refused : refuses (exec (.calReadField 21) working) .badOffset = true := by decide +kernel
theorem test_cal_update_field :
    gives (exec (.calUpdateField 3 0x8000) working)
      (fun t => t.cal.work.crc == 0x429E && memReadList t.nvm 8 2 == [0x00, 0x80]) = true := by decide +kernel
theorem test_cal_update_field_meas :
    gives (exec (.calUpdateField 11 0xBEEF) working)
      (fun t => t.cal.work.crc == 0x71C4 && memReadList t.nvm 24 2 == [0xEF,
        0xBE] && writeCount t.log == 1) = true := by
  decide +kernel
theorem test_cal_persist :
    gives (exec .calPersist working) (fun t => t.cal == working.cal && t.nvm == working.nvm && writeCount t.log == 1) =
      true := by decide +kernel
theorem test_crc16 : crcModbus (recordA.take 44) = 0x7273 ∧ crcModbus (List.replicate 44 0xFF) = 0x81AA := by
  decide +kernel
theorem test_crc16_operation :
    gives (exec (.crc16 44) working) (fun t => t.port.innerRes == 0x7273) = true := by decide +kernel

-- ================================================================ the step (R97, R247, R184)

theorem test_handler_services_at_sixteen :
    gives (step { handler with tick := 15, irq := { handler.irq with op := some advanceWord } })
      (fun t => t.tick == 16 && t.irq.op == some serviceWord) = true := by decide +kernel
theorem test_handler_ends_else :
    gives (step { handler with tick := 16, irq := { handler.irq with op := some advanceWord } })
      (fun t => t.tick == 17 && t.irq.op == none) = true := by decide +kernel
theorem test_host_buf_write :
    gives (step { bench with env := { bench.env with inbox := [.bufWrite 111 0xFFFF] } })
      (fun t => bufAt t.sst.buf 111 == 0xFFFF && t.env.inbox == []) = true := by decide +kernel

/-- Two tick events are served between two iterations: while the foreground waits a tick event leaves it waiting
(R136, R137), and it goes on when the outside lets it. -/
theorem test_ticks_pass_while_waiting :
    gives (Host.Core.run core 8 (waiting [.tick, .tick])) (fun t => t.tick == 2 && t.port.spinning) = true ∧
      gives (step (waiting [.iterate])) (fun t => !t.port.spinning && t.port.request.isSome) = true := by
  decide +kernel
/-- One critical section holds at most one tick event (R249). -/
theorem test_one_tick_in_section :
    gives (step (facing [.tickInSection, .tickInSection])) (fun t => t.env.midTick) = true ∧
      refuses (Host.Core.run core 2 (facing [.tickInSection, .tickInSection])) .tickWhilePending = true := by
  decide +kernel

-- ================================================================ the hypotheses of the statements can be met
-- one theorem `witness_<statement>` for every statement that has hypotheses, a state and operands for each clause

/-- The foreground and the handler, the two premises of most statements. -/
theorem witness_contexts : bench.irq.inIsr = false ∧ handler.irq.inIsr = true := ⟨rfl, rfl⟩

theorem witness_AdvanceAddsOneTick : handler.irq.inIsr = true ∧ bench.irq.inIsr = false := ⟨rfl, rfl⟩

theorem witness_SnapshotReturnsWholeTick : bench.irq.inIsr = false ∧ handler.irq.inIsr = true := ⟨rfl, rfl⟩

/-- One step of each kind: a tick event arrives, the handler advances, a reset. -/
theorem witness_TickFollowsServedEvents :
    (∃ t, step bench = .next t ∧ t.tick = bench.tick) ∧
      (∃ t, step { handler with irq := { handler.irq with op := some advanceWord } } = .next t ∧ t.tick = 1) ∧
      ∃ t, step { atTick 5 with env := { bench.env with inbox := [.reset] } } = .next t ∧ t.tick = 0 :=
  ⟨⟨_, rfl, rfl⟩, ⟨_, rfl, rfl⟩, ⟨_, rfl, rfl⟩⟩

theorem witness_TicksOfConvertsMilliseconds :
    ticksOf 41 = 41 ∧ ticksOf 42 = 41 ∧ ticksOf 43 ≤ ticksOf 65535 ∧ 0 < ticksOf 1 ∧ ticksOf 65535 = 63999 := by decide

/-- The premises of the plain comparison at both ends of its range. -/
theorem witness_ReachedIsSignedDifference :
    ((0x7FFFFFFF#32).toNat < (0#32).toNat + 2147483648 ∧ (0#32).toNat < (0x7FFFFFFF#32).toNat + 2147483648) ∧
      reached 0x7FFFFFFF 0 = true ∧ reached 0 0x7FFFFFFF = false ∧ reached 5 5 = true := by decide

theorem witness_ComputeDeadlineAddsDuration : (atTick 1000).irq.inIsr = false ∧ handler.irq.inIsr = true := ⟨rfl, rfl⟩

theorem witness_IsExpiredTestsDeadline :
    (atTick 0x7FFFFFFF).irq.inIsr = false ∧ 0 ≤ ((atTick 0x7FFFFFFF).tick - 0#32).toInt ∧
      ¬ 0 ≤ ((atTick 0x80000000).tick - 0#32).toInt ∧ handler.irq.inIsr = true := ⟨rfl, by decide, by decide, rfl⟩

/-- Reached at the end of the half range, not reached one tick later; waiting, with a tick event and an iteration
listed; the handler. -/
theorem witness_BlockUntilWaitsForDeadline :
    ((atTick 0x7FFFFFFF).irq.inIsr = false ∧ 0 ≤ ((atTick 0x7FFFFFFF).tick - 0#32).toInt) ∧
      ((atTick 0x80000000).irq.inIsr = false ∧ ((atTick 0x80000000).tick - 0#32).toInt < 0) ∧
      handler.irq.inIsr = true ∧
      (∀ inbox, (waiting inbox).irq.inIsr = false ∧ (waiting inbox).irq.pending = false ∧
        (waiting inbox).port.request.isSome = true ∧ (waiting inbox).port.spinning = true) ∧
      (waiting [.tick]).env.inbox = .tick :: [] ∧ (waiting [.iterate]).env.inbox = .iterate :: [] :=
  ⟨⟨rfl, by decide⟩, ⟨rfl, by decide⟩, rfl, fun _ => ⟨rfl, rfl, rfl, rfl⟩, rfl, rfl⟩

/-- Program 1: 97 ticks after `COMPUTE_DEADLINE 100`; at once with a positive duration; at once with none; the last
tick of the range. -/
theorem witness_DeadlineExpiresAfterItsTicks :
    (atTick 1000).irq.inIsr = false ∧
      ((atTick 1097).irq.inIsr = false ∧ 97 < 4294967296 ∧
        (atTick 1097).tick = (atTick 1000).tick + BitVec.ofNat 32 97 ∧
        ticksOf (100#16).toNat ≤ 97 ∧ 97 < ticksOf (100#16).toNat + 2147483648) ∧
      ((atTick 1000).tick = (atTick 1000).tick + BitVec.ofNat 32 0 ∧ 0 < (1#16).toNat) ∧
      ((atTick 1000).tick = (atTick 1000).tick + BitVec.ofNat 32 0 ∧ (0#16).toNat = 0) ∧
      ((atTick 0x80000448).tick = (atTick 1000).tick + BitVec.ofNat 32 2147483744 ∧
        2147483744 < ticksOf (100#16).toNat + 2147483648) := by decide +kernel

theorem witness_FormatElapsedGivesSeconds :
    (atTick 4039453124).irq.inIsr = false ∧ (atTick 4039453124).tick.toNat < 4039453125 := ⟨rfl, by decide +kernel⟩

theorem witness_FormatElapsedCompletesPastHorizon :
    ((atTick 4039453125).irq.inIsr = false ∧ 4039453125 ≤ (atTick 4039453125).tick.toNat) ∧
      handler.irq.inIsr = true := ⟨⟨rfl, by decide +kernel⟩, rfl⟩

/-- `BLOCK_UNTIL 6` at tick 5, its word with bits set that it ignores; then a tick event and an iteration. -/
def delayed : State := { facing [.command (mkCw 0x0A 6 0xBEEF), .tick, .iterate] with tick := 5 }

/-- The wait of `delayed` is an iteration away from its end as long as it lasts: seven steps from the start the
second iteration begins, and the eighth completes it. -/
theorem delayed_iterates (n : Nat) (u : State) (hn : Host.Core.run core n delayed = .next u)
    (hr : u.port.request = some (.host (mkCw 0x0A 6 0xBEEF))) :
    ∃ (m : Nat) (v : State), Host.Core.run core m u = .next v ∧ nextAction v = .perform (.blockUntil 6) ∧
      tickCount v.log < tickCount u.log + 2147483648 := by
  have h7 : gives (Host.Core.run core 7 delayed)
      (fun v => decide (nextAction v = .perform (.blockUntil 6)) && tickCount v.log == 1) = true := by decide +kernel
  have h8 : gives (Host.Core.run core 8 delayed)
      (fun v => decide (v.port.request = none) && decide (v.env.inbox = [])) = true := by decide +kernel
  obtain ⟨v, hv, p⟩ := gives_next h7
  obtain ⟨w, hw, q⟩ := gives_next h8
  simp only [Bool.and_eq_true, decide_eq_true_eq, beq_iff_eq] at p q
  by_cases h : n ≤ 7
  · exact ⟨7 - n, v, (run_add n (7 - n) hn).symm.trans (by rwa [Nat.add_sub_of_le h]), p.1, by omega⟩
  · have e := run_add 8 (n - 8) hw
    rw [Nat.add_sub_of_le (by omega), hn] at e
    rw [run_keeps_idle _ e.symm q.1 q.2] at hr
    cases hr

theorem witness_BlockUntilTerminates :
    decodeCw (mkCw 0x0A 6 0xBEEF) = .ok (.blockUntil 6) ∧ delayed.port.request = none ∧
      delayed.irq.inIsr = false ∧ delayed.irq.masked = false ∧
      delayed.env.inbox = [] ++ .command (mkCw 0x0A 6 0xBEEF) :: [.tick, .iterate] ∧
      (∀ i ∈ ([] : List Input) ++ [.tick, .iterate], i = .tick ∨ i = .iterate) ∧
      ∀ (n : Nat) (u : State), Host.Core.run core n delayed = .next u →
        u.port.request = some (.host (mkCw 0x0A 6 0xBEEF)) →
        ∃ (m : Nat) (v : State), Host.Core.run core m u = .next v ∧ nextAction v = .perform (.blockUntil 6) ∧
          tickCount v.log < tickCount u.log + 2147483648 :=
  ⟨by decide +kernel, rfl, rfl, rfl, rfl, by decide, delayed_iterates⟩

theorem witness_StartConditionLowersClock :
    LinkReady bench ∧ (busy.irq.inIsr = false ∧ busy.sst.busy = true) ∧
      (({ bench with sst := { bench.sst with sclk := false } } : State).irq.inIsr = false ∧
        ({ bench with sst := { bench.sst with sclk := false } } : State).sst.busy = false ∧
        ({ bench with sst := { bench.sst with sclk := false } } : State).sst.sclk = false) ∧
      handler.irq.inIsr = true := ⟨⟨rfl, rfl, rfl⟩, ⟨rfl, rfl⟩, ⟨rfl, rfl, rfl⟩, rfl⟩

theorem witness_ExchangeBitIsOnePeriod :
    (hearing [true]).irq.inIsr = false ∧ (hearing [true]).ic = .oracle ∧ (hearing [true]).env.sdi = true :: [] :=
  ⟨rfl, rfl, rfl⟩

theorem witness_ExchangeByteIsMsbFirst :
    (hearing (List.replicate 8 true)).irq.inIsr = false ∧ (hearing (List.replicate 8 true)).ic = .oracle ∧
      (hearing (List.replicate 8 true)).env.sdi = List.replicate 8 true ++ [] ∧
      (List.replicate 8 true).length = 8 := ⟨rfl, rfl, rfl, rfl⟩

/-- The last address of `DEV`, and the first one. -/
theorem witness_WriteTransactionWaveform :
    LinkReady (hearing (List.replicate 24 true)) ∧ (0x6F#8).toNat ≤ 0x6F ∧ (0x00#8).toNat ≤ 0x6F ∧
      (hearing (List.replicate 24 true)).ic = .oracle ∧
      (hearing (List.replicate 24 true)).env.sdi = List.replicate 24 true ++ [] ∧
      (List.replicate 24 true).length = 24 := ⟨⟨rfl, rfl, rfl⟩, by decide, by decide, rfl, rfl, rfl⟩

theorem witness_ReadTransactionWaveform :
    LinkReady (hearing (List.replicate 24 true)) ∧ (0x6F#8).toNat ≤ 0x6F ∧
      (hearing (List.replicate 24 true)).ic = .oracle ∧
      (hearing (List.replicate 24 true)).env.sdi = List.replicate 24 true ++ [] ∧
      (List.replicate 24 true).length = 24 := ⟨⟨rfl, rfl, rfl⟩, by decide, rfl, rfl, rfl⟩

theorem witness_TransactionsAlwaysComplete : LinkReady bench ∧ (0x6F#8).toNat ≤ 0x6F := ⟨⟨rfl, rfl, rfl⟩, by decide⟩

theorem witness_FramesAreTransactions :
    (LinkReady bench ∧ (0x6F#7).toNat ≤ 0x6F) ∧ (bench.irq.inIsr = false ∧ 0x6F < (0x70#7).toNat) ∧
      handler.irq.inIsr = true ∧ (busy.irq.inIsr = false ∧ busy.sst.busy = true) ∧
      (lowClock.irq.inIsr = false ∧ lowClock.sst.busy = false ∧ lowClock.sst.sclk = false) :=
  ⟨⟨⟨rfl, rfl, rfl⟩, by decide⟩, ⟨rfl, by decide⟩, rfl, ⟨rfl, rfl⟩, rfl, rfl, rfl⟩

theorem witness_ChecksumIsSumAndXor : [0x1234#16, 0xABCD#16].Perm [0xABCD#16, 0x1234#16] :=
  List.Perm.swap 0xABCD#16 0x1234#16 []

/-- The whole of `DEV`, and an empty range; two frames' answers. -/
theorem witness_WriteBlockReturnsChecksum :
    bench.irq.inIsr = false ∧ bench.sst.busy = false ∧ (0x6F#8).toNat ≤ 0x6F ∧
      ((0x00#8).toNat ≤ (0x6F#8).toNat → bench.sst.sclk = true) ∧ (0x6E#8).toNat < (0x6F#8).toNat ∧
      (hearing (List.replicate 48 true)).ic = .oracle ∧
      (hearing (List.replicate 48 true)).env.sdi = List.replicate 48 true ++ [] ∧
      FrameAnswers ((0x22#8).toNat + 1 - (0x21#8).toNat) (List.replicate 2 (List.replicate 24 true)) :=
  ⟨rfl, rfl, by decide, fun _ => rfl, by decide, rfl, rfl, by unfold FrameAnswers; decide⟩

/-- The whole of `DEV`, an empty range, an element beyond a range; two frames' answers; `DevIdeal`, with the last
address of a range that ends at `0x6F`. -/
theorem witness_ReadBlockFillsBuffer :
    bench.irq.inIsr = false ∧ bench.sst.busy = false ∧ (0x6F#8).toNat ≤ 0x6F ∧
      ((0x00#8).toNat ≤ (0x6F#8).toNat → bench.sst.sclk = true) ∧ (0x6E#8).toNat < (0x6F#8).toNat ∧
      (0x22#8).toNat + 1 - (0x21#8).toNat ≤ 2 ∧
      (hearing (List.replicate 48 true)).ic = .oracle ∧
      (hearing (List.replicate 48 true)).env.sdi = List.replicate 48 true ++ [] ∧
      FrameAnswers ((0x22#8).toNat + 1 - (0x21#8).toNat) (List.replicate 2 (List.replicate 24 true)) ∧
      LinkReady ideal ∧ (∃ dev sh, ideal.ic = .ideal dev sh 0) ∧ (0x60#8).toNat + 15 ≤ (0x6F#8).toNat :=
  ⟨rfl, rfl, by decide, fun _ => rfl, by decide, by decide, rfl, rfl, by unfold FrameAnswers; decide, ⟨rfl, rfl, rfl⟩,
    ⟨_, _, rfl⟩, by decide⟩

/-- Program 5: the IC as the block write leaves it, with the rest of the machine back at the bench. -/
theorem witness_BlockRoundTripUnderDevIdeal :
    LinkReady ideal ∧ (0x22#8).toNat ≤ 0x6F ∧ (∃ dev sh, ideal.ic = .ideal dev sh 0) ∧
      ∃ t u, exec (.writeBlock 0x21 0x22) ideal = .next t ∧ LinkReady u ∧ u.ic = t.ic :=
  ⟨⟨rfl, rfl, rfl⟩, by decide, ⟨_, _, rfl⟩,
    _, { bench with ic := (writeBlockOp 0x21 0x22 ideal).ic }, rfl, ⟨rfl, rfl, rfl⟩, rfl⟩

theorem witness_TransportRefusesMisuse :
    (bench.irq.inIsr = false ∧ 0x6F < (0x70#8).toNat) ∧
      (busy.irq.inIsr = false ∧ busy.sst.busy = true ∧ (0x6F#8).toNat ≤ 0x6F) ∧ handler.irq.inIsr = true :=
  ⟨⟨rfl, by decide⟩, ⟨rfl, rfl, by decide⟩, rfl⟩

/-- One free place, and none. -/
theorem witness_RegisterButtonAppendsDescriptor :
    (({ bench with btn := [button .awaitPress true] } : State).irq.inIsr = false ∧
        ({ bench with btn := [button .awaitPress true] } : State).btn.length < board.maxButtons) ∧
      (({ bench with btn := List.replicate 2 (button .awaitPress true) } : State).irq.inIsr = false ∧
        board.maxButtons ≤ ({ bench with btn := List.replicate 2 (button .awaitPress true) } : State).btn.length) ∧
      handler.irq.inIsr = true := ⟨⟨rfl, by decide⟩, ⟨rfl, by decide⟩, rfl⟩

theorem witness_ServiceStepsEveryButton :
    ({ handler with btn := [button .awaitPress true], env := { bench.env with inp := [0xFB,
      0x04] } } : State).env.inp =
        [0xFB] ++ [0x04] ∧
      ({ handler with btn := [button .awaitPress true], env := { bench.env with inp := [0xFB, 0x04] } } :
        State).irq.inIsr = true ∧ [(0xFB : Byte)].length = [button .awaitPress true].length := ⟨rfl, rfl, rfl⟩

/-- The two contexts; a button whose state follows its level after the step, and one in R186's fourth row. -/
theorem witness_ServiceCompletesAndKeepsRest :
    handler.irq.inIsr = true ∧ bench.irq.inIsr = false ∧
      (∀ last : Bool, ∃ s : State,
        s = { handler with btn := [button .awaitPress last], env := { bench.env with inp := [0xFB] } } ∧
        s.irq.inIsr = true ∧ s.btn[0]? = some (button .awaitPress last) ∧
        (serviceStep s).btn[0]? = some (button (if last then .awaitRelease else .awaitPress) false) ∧
        ((button .awaitPress last).st = .awaitRelease → (button .awaitPress last).last = s.board.activeLevel)) := by
  refine ⟨rfl, rfl, fun last => ⟨_, rfl, rfl, rfl, ?_, nofun⟩⟩
  cases last <;> decide +kernel

/-- A release of a button, and one held since before its registration (R189). -/
theorem witness_ButtonEventsAlternate :
    (button .awaitPress true).st = .awaitPress ∧
      firedKinds false (button .awaitPress true) [false, true, false, true] = [false, true, false, true] ∧
      (∃ r ∈ (button .awaitPress true).last :: [false], r ≠ false) ∧
      (∃ r ∈ (button .awaitPress false).last :: [false, true], r ≠ false) ∧
      (button .awaitPress false).st = .awaitPress ∧
      ∀ r ∈ (button .awaitPress false).last :: [false, false], r = false := by decide

theorem witness_InitialLevelMattersOnlyWhenActive :
    (button .awaitPress true).st = .awaitPress ∧
      button .awaitPress false = { button .awaitPress true with last := (button .awaitPress false).last } ∧
      true ≠ false ∧ (button .awaitPress true).last ≠ false ∧ (button .awaitPress false).last = false := by decide

theorem witness_PushKeepsOrDropsEvent :
    (handler.irq.inIsr = true ∧ (queued [] 7 0).evq.head + 1 = (queued [] 7 0).evq.tail) ∧
      (queued [] 7 1).evq.head + 1 ≠ (queued [] 7 1).evq.tail ∧ (0 : BitVec 3) ≠ (queued [] 7 1).evq.head ∧
      ({ handler with evq := (queued [] 7 1).evq } : State).irq.inIsr = true ∧ bench.irq.inIsr = false := by
  decide +kernel

theorem witness_PollEventPopsOldest :
    ((queued [] 1 1).irq.inIsr = false ∧ (queued [] 1 1).evq.head = (queued [] 1 1).evq.tail) ∧
      ((queued [0x001] 0 7).irq.inIsr = false ∧ (queued [0x001] 0 7).evq.head ≠ (queued [0x001] 0 7).evq.tail) ∧
      handler.irq.inIsr = true := by decide +kernel

theorem witness_QueueIsBoundedFifo :
    (queued [] 3 4).evq.live.length = 7 ∧ (queued [] 7 1).evq.live.length < 7 ∧
      (queued [0x001, 0x101] 2 0).evq.live.head? = some 0x001 ∧ (queued [] 7 7).evq.live = [] := by decide +kernel

theorem witness_OverflowKeepsOldestSeven : (queued [] 7 7).evq.head = (queued [] 7 7).evq.tail := rfl

theorem witness_Crc16ComputesCheckWord : working.irq.inIsr = false ∧ handler.irq.inIsr = true := ⟨rfl, rfl⟩

theorem witness_CalLoadTakesValidRecord :
    (stored recordA).irq.inIsr = false ∧ (stored recordA).sst.busy = false ∧
      (recordOf (nvmImage (stored recordA))).sig = 0x55AA ∧
      crcOf (stored recordA).board.crc ((nvmImage (stored recordA)).take 44) =
        (recordOf (nvmImage (stored recordA))).crc := by decide +kernel

/-- Zeroed storage (a bad signature), and record A with a changed CRC byte; the answers of 21 frames; a field that
`FORCED` does not name, and one that it does. -/
theorem witness_CalLoadRecoversInvalidRecord :
    (LinkReady bench ∧ Memory.wf bench.nvm ∧ (recordOf (nvmImage bench)).sig ≠ 0x55AA) ∧
      (LinkReady (stored badCrc) ∧ Memory.wf (stored badCrc).nvm ∧ (recordOf (nvmImage (stored badCrc))).sig = 0x55AA ∧
        crcOf .modbus ((nvmImage (stored badCrc)).take 44) ≠ (recordOf (nvmImage (stored badCrc))).crc) ∧
      ((hearing (List.replicate 504 true)).ic = .oracle ∧
        (hearing (List.replicate 504 true)).env.sdi = List.replicate 504 true ++ [] ∧
        LinkReady (hearing (List.replicate 504 true)) ∧ 504 = 21 * 24) ∧
      (∀ p ∈ bench.board.forced, p.1 ≠ (20 : Fin 21)) ∧
      bench.board.forced = [(0, 0x0015)] ++ ((1 : Fin 21), (0xD174 : Half)) :: [(10, 0x9422)] ∧
      (∀ p ∈ [((10 : Fin 21), (0x9422 : Half))], p.1 ≠ (1 : Fin 21)) := by
  refine ⟨⟨⟨rfl, rfl, rfl⟩, ?_, ?_⟩, ⟨⟨rfl, rfl, rfl⟩, ?_, ?_, ?_⟩, ⟨rfl, (List.append_nil _).symm,
    ⟨rfl, rfl, rfl⟩, rfl⟩, by simp [bench, board], rfl, by simp⟩ <;> decide +kernel

/-- A bad signature, and a good one with a bad CRC; a field that `FORCED` does not name, and one that it does. -/
theorem witness_CalLoadDefaultsComeFromDevice :
    LinkReady ideal ∧ (∃ dev sh, ideal.ic = .ideal dev sh 0) ∧ (recordOf (nvmImage ideal)).sig ≠ 0x55AA ∧
      (LinkReady { stored badCrc with ic := ideal.ic } ∧ (recordOf (nvmImage (stored badCrc))).sig = 0x55AA ∧
        crcOf .modbus ((nvmImage (stored badCrc)).take 44) ≠ (recordOf (nvmImage (stored badCrc))).crc) ∧
      ideal.board = board ∧ (∀ p ∈ board.forced, p.1 ≠ (20 : Fin 21)) ∧
      board.forced = [(0, 0x0015)] ++ ((1 : Fin 21), (0xD174 : Half)) :: [(10, 0x9422)] ∧
      (∀ p ∈ [((10 : Fin 21), (0x9422 : Half))], p.1 ≠ (1 : Fin 21)) := by
  exact ⟨⟨rfl, rfl, rfl⟩, ⟨_, _, rfl⟩, by decide +kernel, ⟨⟨rfl, rfl, rfl⟩, by decide +kernel, by decide +kernel⟩, rfl,
    by simp [board], rfl, by simp⟩

theorem witness_CalReadFieldGivesValue :
    working.irq.inIsr = false ∧ working.cal.loaded = true ∧ (10#8).toNat ≤ 10 ∧
      (11 ≤ (11#8).toNat ∧ (11#8).toNat ≤ 20) ∧ (11 ≤ (20#8).toNat ∧ (20#8).toNat ≤ 20) := by decide +kernel

theorem witness_CalUpdateFieldSealsAndStores :
    working.irq.inIsr = false ∧ working.cal.loaded = true ∧ (20#8).toNat ≤ 20 ∧ Memory.wf working.nvm := by
  decide +kernel

theorem witness_CalPersistSealsAndStores :
    working.irq.inIsr = false ∧ working.cal.loaded = true ∧ Memory.wf working.nvm ∧
      working.cal.work.crc = crcOf working.board.crc (recordBody working.cal.work) ∧
      nvmImage working = recordBytes working.cal.work := by decide +kernel

theorem witness_StoreRefusesMisuse :
    (bench.irq.inIsr = false ∧ bench.cal.loaded = false) ∧
      (working.irq.inIsr = false ∧ working.cal.loaded = true ∧ 20 < (21#8).toNat) ∧
      (busy.irq.inIsr = false ∧ busy.sst.busy = true) ∧ handler.irq.inIsr = true := by decide +kernel

/-- An operation that makes a record write, and one that makes none. -/
theorem witness_DurableWritesAreCounted :
    (∃ t, exec .calPersist working = .next t) ∧ ∃ t, exec .pollEvent bench = .next t := ⟨⟨_, rfl⟩, ⟨_, rfl⟩⟩

theorem witness_ContextsAreSeparated :
    (Instr.pollEvent.opClass ≠ .wire ∧ handler.irq.inIsr = true ∧ Instr.pollEvent ≠ .snapshot ∧ Instr.pollEvent ≠ .advance ∧
        Instr.pollEvent ≠ .service ∧ ∀ ev, Instr.pollEvent ≠ .push ev) ∧
      (bench.irq.inIsr = false ∧ ∃ ev, Instr.push 0x001 = .push ev) :=
  ⟨⟨by decide, rfl, nofun, nofun, nofun, nofun⟩, rfl, _, rfl⟩

theorem witness_ContextsWriteOnlyTheirState :
    (∃ t, exec .service handler = .next t ∧ handler.irq.inIsr = true) ∧
      ∃ t, exec .pollEvent bench = .next t ∧ bench.irq.inIsr = false := ⟨⟨_, rfl, rfl⟩, ⟨_, rfl, rfl⟩⟩

/-- The bench with a tick event pending. -/
def pended (t : Tick) : State := { atTick t with irq := { bench.irq with pending := true } }

theorem witness_InterruptEntryAndReturn :
    ((pended 0).irq.inIsr = false ∧ (pended 0).irq.pending = true ∧ (pended 0).irq.masked = false) ∧
      (handler.irq.inIsr = true ∧ handler.irq.op = none) := ⟨⟨rfl, rfl, rfl⟩, rfl, rfl⟩

/-- A tick event that is the sixteenth, and one that is not. -/
theorem witness_HandlerRunsTimerIsr :
    ((pended 15).irq.inIsr = false ∧ (pended 15).irq.pending = true ∧ (pended 15).irq.masked = false ∧
        ((pended 15).tick + 1).extractLsb' 0 4 = 0#4) ∧ ((pended 16).tick + 1).extractLsb' 0 4 ≠ 0#4 := by
  decide +kernel

theorem witness_TickInsideSnapshotIsDelayed :
    ∃ s : State, s = { asked 0x00000000000000 with env := { bench.env with midTick := true } } ∧
      s.irq.inIsr = false ∧ s.irq.pending = false ∧ s.irq.masked = false ∧
      s.port.request = some (.host 0x00000000000000) ∧ s.port.spinning = false ∧ s.env.midTick = true :=
  ⟨_, rfl, rfl, rfl, rfl, rfl, rfl, rfl⟩

/-- Instructions at the ends of the operand ranges. -/
theorem witness_DecodeReadsEncodedInstruction :
    (Instr.writeTransaction 0x6F 0xFFFF).wellFormed = true ∧ (Instr.calUpdateField 20 0xFFFF).wellFormed = true ∧
      (Instr.registerButton 0xFF 0xFF 0xFF).wellFormed = true ∧ (Instr.crc16 44).wellFormed = true ∧
      (Instr.frameRead 0x6F 0xFFFF).wellFormed = true := by decide

theorem witness_UnusedBitsAreIgnored :
    decodeCw 0x00DEADBEEF1234 = .ok .snapshot ∧ decodeCw 0x11FFFFFF6FFFFF = .ok (.readTransaction 0x6F) := by
  decide +kernel

/-- A reserved word, an assigned word of another class; a second command and a write of `BUF` while an operation
waits; with nothing in progress a command, and writes of the last element of `BUF` and of the one beyond it. -/
theorem witness_HostMayNotIssueOthers :
    (∀ cw, (asked cw).irq.inIsr = false ∧ (asked cw).irq.pending = false ∧
        (asked cw).port.request = some (.host cw) ∧ (asked cw).port.spinning = false) ∧
      decodeCw 0xC0000000000000 = .error .reservedClass ∧
      (decodeCw 0x520000000000A1 = .ok (.exchangeByte 0xA1) ∧ (Instr.exchangeByte 0xA1).opClass ≠ .foreground) ∧
      (∀ i, (waiting [i]).irq.inIsr = false ∧ (waiting [i]).irq.pending = false ∧
        (waiting [i]).port.request.isSome = true ∧ (waiting [i]).port.spinning = true ∧
        (waiting [i]).env.inbox = i :: []) ∧
      (∀ i, (facing [i]).irq.inIsr = false ∧ (facing [i]).irq.pending = false ∧ (facing [i]).port.request = none ∧
        (facing [i]).env.inbox = i :: []) ∧ 111 < 112 ∧ 112 ≤ 112 :=
  ⟨fun _ => ⟨rfl, rfl, rfl, rfl⟩, by decide +kernel, ⟨by decide +kernel, by decide⟩,
    fun _ => ⟨rfl, rfl, rfl, rfl, rfl⟩, fun _ => ⟨rfl, rfl, rfl, rfl⟩, by decide, by decide⟩

/-- A host command, an internal operation, a frame, an operation of the handler. -/
theorem witness_StepRunsDecodedOperation :
    (∃ t, exec .pollEvent (asked 0x19000000000000) = .next t ∧ decodeCw 0x19000000000000 = .ok .pollEvent ∧
        (asked 0x19000000000000).irq.inIsr = false ∧ (asked 0x19000000000000).irq.pending = false ∧
        (asked 0x19000000000000).port.spinning = false) ∧
      (∃ t, exec (.crc16 44) { bench with port := { bench.port with request := some (.inner 0x600000002C0000) } } =
          .next t ∧ decodeCw 0x600000002C0000 = .ok (.crc16 44)) ∧
      (∃ t, exec (.frameRead 0x21 0) { bench with port := { bench.port with request := some (.frame 0xA10000) } } =
          .next t ∧ decodeFrame 0xA10000 = .frameRead 0x21 0) ∧
      ∃ t, exec .advance { handler with irq := { handler.irq with op := some 0x80000000000000 } } = .next t ∧
        decodeCw 0x80000000000000 = .ok .advance :=
  ⟨⟨_, rfl, by decide +kernel, rfl, rfl, rfl⟩, ⟨_, rfl, by decide +kernel⟩, ⟨_, rfl, by decide +kernel⟩,
    ⟨_, rfl, by decide +kernel⟩⟩

/-- With a record stored: between operations, and while `BLOCK_UNTIL` waits. -/
theorem witness_ResetKeepsDurableRecord :
    (∀ i, ∃ s : State, s = { working with env := { bench.env with inbox := [i, .tick] } } ∧ s.irq.inIsr = false ∧
      s.irq.pending = false ∧ s.port.request = none ∧ Memory.wf s.nvm ∧ s.env.inbox = i :: [.tick]) ∧
    ∀ i, (waiting [i]).irq.inIsr = false ∧ (waiting [i]).irq.pending = false ∧ (waiting [i]).port.spinning = true ∧
      (waiting [i]).port.request.isSome = true ∧ (waiting [i]).env.inbox = i :: [] :=
  ⟨fun _ => ⟨_, rfl, rfl, rfl, rfl,
    (by decide +kernel : Memory.wf working.nvm), rfl⟩, fun _ => ⟨rfl, rfl, rfl, rfl, rfl⟩⟩

theorem witness_StepKeepsMemoryForm : Memory.wf working.nvm ∧ ∃ t, step working = .next t :=
  ⟨by decide +kernel, _, rfl⟩

/-- Record A loaded, an operation in progress, a button awaiting its release: `Inv` holds, and a step is made. -/
theorem witness_StepKeepsInvariant :
    ∃ s t : State, s = { working with
        btn := [button .awaitRelease false]
        port := { bench.port with request := some (.host 0x23000000000000) } } ∧ Inv s ∧ step s = .next t := by
  refine ⟨_, _, rfl, ?_, rfl⟩
  exact
    { memoryForm := by decide +kernel
      storeFits := by decide
      clockIdle := rfl
      linkFree := rfl
      unmasked := rfl
      handlerOp := rfl
      hostRequests := .inr ⟨_, rfl⟩
      waitsInOperation := fun h => by cases h
      doneLow := fun _ => rfl
      storeSealed := fun _ => by decide +kernel
      releaseActive := by decide }

end Sys2Proof.Tests
end

section
/-! SUPPORT. Proofs for the family of the machine's memory: which elements each context may write, what a step adds to
the operation it performs, and the canonical form of the durable memory. -/

namespace Sys2Proof.Machine

-- ---------------------------------------------------------------- contexts (R74, R60, R21)

/-- Settles O45: `exec_frame` holds both contexts' frames. -/
theorem contextsWriteOnlyTheirState : Obligations.ContextsWriteOnlyTheirState := by
  intro i s t h
  have frame := exec_frame h
  refine ⟨frame.inIsr, frame.board, fun isr => ?_, fun fg => ?_⟩
  · obtain ⟨sst, cal, ic, tail, nvm, -⟩ := frame.isrKeeps isr
    exact ⟨sst, cal, ic, tail, fun a => by rw [nvm]⟩
  · obtain ⟨tick, head, slot, -⟩ := frame.fgKeeps fg
    exact ⟨tick, head, slot⟩

-- ---------------------------------------------------------------- the operation a step performs (R75, R97, R247)

theorem fetchWord_of_decodeCw {cw : CommandWord} {i : Instr} (hd : decodeCw cw = .ok i) :
    fetchWord cw i.opClass = .perform i := by
  simp [fetchWord, hd]

/-- The converse of `nextAction_perform`: the operation that stands where the machine takes its next one from is
performed, unless a pending tick event interrupts the foreground first (R248). -/
theorem nextAction_of_fetched {s : State} {i : Instr} (h : Fetched s i)
    (hq : s.irq.inIsr = false → s.irq.pending = false ∨ s.irq.masked = true) : nextAction s = .perform i := by
  have quiet : s.irq.inIsr = false → (s.irq.pending && !s.irq.masked) = false := fun hi => by
    rcases hq hi with hp | hm
    · rw [hp, Bool.false_and]
    · rw [hm, Bool.not_true, Bool.and_false]
  cases h with
  | handler cw hi ho hd => simp [nextAction, hi, ho, fetchHandler, hd]
  | host cw hi hw hr hd hc =>
    have hf := fetchWord_of_decodeCw hd
    rw [hc] at hf
    simp [nextAction, hi, quiet hi, hr, hw, fetchRequest, hf]
  | inner cw hi hw hr hd hc =>
    have hf := fetchWord_of_decodeCw hd
    rw [hc] at hf
    simp [nextAction, hi, quiet hi, hr, hw, fetchRequest, hf]
  | frame f hi hw hr hd => simp [nextAction, hi, quiet hi, hr, hw, fetchRequest, hd]

theorem step_of_fetched {s t : State} {i : Instr} (h : Fetched s i)
    (hq : s.irq.inIsr = false → s.irq.pending = false ∨ s.irq.masked = true) (he : exec i s = .next t) :
    step s = .next (afterOperation i t) := by
  simp only [step, nextAction_of_fetched h hq, he]

theorem afterOperation_foreground (i : Instr) {t : State} (h : t.irq.inIsr = false) :
    afterOperation i t = if t.port.spinning then t else { t with port := { t.port with request := none } } := by
  simp [afterOperation, h]

theorem afterOperation_handler (i : Instr) {t : State} (h : t.irq.inIsr = true) :
    afterOperation i t = handlerAfter i t := by
  simp [afterOperation, h]

/-- The service step is due at the ticks whose low four bits are 0 (R184). -/
theorem serviceDue_iff (tick : Tick) : serviceDue tick = true ↔ tick.extractLsb' 0 4 = 0#4 := by
  simp [serviceDue, Config.serviceDiv, ← BitVec.toNat_inj]

theorem serviceWord_eq : serviceWord = 0x98000000000000#56 := rfl

theorem handlerAfter_eq (i : Instr) (t : State) :
    handlerAfter i t =
      { t with irq := { t.irq with
          op := if i = .advance ∧ t.tick.extractLsb' 0 4 = 0#4 then some 0x98000000000000#56 else none } } := by
  simp only [handlerAfter, serviceDue_iff, serviceWord_eq]

/-- Settles O55: the step is `exec` and then `afterOperation`, whose context is the operation's (`exec_frame`). -/
theorem stepRunsDecodedOperation : Obligations.StepRunsDecodedOperation := by
  intro s t i he
  have hctx : t.irq.inIsr = s.irq.inIsr := (exec_frame he).inIsr
  constructor
  · intro hi hq hw hfetch
    have fetched : Fetched s i := by
      rcases hfetch with ⟨cw, hr, hd, hc⟩ | ⟨cw, hr, hd, hc⟩ | ⟨f, hr, hd⟩
      · exact .host cw hi hw hr hd hc
      · exact .inner cw hi hw hr hd hc
      · exact .frame f hi hw hr hd
    rw [step_of_fetched fetched (fun _ => hq) he, afterOperation_foreground i (hctx.trans hi)]
  · rintro hi ⟨cw, ho, hd⟩
    have notForeground : s.irq.inIsr ≠ false := by simp [hi]
    rw [step_of_fetched (.handler cw hi ho hd) (absurd · notForeground) he,
      afterOperation_handler i (hctx.trans hi), handlerAfter_eq]

-- ---------------------------------------------------------------- the canonical form of the memory (R62)

/-- An operation writes storage only by a record write, which keeps the canonical form. -/
theorem exec_keeps_wf {i : Instr} {s t : State} (h : Memory.wf s.nvm) (he : exec i s = .next t) :
    Memory.wf t.nvm := by
  rcases (exec_frame he).writes with ⟨-, hnvm, -⟩ | ⟨_, _, -, hnvm, -⟩
  · rw [hnvm]; exact h
  · rw [hnvm]; exact memWriteList_wf _ _ h

@[simp] theorem afterOperation_nvm (i : Instr) (t : State) : (afterOperation i t).nvm = t.nvm := by
  unfold afterOperation
  split
  · rfl
  · split <;> rfl

/-- Of the inputs only a loss of power in a record write touches storage (R82). -/
theorem InputMove.keeps_wf {s t : State} (m : InputMove s t) (h : Memory.wf s.nvm) : Memory.wf t.nvm := by
  cases m with
  | timer => rw [tickArrives_nvm, drawIteration_nvm]; exact h
  | powerLoss image => exact memWriteList_wf _ image.toList h
  | tick | midTick | iterate | command | bufWrite | reset => exact h

theorem Moves.keeps_wf {s t : State} (m : Moves s t) (h : Memory.wf s.nvm) : Memory.wf t.nvm := by
  cases m with
  | leave | entry => exact h
  | idle _ _ _ input | waiting _ _ _ _ input => exact input.keeps_wf h

/-- Settles O58, by the two kinds of step (`step_next`): an operation, and a move without one. -/
theorem stepKeepsMemoryForm : Obligations.StepKeepsMemoryForm := by
  intro s t h hstep
  rcases step_next hstep with ⟨i, u, -, he, rfl⟩ | move
  · rw [afterOperation_nvm]; exact exec_keeps_wf h he
  · exact move.keeps_wf h

end Sys2Proof.Machine
end

section
/-! SUPPORT. Proofs for the family of the encodings: an instruction is read back from its words, bits a format does not
name are ignored, a wire frame does what the transaction of the same bits does, and the host's requests that have no
step. -/

namespace Sys2Proof

-- ---------------------------------------------------------------- the fields of the words (R93, R99)

/-- An operand sent in the low bits of a wider field is read back from them (R93). -/
@[simp] theorem extractLsb'_setWidth_self {w n : Nat} (h : w ≤ n) (x : BitVec w) :
    (x.setWidth n).extractLsb' 0 w = x := by
  rw [BitVec.extractLsb'_setWidth_of_le (by omega), BitVec.extractLsb'_eq_self]

/-- Two bytes sent side by side in the first operand are read back apart (R94). -/
theorem extractLsb'_zeroExtend_append (hi lo : Byte) :
    ((hi ++ lo).zeroExtend 32).extractLsb' 0 8 = lo ∧ ((hi ++ lo).zeroExtend 32).extractLsb' 8 8 = hi := by
  rw [BitVec.extractLsb'_setWidth_of_le (by omega), BitVec.extractLsb'_setWidth_of_le (by omega)]
  exact ⟨BitVec.extractLsb'_append_eq_right, BitVec.extractLsb'_append_eq_left⟩

/-- The fields of 24 bits on the wire: direction, address, data (R99). -/
theorem frame_fields (dir : BitVec 1) (addr : BitVec 7) (data : Half) :
    (dir ++ addr ++ data).getLsbD 23 = dir.getLsbD 0 ∧
      (dir ++ addr ++ data).extractLsb' 16 7 = addr ∧
      (dir ++ addr ++ data).extractLsb' 0 16 = data := by
  refine ⟨?_, ?_, BitVec.extractLsb'_append_eq_right⟩
  · rw [BitVec.getLsbD_append, BitVec.getLsbD_append]
    rfl
  · rw [BitVec.extractLsb'_append_eq_ite, dif_neg (by omega)]
    exact BitVec.extractLsb'_append_eq_right

theorem decodeFrame_append (dir : BitVec 1) (addr : BitVec 7) (data : Half) :
    decodeFrame (dir ++ addr ++ data) =
      if dir.getLsbD 0 then .frameRead addr data else .frameWrite addr data := by
  obtain ⟨hdir, haddr, hdata⟩ := frame_fields dir addr data
  rw [decodeFrame, hdir, haddr, hdata]

theorem frame_eq_append (f : FrameWord) :
    f = BitVec.ofBool (f.getLsbD 23) ++ f.extractLsb' 16 7 ++ f.extractLsb' 0 16 := by
  have hdir : BitVec.ofBool (f.getLsbD 23) = f.extractLsb' 23 1 := by
    rw [← BitVec.setWidth_ushiftRight_eq_extractLsb, BitVec.setWidth_one, BitVec.getLsbD_ushiftRight]
  have haddr : f.extractLsb' 23 1 ++ f.extractLsb' 16 7 = f.extractLsb' 16 8 :=
    BitVec.extractLsb'_append_extractLsb'_eq_extractLsb' rfl
  have hdata : f.extractLsb' 16 8 ++ f.extractLsb' 0 16 = f.extractLsb' 0 24 :=
    BitVec.extractLsb'_append_extractLsb'_eq_extractLsb' rfl
  rw [hdir, haddr, hdata, BitVec.extractLsb'_eq_self]

-- ---------------------------------------------------------------- decoder and encoder (R91 to R96, R98, R99)

/-- For operands of any value: the decoder checks none (R96 f). -/
theorem decode_encode (i : Instr) : decode (encode i) = .ok i := by
  cases i with
  | snapshot | formatElapsed | pollEvent | calLoad | calPersist | startCond | advance | service => rfl
  | computeDeadline | isExpired | blockUntil => exact decodeCw_mkCw rfl
  | writeTransaction | readTransaction | calReadField | calUpdateField | exchangeBit | exchangeByte | push | crc16 =>
    exact decodeCw_mkCw (by simp [decodeOp])
  | writeBlock | readBlock | registerButton =>
    exact decodeCw_mkCw (by simp [decodeOp, extractLsb'_zeroExtend_append])
  | frameWrite addr data => exact congrArg Except.ok (decodeFrame_append 0b0#1 addr data)
  | frameRead addr dummy => exact congrArg Except.ok (decodeFrame_append 0b1#1 addr dummy)

/-- Settles O50: no operand has to be one the spec admits for its word to be read back. -/
theorem decodeReadsEncodedInstruction : Obligations.DecodeReadsEncodedInstruction :=
  fun i _ => decode_encode i

theorem decodeFrame_of_write {f : FrameWord} (h : f.getLsbD 23 = false) :
    decodeFrame f = .frameWrite (f.extractLsb' 16 7) (f.extractLsb' 0 16) := by
  rw [decodeFrame, h]
  rfl

theorem decodeFrame_of_read {f : FrameWord} (h : f.getLsbD 23 = true) :
    decodeFrame f = .frameRead (f.extractLsb' 16 7) (f.extractLsb' 0 16) :=
  if_pos h

/-- Settles O51, by the direction bit. -/
theorem frameWordsRoundTrip : Obligations.FrameWordsRoundTrip := by
  intro f
  have hbits := frame_eq_append f
  cases hdir : f.getLsbD 23 with
  | false =>
    rw [hdir] at hbits
    rw [decodeFrame_of_write hdir]
    exact ⟨congrArg Word.frame hbits.symm, by simp⟩
  | true =>
    rw [hdir] at hbits
    rw [decodeFrame_of_read hdir]
    exact ⟨congrArg Word.frame hbits.symm, by simp⟩

theorem decodeCw_ok {cw : CommandWord} {i : Instr} (h : decodeCw cw = .ok i) :
    decodeOp (cwOp cw) (cwA cw) (cwB cw) = some i := by
  unfold decodeCw at h
  split at h
  · rename_i j hj
    cases h
    exact hj
  · split at h <;> cases h

/-- The operation an operation byte asks for is sent with that operation byte (R94). -/
theorem encode_of_decodeOp {op : Byte} {a : BitVec 32} {b : BitVec 16} {i : Instr} (h : decodeOp op a b = some i) :
    ∃ cw, encode i = .command cw ∧ cwOp cw = op := by
  unfold decodeOp at h
  split at h <;> cases h
  all_goals
    rename_i hop
    exact ⟨_, rfl, (cwOp_mkCw _ _ _).trans (BitVec.eq_of_toNat_eq hop.symm)⟩

/-- Settles O52: the operation's own word is the encoder's; each of the 22 rows is `decodeOp` at its byte. -/
theorem unusedBitsAreIgnored : Obligations.UnusedBitsAreIgnored := by
  refine ⟨fun cw i h => ?_, fun a b => ?_⟩
  · obtain ⟨cw', hword, hop⟩ := encode_of_decodeOp (decodeCw_ok h)
    have hread := decode_encode i
    rw [hword] at hread
    exact ⟨cw', hword, hop, hread⟩
  · and_intros <;> exact decodeCw_mkCw rfl

/-- Settles O53: the words are closed. -/
theorem wordsOfTheTableDecode : Obligations.WordsOfTheTableDecode := by
  and_intros <;> decide

end Sys2Proof

namespace Sys2Proof.Machine

-- ---------------------------------------------------------------- the wire frames (R99, R154, R155, R160, R151)

theorem writeFrameOf_zeroExtend (addr : BitVec 7) (data : Half) :
    writeFrameOf (addr.zeroExtend 8) data = 0b0#1 ++ addr ++ data := by
  have haddr : addr.zeroExtend 8 = 0b0#1 ++ addr := BitVec.setWidth_eq_append (by omega)
  rw [writeFrameOf_eq, haddr]

theorem readAddress_zeroExtend (addr : BitVec 7) : readAddress (addr.zeroExtend 8) = 0b1#1 ++ addr := by
  decide +revert

/-- A read frame is laid out as a write frame of the read address and two dummy bytes (R155). -/
theorem readFrameOf_eq (addr dummy : Byte) : readFrameOf addr dummy = readAddress addr ++ (dummy ++ dummy) := by
  rw [← writeFrameOf_eq, writeFrameOf, hi8, lo8, BitVec.extractLsb'_append_eq_left,
    BitVec.extractLsb'_append_eq_right, readFrameOf]

theorem readFrameOf_zeroExtend (addr : BitVec 7) (dummy : Byte) :
    readFrameOf (addr.zeroExtend 8) dummy = 0b1#1 ++ addr ++ (dummy ++ dummy) := by
  rw [readFrameOf_eq, readAddress_zeroExtend]

theorem onIdleLink_ready {addr : Nat} {s : State} (k : Host.Outcome State Fault Refusal) (h : LinkReady s)
    (ha : addr ≤ 0x6F) : onIdleLink addr s k = k := by
  obtain ⟨hisr, hbusy, hsclk⟩ := h
  simp [onIdleLink, foregroundOnly, linkRefusal, Config.devAddrMax, hisr, hbusy, hsclk, ha]

theorem onIdleLink_handler {s : State} (addr : Nat) (k : Host.Outcome State Fault Refusal)
    (h : s.irq.inIsr = true) : onIdleLink addr s k = .refused .contextForbidden := by
  simp [onIdleLink, foregroundOnly, h]

theorem onIdleLink_outOfRange {addr : Nat} {s : State} (k : Host.Outcome State Fault Refusal)
    (hisr : s.irq.inIsr = false) (ha : 0x6F < addr) : onIdleLink addr s k = .refused .addrOutOfRange := by
  simp [onIdleLink, foregroundOnly, Config.devAddrMax, hisr, Nat.not_le.mpr ha]

theorem onIdleLink_busy {addr : Nat} {s : State} (k : Host.Outcome State Fault Refusal)
    (hisr : s.irq.inIsr = false) (ha : addr ≤ 0x6F) (hbusy : s.sst.busy = true) :
    onIdleLink addr s k = .refused .transportBusy := by
  simp [onIdleLink, foregroundOnly, linkRefusal, Config.devAddrMax, hisr, hbusy, ha]

theorem onIdleLink_lowClock {addr : Nat} {s : State} (k : Host.Outcome State Fault Refusal)
    (hisr : s.irq.inIsr = false) (ha : addr ≤ 0x6F) (hbusy : s.sst.busy = false) (hsclk : s.sst.sclk = false) :
    onIdleLink addr s k = .refused .lineNotIdle := by
  simp [onIdleLink, foregroundOnly, linkRefusal, Config.devAddrMax, hisr, hbusy, hsclk, ha]

theorem toNat_zeroExtend_address (addr : BitVec 7) : (addr.zeroExtend 8).toNat = addr.toNat :=
  BitVec.toNat_setWidth_of_le (by omega)

theorem writeRegister_eq_transact (addr : BitVec 7) (data : Half) (s : State) :
    writeRegister (addr.zeroExtend 8) data s = (transact (0b0#1 ++ addr ++ data) s).2 := by
  rw [writeRegister, writeFrameOf_zeroExtend]

theorem readRegister_eq_transact (addr : BitVec 7) (s : State) :
    readRegister (addr.zeroExtend 8) s = transact (0b1#1 ++ addr ++ (s.board.dummyByte ++ s.board.dummyByte)) s := by
  rw [readRegister, readFrameOf_zeroExtend]

/-- What a transaction gives to the host is in the interface alone (R97). -/
theorem eq_finish_with_port {s t : State} (v : BitVec 32) (h : t.port = s.port) :
    t = { finish v t with port := s.port } := by
  rw [← h]
  rfl

/-- The caller gets in `innerRes` what the host gets in `RES` (log 6). -/
theorem giveInner_eq_finish {s t : State} (v : BitVec 32) (h : t.port = s.port) :
    giveInner v t = { finish v t with port := { s.port with innerRes := (finish v t).port.res } } := by
  rw [← h]
  rfl

/-- An operation of the link that gives its result to its caller keeps everything else (R80). -/
theorem giveInner_eq_of_linkFrame {s t u : State} {v : BitVec 32} (hu : u = giveInner v t) (h : LinkFrame s t) :
    u = { s with sst := u.sst, port := u.port, log := u.log, ic := u.ic, env := u.env } := by
  subst hu
  exact congrArg (fun w : State => { w with port := { t.port with innerRes := v } }) h.eq

/-- Settles O19: a frame and its transaction stand behind the same guard (`onIdleLink`) and send the same 24 bits. -/
theorem framesAreTransactions : Obligations.FramesAreTransactions := by
  intro addr data s
  have haddr := toNat_zeroExtend_address addr
  refine ⟨fun ready ha => ⟨?_, ?_, fun dummy => ?_⟩, fun hisr ha => ?_, fun hisr => ?_, fun hisr ha hbusy => ?_,
    fun hisr ha hbusy hsclk => ?_⟩
  · refine ⟨_, _, onIdleLink_ready _ ready ha, onIdleLink_ready _ ready (haddr.trans_le ha), ?_⟩
    rw [writeRegister_eq_transact]
    exact eq_finish_with_port 0 (transact_spec _ s).1.port
  · refine ⟨_, _, onIdleLink_ready _ ready ha, onIdleLink_ready _ ready (haddr.trans_le ha), ?_⟩
    rw [readRegister_eq_transact]
    exact giveInner_eq_finish _ (transact_spec _ s).1.port
  · exact ⟨_, onIdleLink_ready _ ready ha, giveInner_eq_of_linkFrame rfl (transact_spec _ s).1⟩
  · exact ⟨onIdleLink_outOfRange _ hisr ha, onIdleLink_outOfRange _ hisr ha⟩
  · exact ⟨onIdleLink_handler _ _ hisr, onIdleLink_handler _ _ hisr⟩
  · exact ⟨onIdleLink_busy _ hisr ha hbusy, onIdleLink_busy _ hisr ha hbusy⟩
  · exact ⟨onIdleLink_lowClock _ hisr ha hbusy hsclk, onIdleLink_lowClock _ hisr ha hbusy hsclk,
      onIdleLink_lowClock _ hisr (haddr.trans_le ha) hbusy hsclk,
      onIdleLink_lowClock _ hisr (haddr.trans_le ha) hbusy hsclk⟩

-- ---------------------------------------------------------------- what the host may do (R96, R97, R262, R33)

theorem step_of_refuse {s : State} {r : Refusal} (h : nextAction s = .refuse r) : step s = .refused r := by
  simp [step, h]

theorem step_of_moved {s t : State} (h : nextAction s = .moved t) : step s = .next t := by
  simp [step, h]

theorem step_of_broken {s : State} {r : Fault} (h : nextAction s = .broken r) : step s = .fault r := by
  simp [step, h]

theorem nextAction_of_request {s : State} {r : Request} (hisr : s.irq.inIsr = false) (hpend : s.irq.pending = false)
    (hreq : s.port.request = some r) (hspin : s.port.spinning = false) : nextAction s = fetchRequest r := by
  simp [nextAction, hisr, hpend, hreq, hspin]

theorem nextAction_of_waiting {s : State} (hisr : s.irq.inIsr = false) (hpend : s.irq.pending = false)
    (hspin : s.port.spinning = true) : nextAction s = takeInput s := by
  cases hreq : s.port.request <;> simp [nextAction, hisr, hpend, hreq, hspin]

theorem nextAction_of_idle {s : State} (hisr : s.irq.inIsr = false) (hpend : s.irq.pending = false)
    (hreq : s.port.request = none) : nextAction s = takeInput s := by
  simp [nextAction, hisr, hpend, hreq]

theorem fetchWord_of_error {cw : CommandWord} {e : Reject} (cls : OpClass) (h : decodeCw cw = .error e) :
    fetchWord cw cls = .refuse .reservedOp := by
  simp [fetchWord, h]

theorem fetchWord_of_otherClass {cw : CommandWord} {cls : OpClass} {i : Instr} (h : decodeCw cw = .ok i)
    (hcls : i.opClass ≠ cls) : fetchWord cw cls = .refuse .notIssuable := by
  simp [fetchWord, h, hcls]

theorem takeHost_of_request {s : State} (k : Action) (h : s.port.request.isSome = true) :
    takeHost s k = .refuse .secondCommand :=
  if_pos h

theorem takeHost_of_idle {s : State} (k : Action) (h : s.port.request = none) : takeHost s k = k := by
  simp [takeHost, h]

theorem takeInput_command {s : State} {cw : CommandWord} {rest : List Input}
    (h : s.env.inbox = .command cw :: rest) :
    takeInput s =
      takeHost s (.moved { s with
        port := { s.port with request := some (.host cw), done := false }
        env := { s.env with inbox := rest } }) := by
  simp [takeInput, consume, h]

theorem takeInput_bufWrite {s : State} {k : Nat} {v : Half} {rest : List Input}
    (h : s.env.inbox = .bufWrite k v :: rest) :
    takeInput s =
      takeHost s (if k < 112 then
        .moved { s with
          sst := { s.sst with buf := s.sst.buf.setIfInBounds k v }
          env := { s.env with inbox := rest } }
      else .broken .noSuchAddress) := by
  simp [takeInput, consume, h, Config.bufLen]

/-- A write of one element is `storeBuf` with one value. -/
theorem bufAt_setIfInBounds {k : Nat} (hk : k < 112) (v : Half) (buf : Vector Half 112) (j : Nat) :
    bufAt (buf.setIfInBounds k v) j = if j = k then v else bufAt buf j := by
  have h : bufAt (buf.setIfInBounds k v) j = _ := bufAt_storeBuf k [v] buf (by simpa using hk) j
  rw [h]
  by_cases hj : j = k
  · subst hj
    simp
  · rw [if_neg (by simp; omega), if_neg hj]

/-- Settles O54, by what the machine does next: the host's request (`nextAction_of_request`), or its input
(`takeInput_command`, `takeInput_bufWrite`). -/
theorem hostMayNotIssueOthers : Obligations.HostMayNotIssueOthers := by
  intro s hisr hpend
  refine ⟨fun cw hreq hspin => ?_, fun hreq hspin i rest hbox hi => ?_, fun hreq cw rest hbox => ?_,
    fun hreq k v rest hbox => ?_⟩
  · have fetched := nextAction_of_request hisr hpend hreq hspin
    exact ⟨fun e he => step_of_refuse (fetched.trans (fetchWord_of_error _ he)),
      fun i hi hcls => step_of_refuse (fetched.trans (fetchWord_of_otherClass hi hcls))⟩
  · have taken := nextAction_of_waiting hisr hpend hspin
    rcases hi with ⟨cw, rfl⟩ | ⟨k, v, rfl⟩
    · exact step_of_refuse (taken.trans ((takeInput_command hbox).trans (takeHost_of_request _ hreq)))
    · exact step_of_refuse (taken.trans ((takeInput_bufWrite hbox).trans (takeHost_of_request _ hreq)))
  · have taken := nextAction_of_idle hisr hpend hreq
    exact step_of_moved (taken.trans ((takeInput_command hbox).trans (takeHost_of_idle _ hreq)))
  · have taken := (nextAction_of_idle hisr hpend hreq).trans
      ((takeInput_bufWrite hbox).trans (takeHost_of_idle _ hreq))
    refine ⟨fun hk => ?_, fun hk => ?_⟩
    · rw [if_pos hk] at taken
      refine ⟨_, step_of_moved taken, ?_, fun j hj => ?_, rfl⟩
      · exact (bufAt_setIfInBounds hk v s.sst.buf k).trans (if_pos rfl)
      · exact (bufAt_setIfInBounds hk v s.sst.buf j).trans (if_neg hj)
    · rw [if_neg (Nat.not_lt.mpr hk)] at taken
      exact step_of_broken taken

end Sys2Proof.Machine
end

section
/-! SUPPORT. Proofs for the family of the Tick Clock: what `ADVANCE` and `SNAPSHOT` do in each context, and what a step
does to `TICK` and to the count of served tick events. -/

namespace Sys2Proof.Machine

-- ---------------------------------------------------------------- the Tick Clock's operations (R121, R122, R255)

theorem interruptOnly_handler {s : State} (k : Host.Outcome State Fault Refusal) (h : s.irq.inIsr = true) :
    interruptOnly s k = k :=
  if_pos h

theorem interruptOnly_foreground {s : State} (k : Host.Outcome State Fault Refusal) (h : s.irq.inIsr = false) :
    interruptOnly s k = .refused .contextForbidden := by
  simp [interruptOnly, h]

/-- Settles O1, by the guard of the handler's operations. -/
theorem advanceAddsOneTick : Obligations.AdvanceAddsOneTick :=
  fun s => ⟨interruptOnly_handler (.next (advanceTick s)), interruptOnly_foreground (.next (advanceTick s))⟩

/-- A foreground operation that only reads in its critical section leaves its result and the section's trace
(R97, R122, R249). -/
theorem finish_critical_read (v : BitVec 32) (s : State) :
    finish v (critical (fun t => t) s) =
      { s with port := doneWith s v, irq := afterSection s, env := envAfterSection s } := by
  rw [critical_read]
  rfl

theorem execSnapshot_foreground {s : State} (h : s.irq.inIsr = false) :
    execSnapshot s = .next (finish s.tick (critical (fun t => t) s)) := by
  simp [execSnapshot, snapshotTick, h]

theorem execSnapshot_handler {s : State} (h : s.irq.inIsr = true) :
    execSnapshot s = .next (giveInner s.tick s) :=
  if_pos h

/-- Settles O2: the foreground's one critical section only reads (`finish_critical_read`). -/
theorem snapshotReturnsWholeTick : Obligations.SnapshotReturnsWholeTick := by
  refine fun s => ⟨fun foreground => ?_, execSnapshot_handler⟩
  rw [← finish_critical_read]
  exact execSnapshot_foreground foreground

-- ---------------------------------------------------------------- TICK over a step (R123, R270, R82)

/-- What the step adds to an operation is in the interrupt state and the interface alone (R97, R247). -/
theorem afterOperation_eq (i : Instr) (t : State) :
    afterOperation i t = { t with irq := (afterOperation i t).irq, port := (afterOperation i t).port } := by
  unfold afterOperation
  split
  · rfl
  · split <;> rfl

@[simp] theorem afterOperation_tick (i : Instr) (t : State) : (afterOperation i t).tick = t.tick := by
  rw [afterOperation_eq]

@[simp] theorem afterOperation_log (i : Instr) (t : State) : (afterOperation i t).log = t.log := by
  rw [afterOperation_eq]

/-- Only the handler's operations move `TICK`, by one, and each records it (R60, R123). -/
theorem exec_tick {i : Instr} {s t : State} (h : exec i s = .next t) :
    (t.tick = s.tick ∧ tickCount t.log = tickCount s.log) ∨
      (t.tick = s.tick + 1 ∧ tickCount t.log = tickCount s.log + 1) := by
  have frame := exec_frame h
  cases context : s.irq.inIsr with
  | false =>
    obtain ⟨tick, -, -, count⟩ := frame.fgKeeps context
    exact .inl ⟨tick, count⟩
  | true => exact frame.isrTick context

/-- The input listed next resets the block: a reset, or a loss of power (R270, R82). -/
def ResetListed (s : State) : Prop :=
  ∃ rest, s.env.inbox = .reset :: rest ∨ ∃ image, s.env.inbox = .powerLoss image :: rest

/-- No input records anything, and of the inputs only one that resets the block sets `TICK` (R271). -/
theorem InputMove.tick_or_reset {s t : State} (m : InputMove s t) :
    t.log = s.log ∧ (t.tick = s.tick ∨ t.tick = 0 ∧ ResetListed s) := by
  cases m with
  | timer => exact ⟨drawIteration_log s, .inl (drawIteration_tick s)⟩
  | tick | midTick | iterate | command | bufWrite => exact ⟨rfl, .inl rfl⟩
  | reset rest listed => exact ⟨rfl, .inr ⟨rfl, rest, listed.imp id And.right⟩⟩
  | powerLoss image rest listed => exact ⟨rfl, .inr ⟨rfl, rest, .inr ⟨image, listed⟩⟩⟩

/-- The handler's entry and its return leave `TICK` and the history alone (R252, R253). -/
theorem Moves.tick_or_reset {s t : State} (m : Moves s t) :
    t.log = s.log ∧ (t.tick = s.tick ∨ t.tick = 0 ∧ ResetListed s) := by
  cases m with
  | leave | entry => exact ⟨rfl, .inl rfl⟩
  | idle _ _ _ input | waiting _ _ _ _ input => exact input.tick_or_reset

/-- Settles O3, by the two kinds of step (`step_next`): an operation may serve one tick event (`exec_tick`), a move
serves none (`Moves.tick_or_reset`). -/
theorem tickFollowsServedEvents : Obligations.TickFollowsServedEvents := by
  intro s t h
  rcases step_next h with ⟨i, u, -, performed, rfl⟩ | move
  · rw [afterOperation_tick, afterOperation_log]
    exact (exec_tick performed).imp_right .inl
  · obtain ⟨log, kept | ⟨zero, listed⟩⟩ := move.tick_or_reset
    · exact .inl ⟨kept, congrArg tickCount log⟩
    · exact .inr (.inr ⟨zero, congrArg tickCount log, listed⟩)

end Sys2Proof.Machine
end

section
/-! SUPPORT. Proofs for the family of the Scheduler Primitives: the conversion of durations, the signed comparison of
ticks, the four operations in each context, and the decimal digits of `FORMAT_ELAPSED`. -/

namespace Sys2Proof.Machine

-- ---------------------------------------------------------------- durations (R132)

theorem ticksOf_of_lt {d : Nat} (h : d < 42) : ticksOf d = d :=
  if_pos h

theorem ticksOf_of_le {d : Nat} (h : 42 ≤ d) : ticksOf d = d * 1000 / 1024 :=
  if_neg (Nat.not_lt.mpr h)

theorem ticksOf_eq (d : Nat) : ticksOf d = if d < 42 then d else d * 1000 / 1024 := rfl

theorem ticksOf_le (d : Nat) : ticksOf d ≤ d := by
  rw [ticksOf_eq]
  split <;> omega

/-- The conversion starts at 42, where it gives 41 again, so it never falls (R132). -/
theorem ticksOf_mono {d e : Nat} (h : d ≤ e) : ticksOf d ≤ ticksOf e := by
  rw [ticksOf_eq, ticksOf_eq]
  split <;> split <;> omega

theorem ticksOf_pos {d : Nat} (h : 0 < d) : 0 < ticksOf d := by
  rw [ticksOf_eq]
  split <;> omega

theorem ticksOf_le_max {d : Nat} (h : d ≤ 65535) : ticksOf d ≤ 63999 :=
  ticksOf_mono h

/-- Settles O4, by the two branches of `ticksOf`. -/
theorem ticksOfConvertsMilliseconds : Obligations.TicksOfConvertsMilliseconds :=
  ⟨fun _ => ticksOf_of_lt, fun _ => ticksOf_of_le, fun _ _ h _ => ticksOf_mono h, fun _ h _ => ticksOf_pos h,
    fun d h => ⟨ticksOf_le d, ticksOf_le_max h⟩, by decide⟩

-- ---------------------------------------------------------------- the comparison (R133, R140)

theorem reached_iff (now d : Tick) : reached now d = true ↔ (now - d).toNat < 2147483648 :=
  decide_eq_true_iff

/-- The sign test: the sign bit of the modular difference is clear (R133). -/
theorem reached_iff_toInt (now d : Tick) : reached now d = true ↔ 0 ≤ (now - d).toInt := by
  rw [reached_iff, BitVec.toInt_pos_iff]
  omega

theorem reached_eq_false_iff_toInt (now d : Tick) : reached now d = false ↔ (now - d).toInt < 0 := by
  rw [← Bool.not_eq_true, reached_iff_toInt, Int.not_le]

/-- The answer depends only on how far the tick is from the Deadline (R133). -/
theorem reached_add (base j k : Tick) : reached (base + j) (base + k) = reached j k := by
  have cancel : base + j - (base + k) = j - k := by bv_omega
  rw [reached, reached, cancel]

/-- Settles O5, by the natural value of a difference of words (`BitVec.toNat_sub`) and its sign
(`reached_iff_toInt`). -/
theorem reachedIsSignedDifference : Obligations.ReachedIsSignedDifference := by
  intro now d
  have ahead (k : Tick) : reached now (now + k) = reached 0 k := by simpa using reached_add now 0 k
  have difference := BitVec.toNat_sub now d
  refine ⟨?_, reached_iff_toInt now d, fun _ _ => ?_, ?_, ?_⟩
  · rw [reached_iff, difference]
    omega
  · rw [reached_iff, difference]
    omega
  · rw [ahead]
    decide
  · rw [ahead]
    decide

-- ---------------------------------------------------------------- the operations (R131, R134, R136, R255)

theorem foregroundOnly_foreground {s : State} (k : Host.Outcome State Fault Refusal) (h : s.irq.inIsr = false) :
    foregroundOnly s k = k := by
  simp [foregroundOnly, h]

theorem foregroundOnly_handler {s : State} (k : Host.Outcome State Fault Refusal) (h : s.irq.inIsr = true) :
    foregroundOnly s k = .refused .contextForbidden :=
  if_pos h

theorem exec_computeDeadline_foreground (d : BitVec 16) {s : State} (h : s.irq.inIsr = false) :
    exec (.computeDeadline d) s =
      .next (finish (s.tick + BitVec.ofNat 32 (ticksOf d.toNat)) (critical (fun t => t) s)) :=
  foregroundOnly_foreground _ h

/-- Settles O6: the foreground's one critical section only reads (`finish_critical_read`). -/
theorem computeDeadlineAddsDuration : Obligations.ComputeDeadlineAddsDuration := by
  refine fun d s => ⟨fun foreground => ?_, foregroundOnly_handler _⟩
  rw [← ticksOf_eq, ← finish_critical_read]
  exact exec_computeDeadline_foreground d foreground

theorem exec_isExpired_foreground (x : Tick) {s : State} (h : s.irq.inIsr = false) :
    exec (.isExpired x) s = .next (finish (if reached s.tick x then 1 else 0) (critical (fun t => t) s)) := by
  have answer : (BitVec.ofBool (reached s.tick x)).zeroExtend 32 = if reached s.tick x then 1 else 0 := by
    cases reached s.tick x <;> rfl
  rw [← answer]
  exact foregroundOnly_foreground _ h

/-- Settles O7, by the sign test (`reached_iff_toInt`). -/
theorem isExpiredTestsDeadline : Obligations.IsExpiredTestsDeadline := by
  refine fun x s => ⟨fun foreground => ?_, foregroundOnly_handler _⟩
  simp only [← reached_iff_toInt, ← finish_critical_read]
  exact exec_isExpired_foreground x foreground

theorem exec_blockUntil_reached {x : Tick} {s : State} (h : s.irq.inIsr = false) (hx : reached s.tick x = true) :
    exec (.blockUntil x) s = .next (finish 0 (critical (fun t => t) s)) :=
  (foregroundOnly_foreground _ h).trans (if_pos hx)

theorem exec_blockUntil_ahead {x : Tick} {s : State} (h : s.irq.inIsr = false) (hx : reached s.tick x = false) :
    exec (.blockUntil x) s = .next (keepWaiting (critical (fun t => t) s)) :=
  (foregroundOnly_foreground _ h).trans (if_neg (Bool.eq_false_iff.mp hx))

/-- An iteration of `BLOCK_UNTIL` that goes on waiting leaves no `DONE` and its section's trace (R136, R249). -/
theorem keepWaiting_critical_read (s : State) :
    keepWaiting (critical (fun t => t) s) =
      { s with
        port := { s.port with done := false, spinning := true }
        irq := afterSection s
        env := envAfterSection s } := by
  rw [critical_read]
  rfl

theorem takeInput_tick {s : State} {rest : List Input} (h : s.env.inbox = .tick :: rest) (hp : s.irq.pending = false) :
    takeInput s =
      .moved { s with irq := { s.irq with pending := true }, env := { s.env with inbox := rest } } := by
  simp [takeInput, takeTick, tickArrives, consume, h, hp]

theorem takeInput_iterate {s : State} {rest : List Input} (h : s.env.inbox = .iterate :: rest) :
    takeInput s =
      .moved { s with port := { s.port with spinning := false }, env := { s.env with inbox := rest } } := by
  simp [takeInput, resumeLoop, consume, h]

/-- Settles O8, by the two outcomes of an iteration, and by the input that a waiting foreground takes
(`nextAction_of_waiting`). -/
theorem blockUntilWaitsForDeadline : Obligations.BlockUntilWaitsForDeadline := by
  refine fun x s => ⟨fun foreground hx => ?_, fun foreground hx => ?_, foregroundOnly_handler _,
    fun foreground idle _ spinning rest => ?_⟩
  · rw [← finish_critical_read]
    exact exec_blockUntil_reached foreground ((reached_iff_toInt _ _).mpr hx)
  · rw [← keepWaiting_critical_read]
    exact exec_blockUntil_ahead foreground ((reached_eq_false_iff_toInt _ _).mpr hx)
  · have taken := nextAction_of_waiting foreground idle spinning
    exact ⟨fun listed => step_of_moved (taken.trans (takeInput_tick listed idle)),
      fun listed => step_of_moved (taken.trans (takeInput_iterate listed))⟩

-- ---------------------------------------------------------------- the deadline laws (R135)

/-- `j` ticks after a snapshot from which a Deadline `k` ticks ahead was computed (R135). -/
theorem reached_ofNat_iff {j k : Nat} (hj : j < 4294967296) (hk : k < 4294967296) :
    reached (BitVec.ofNat 32 j) (BitVec.ofNat 32 k) = true ↔ (4294967296 + j - k) % 4294967296 < 2147483648 := by
  rw [reached_iff, BitVec.toNat_sub, BitVec.toNat_ofNat, BitVec.toNat_ofNat]
  omega

/-- Settles O9: the two operations share the tick of the snapshot, so the answer is the comparison of `j` with the
converted duration (`reached_add`). -/
theorem deadlineExpiresAfterItsTicks : Obligations.DeadlineExpiresAfterItsTicks := by
  intro d s foreground
  refine ⟨_, exec_computeDeadline_foreground d foreground, fun u j later hj htick => ?_⟩
  refine ⟨_, exec_isExpired_foreground _ later, ?_⟩
  simp only [finish_port, htick, reached_add]
  have durationBound : ticksOf d.toNat ≤ 63999 := ticksOf_le_max (by omega)
  have durationPos : 0 < d.toNat → 0 < ticksOf d.toNat := ticksOf_pos
  have durationLe := ticksOf_le d.toNat
  have law := reached_ofNat_iff hj (k := ticksOf d.toNat) (by omega)
  cases answer : reached (BitVec.ofNat 32 j) (BitVec.ofNat 32 (ticksOf d.toNat)) with
  | true =>
    have inHalfRange := law.mp answer
    refine ⟨⟨fun _ => inHalfRange, fun _ => rfl⟩, .inr rfl, fun _ _ => ?_, fun _ _ => rfl, fun _ _ => rfl⟩
    omega
  | false =>
    have outOfHalfRange := mt law.mpr (Bool.eq_false_iff.mp answer)
    refine ⟨⟨fun one => absurd one (by decide), fun inRange => absurd inRange outOfHalfRange⟩, .inl rfl,
      fun _ _ => rfl, fun _ _ => ?_, fun _ _ => ?_⟩
    · omega
    · omega

end Sys2Proof.Machine
end

section
/-! SUPPORT. Proofs for the elapsed time of the Scheduler Primitives: what the decimal digits of a number say, and
`FORMAT_ELAPSED` on both sides of the horizon. -/

namespace Sys2Proof.Machine

-- ---------------------------------------------------------------- decimal digits (R103)

theorem decimalDigits_of_lt (k : Nat) {n : Nat} (h : n < 10) :
    decimalDigits (k + 1) n = [BitVec.ofNat 8 (0x30 + n)] :=
  if_pos h

theorem decimalDigits_of_le (k : Nat) {n : Nat} (h : 10 ≤ n) :
    decimalDigits (k + 1) n = decimalDigits k (n / 10) ++ [BitVec.ofNat 8 (0x30 + n % 10)] :=
  if_neg (Nat.not_lt.mpr h)

theorem toNat_digit {m : Nat} (h : m < 10) : (BitVec.ofNat 8 (0x30 + m)).toNat = 0x30 + m := by
  rw [BitVec.toNat_ofNat]
  omega

/-- The number a string of digits stands for, most significant first (R103). -/
def digitsValue (str : List Byte) : Nat := str.foldl (fun n b => 10 * n + (b.toNat - 0x30)) 0

theorem digitsValue_append_digit (str : List Byte) {m : Nat} (h : m < 10) :
    digitsValue (str ++ [BitVec.ofNat 8 (0x30 + m)]) = 10 * digitsValue str + m := by
  simp only [digitsValue, List.foldl_append, List.foldl_cons, List.foldl_nil, toNat_digit h]
  omega

theorem digitsValue_decimalDigits (k : Nat) {n : Nat} (h : n < 10 ^ k) : digitsValue (decimalDigits k n) = n := by
  induction k generalizing n with
  | zero =>
    obtain rfl : n = 0 := by omega
    rfl
  | succ k ih =>
    by_cases hn : n < 10
    · rw [decimalDigits_of_lt k hn, ← List.nil_append [_], digitsValue_append_digit [] hn]
      exact Nat.zero_add n
    · have fits : n / 10 < 10 ^ k := Nat.div_lt_of_lt_mul (by rwa [Nat.pow_succ'] at h)
      rw [decimalDigits_of_le k (Nat.not_lt.mp hn), digitsValue_append_digit _ (Nat.mod_lt n (by decide)), ih fits]
      omega

theorem decimalDigits_ascii (k n : Nat) : ∀ b ∈ decimalDigits k n, 0x30 ≤ b.toNat ∧ b.toNat ≤ 0x39 := by
  have isDigit {m : Nat} (h : m < 10) :
      ∀ b ∈ [BitVec.ofNat 8 (0x30 + m)], 0x30 ≤ b.toNat ∧ b.toNat ≤ 0x39 := by
    rw [List.forall_mem_singleton, toNat_digit h]
    omega
  induction k generalizing n with
  | zero => simp [decimalDigits]
  | succ k ih =>
    by_cases hn : n < 10
    · rw [decimalDigits_of_lt k hn]
      exact isDigit hn
    · rw [decimalDigits_of_le k (Nat.not_lt.mp hn)]
      exact List.forall_mem_append.mpr ⟨ih (n / 10), isDigit (Nat.mod_lt n (by decide))⟩

theorem decimalDigits_length_le (k n : Nat) : (decimalDigits k n).length ≤ k := by
  induction k generalizing n with
  | zero => exact Nat.le_refl 0
  | succ k ih =>
    by_cases hn : n < 10
    · simp [decimalDigits_of_lt k hn]
    · simpa [decimalDigits_of_le k (Nat.not_lt.mp hn)] using ih (n / 10)

theorem decimalDigits_length_pos (k n : Nat) : 0 < (decimalDigits (k + 1) n).length := by
  by_cases hn : n < 10
  · simp [decimalDigits_of_lt k hn]
  · simp [decimalDigits_of_le k (Nat.not_lt.mp hn)]

/-- No leading zero: the first digit is the last quotient, which is not 0 (R103). -/
theorem decimalDigits_head_ne_zero (k : Nat) {n : Nat} (hpos : 0 < n) (h : n < 10 ^ k) :
    (decimalDigits k n).head? ≠ some 0x30#8 := by
  induction k generalizing n with
  | zero => simp [decimalDigits]
  | succ k ih =>
    by_cases hn : n < 10
    · rw [decimalDigits_of_lt k hn, List.head?_cons]
      intro hzero
      have value : 0x30 + n = 0x30 := (toNat_digit hn).symm.trans (congrArg BitVec.toNat (Option.some.inj hzero))
      omega
    · have fits : n / 10 < 10 ^ k := Nat.div_lt_of_lt_mul (by rwa [Nat.pow_succ'] at h)
      obtain ⟨j, rfl⟩ : ∃ j, k = j + 1 := Nat.exists_eq_succ_of_ne_zero (by rintro rfl; omega)
      have nonempty : decimalDigits (j + 1) (n / 10) ≠ [] :=
        List.ne_nil_of_length_pos (decimalDigits_length_pos j (n / 10))
      rw [decimalDigits_of_le _ (Nat.not_lt.mp hn), List.head?_append_of_ne_nil _ nonempty]
      exact ih (by omega) fits

/-- What `decimal_ascii` gives for a number of at most 10 digits (R103). -/
theorem decimalAscii_spec {n : Nat} (h : n < 10 ^ 10) :
    digitsValue (decimalAscii n) = n ∧
      (∀ b ∈ decimalAscii n, 0x30 ≤ b.toNat ∧ b.toNat ≤ 0x39) ∧
      1 ≤ (decimalAscii n).length ∧ (decimalAscii n).length ≤ 10 ∧
      ((decimalAscii n).head? = some 0x30#8 → (decimalAscii n).length = 1) := by
  refine ⟨digitsValue_decimalDigits 10 h, decimalDigits_ascii 10 n, decimalDigits_length_pos 9 n,
    decimalDigits_length_le 10 n, fun hzero => ?_⟩
  rcases Nat.eq_zero_or_pos n with rfl | hpos
  · rfl
  · exact absurd hzero (decimalDigits_head_ne_zero 10 hpos h)

-- ---------------------------------------------------------------- FORMAT_ELAPSED (R138, R139)

/-- The seconds of a tick below the horizon (R138). -/
theorem secondsOf_lt {n : Nat} (h : n < 4039453125) : secondsOf n < 10 ^ 10 := by
  have seconds : secondsOf n = n * 1024 / 1000000 := rfl
  omega

theorem exec_formatElapsed_below {s : State} (h : s.irq.inIsr = false) (hn : s.tick.toNat < 4039453125) :
    exec .formatElapsed s = .next
      { s with
        port := { doneWith s (BitVec.ofNat 32 (secondsOf s.tick.toNat)) with
          str := decimalAscii (secondsOf s.tick.toNat) }
        irq := afterSection s
        env := envAfterSection s } :=
  (foregroundOnly_foreground _ h).trans (if_pos hn)

theorem exec_formatElapsed_past {s : State} (h : s.irq.inIsr = false) (hn : 4039453125 ≤ s.tick.toNat) :
    exec .formatElapsed s = .next
      { s with
        port := { doneWith s (Config.elapsedRes s.env.draws) with str := Config.elapsedStr s.env.draws }
        irq := afterSection s
        env := { envAfterSection s with draws := s.env.draws + 1 } } :=
  (foregroundOnly_foreground _ h).trans (if_neg (Nat.not_lt.mpr hn))

/-- Settles O10, by the digits of a number below `10^10` (`decimalAscii_spec`). -/
theorem formatElapsedGivesSeconds : Obligations.FormatElapsedGivesSeconds :=
  fun _ foreground below =>
    ⟨_, exec_formatElapsed_below foreground below, decimalAscii_spec (secondsOf_lt below)⟩

/-- Settles O11: past the horizon one free value is drawn (log 13). -/
theorem formatElapsedCompletesPastHorizon : Obligations.FormatElapsedCompletesPastHorizon :=
  fun _ => ⟨fun foreground past => ⟨_, _, exec_formatElapsed_past foreground past⟩, foregroundOnly_handler _⟩

end Sys2Proof.Machine
end

section
/-! SUPPORT. Proofs for the termination of `BLOCK_UNTIL` (R137): what runs reach, the handler's run while nothing is
requested, the run with the one command, and the ticks still to go at each iteration. -/

namespace Sys2Proof.Machine

-- ---------------------------------------------------------------- what a run reaches

/-- `t` is reached from `s` by some number of steps. -/
def Reaches (s t : State) : Prop := ∃ n, Host.Core.run core n s = .next t

theorem Reaches.refl (s : State) : Reaches s s := ⟨0, rfl⟩

theorem Reaches.head {s t u : State} (h : step s = .next t) (r : Reaches t u) : Reaches s u := by
  obtain ⟨n, hn⟩ := r
  have first : core.step s = .next t := h
  exact ⟨n + 1, by simp only [Host.Core.run, first, hn]⟩

theorem Reaches.single {s t : State} (h : step s = .next t) : Reaches s t := .head h (.refl t)

theorem Reaches.trans {s t u : State} (h : Reaches s t) (k : Reaches t u) : Reaches s u := by
  obtain ⟨m, hm⟩ := h
  obtain ⟨n, hn⟩ := k
  exact ⟨m + n, (run_add m n hm).trans hn⟩

/-- What every step keeps, every run keeps. -/
theorem Reaches.keeps {P : State → Prop} (step_keeps : ∀ {s t : State}, P s → step s = .next t → P t) {s t : State}
    (h : Reaches s t) (hs : P s) : P t := by
  obtain ⟨n, hn⟩ := h
  induction n generalizing s with
  | zero =>
    cases hn
    exact hs
  | succ n ih =>
    simp only [Host.Core.run] at hn
    split at hn
    · rename_i u hu
      exact ih (step_keeps hs hu) hn
    · cases hn
    · cases hn

theorem step_of_perform {s t : State} {i : Instr} (h : nextAction s = .perform i) (he : exec i s = .next t) :
    step s = .next (afterOperation i t) := by
  simp only [step, h, he]

theorem nextAction_of_pending {s : State} (hisr : s.irq.inIsr = false) (hpend : s.irq.pending = true)
    (hmask : s.irq.masked = false) : nextAction s = .moved (enterIsr s) := by
  simp [nextAction, hisr, hpend, hmask]

theorem nextAction_of_handlerEnd {s : State} (hisr : s.irq.inIsr = true) (hop : s.irq.op = none) :
    nextAction s = .moved (leaveIsr s) := by
  simp [nextAction, hisr, hop]

theorem decodeCw_advanceWord : decodeCw advanceWord = .ok .advance := decodeCw_mkCw rfl

theorem decodeCw_serviceWord : decodeCw serviceWord = .ok .service := decodeCw_mkCw rfl

-- ---------------------------------------------------------------- the handler's run with nothing requested (R247)

/-- Nothing is requested, no tick event is pending, and the inbox lists these inputs. -/
structure Quiet (inbox : List Input) (s : State) : Prop where
  request : s.port.request = none
  unmasked : s.irq.masked = false
  noneDue : s.irq.pending = false
  listed : s.env.inbox = inbox

/-- The state `s` leads to a quiet one in the foreground. -/
def Settles (inbox : List Input) (s : State) : Prop :=
  ∃ u, Reaches s u ∧ Quiet inbox u ∧ u.irq.inIsr = false

theorem Settles.head {inbox : List Input} {s t : State} (h : step s = .next t) (k : Settles inbox t) :
    Settles inbox s := by
  obtain ⟨u, reached, quiet⟩ := k
  exact ⟨u, reached.head h, quiet⟩

/-- An operation of the handler leaves the request, the inbox and the interrupt state but for its next operation
(`ExecFrame`). -/
theorem Quiet.after_handlerOperation {inbox : List Input} {s t : State} {i : Instr} (q : Quiet inbox s)
    (hi : s.irq.inIsr = true) (he : exec i s = .next t) :
    Quiet inbox (handlerAfter i t) ∧ (handlerAfter i t).irq.inIsr = true := by
  have frame := exec_frame he
  obtain ⟨-, -, -, -, -, irq, -⟩ := frame.isrKeeps hi
  have masked : t.irq.masked = s.irq.masked := by rw [irq]
  have pending : t.irq.pending = s.irq.pending := by rw [irq]
  exact ⟨⟨frame.req.trans q.request, masked.trans q.unmasked, pending.trans q.noneDue, frame.inbox.trans q.listed⟩,
    frame.inIsr.trans hi⟩

theorem step_of_handlerWord {s t : State} {cw : CommandWord} {i : Instr} (hi : s.irq.inIsr = true)
    (ho : s.irq.op = some cw) (hd : decodeCw cw = .ok i) (he : exec i s = .next t) :
    step s = .next (handlerAfter i t) := by
  rw [step_of_fetched (.handler cw hi ho hd) (fun fg => by simp [hi] at fg) he,
    afterOperation_handler i ((exec_frame he).inIsr.trans hi)]

theorem Quiet.settles_at_handlerEnd {inbox : List Input} {s : State} (q : Quiet inbox s) (hi : s.irq.inIsr = true)
    (ho : s.irq.op = none) : Settles inbox s :=
  ⟨leaveIsr s, .single (step_of_moved (nextAction_of_handlerEnd hi ho)),
    ⟨q.request, q.unmasked, q.noneDue, q.listed⟩, rfl⟩

theorem Quiet.settles_at_service {inbox : List Input} {s : State} (q : Quiet inbox s) (hi : s.irq.inIsr = true)
    (ho : s.irq.op = some serviceWord) : Settles inbox s := by
  have he : exec .service s = .next (serviceStep s) := interruptOnly_handler _ hi
  obtain ⟨quiet, isr⟩ := q.after_handlerOperation hi he
  exact .head (step_of_handlerWord hi ho decodeCw_serviceWord he) (quiet.settles_at_handlerEnd isr rfl)

theorem Quiet.settles_at_advance {inbox : List Input} {s : State} (q : Quiet inbox s) (hi : s.irq.inIsr = true)
    (ho : s.irq.op = some advanceWord) : Settles inbox s := by
  have he : exec .advance s = .next (advanceTick s) := interruptOnly_handler _ hi
  obtain ⟨quiet, isr⟩ := q.after_handlerOperation hi he
  refine .head (step_of_handlerWord hi ho decodeCw_advanceWord he) ?_
  cases due : serviceDue (advanceTick s).tick with
  | true => exact quiet.settles_at_service isr (if_pos ⟨rfl, due⟩)
  | false => exact quiet.settles_at_handlerEnd isr (if_neg (fun h => Bool.eq_false_iff.mp due h.2))

/-- A pending tick event is served first, and then the foreground is where it was (R248, R253). -/
theorem settles_of_foreground {inbox : List Input} {s : State} (hi : s.irq.inIsr = false)
    (hr : s.port.request = none) (hm : s.irq.masked = false) (hl : s.env.inbox = inbox) : Settles inbox s := by
  cases hp : s.irq.pending with
  | false => exact ⟨s, .refl s, ⟨hr, hm, hp, hl⟩, hi⟩
  | true =>
    have served : Quiet inbox (enterIsr s) := ⟨hr, hm, rfl, hl⟩
    exact .head (step_of_moved (nextAction_of_pending hi hp hm)) (served.settles_at_advance rfl rfl)

-- ---------------------------------------------------------------- the run with one command (R263, log 34)

/-- A run with the one command `cw`, once it is presented: only tick events and iterations are listed, and the handler
performs its own operations (R247). -/
structure OneCommand (cw : CommandWord) (s : State) : Prop where
  request : s.port.request = none ∨ s.port.request = some (.host cw)
  unmasked : s.irq.masked = false
  handlerOp : s.irq.inIsr = true → s.irq.op = none ∨ s.irq.op = some advanceWord ∨ s.irq.op = some serviceWord
  listed : ∀ i ∈ s.env.inbox, i = .tick ∨ i = .iterate

/-- The inputs listed before the command are consumed, and the command comes to be requested (R97). -/
theorem command_presented {cw : CommandWord} {before after : List Input}
    (hb : ∀ i ∈ before, i = .tick ∨ i = .iterate) (ha : ∀ i ∈ after, i = .tick ∨ i = .iterate) {s : State}
    (hi : s.irq.inIsr = false) (hr : s.port.request = none) (hm : s.irq.masked = false)
    (hl : s.env.inbox = before ++ .command cw :: after) :
    ∃ u, Reaches s u ∧ OneCommand cw u ∧ u.port.request = some (.host cw) := by
  induction before generalizing s with
  | nil =>
    obtain ⟨t, start, quiet, foreground⟩ := settles_of_foreground hi hr hm hl
    have taken := (nextAction_of_idle foreground quiet.noneDue quiet.request).trans
      ((takeInput_command quiet.listed).trans (takeHost_of_idle _ quiet.request))
    refine ⟨_, start.trans (.single (step_of_moved taken)), ⟨.inr rfl, quiet.unmasked, fun isr => ?_, ha⟩, rfl⟩
    simp [foreground] at isr
  | cons i before ih =>
    obtain ⟨t, start, quiet, foreground⟩ := settles_of_foreground hi hr hm hl
    have idle := nextAction_of_idle foreground quiet.noneDue quiet.request
    obtain ⟨first, rest⟩ := List.forall_mem_cons.mp hb
    have next : ∃ v, step t = .next v ∧ v.irq.inIsr = false ∧ v.port.request = none ∧ v.irq.masked = false ∧
        v.env.inbox = before ++ .command cw :: after := by
      rcases first with rfl | rfl
      · exact ⟨_, step_of_moved (idle.trans (takeInput_tick quiet.listed quiet.noneDue)), foreground, quiet.request,
          quiet.unmasked, rfl⟩
      · exact ⟨_, step_of_moved (idle.trans (takeInput_iterate quiet.listed)), foreground, quiet.request,
          quiet.unmasked, rfl⟩
    obtain ⟨v, stepped, vfg, vrequest, vmasked, vlisted⟩ := next
    obtain ⟨u, onward, presented⟩ := ih rest vfg vrequest vmasked vlisted
    exact ⟨u, start.trans (onward.head stepped), presented⟩

theorem OneCommand.noReset {cw : CommandWord} {s : State} (c : OneCommand cw s) : ¬ ResetListed s := by
  rintro ⟨rest, hbox | ⟨image, hbox⟩⟩
  · simpa [hbox] using c.listed .reset
  · simpa [hbox] using c.listed (.powerLoss image)

/-- What the outside does in such a run: a tick event arrives, from the inbox or from the timer, or the next iteration
begins. -/
theorem OneCommand.input {cw : CommandWord} {s t : State} (c : OneCommand cw s) (m : InputMove s t) :
    t.port.request = s.port.request ∧ t.irq.masked = s.irq.masked ∧ t.irq.inIsr = s.irq.inIsr ∧
      (∃ listed, s.env.inbox = listed ++ t.env.inbox) ∧
      (t.irq.pending = true ∨ t.env.inbox.length < s.env.inbox.length) := by
  have listed := c.listed
  cases m with
  | timer => exact ⟨by simp, by simp, by simp, ⟨[], by simp⟩, .inl rfl⟩
  | tick rest hi => exact ⟨rfl, rfl, rfl, ⟨[.tick], by simp [hi]⟩, .inl rfl⟩
  | iterate rest hi => exact ⟨rfl, rfl, rfl, ⟨[.iterate], by simp [hi]⟩, .inr (by simp [hi])⟩
  | midTick rest hi | command cw rest hi | bufWrite k v rest hi | powerLoss image rest hi => simp [hi] at listed
  | reset rest hi => exact absurd ⟨rest, hi.imp id And.right⟩ c.noReset

@[simp] theorem afterOperation_env (i : Instr) (t : State) : (afterOperation i t).env = t.env := by
  rw [afterOperation_eq]

theorem afterOperation_request (i : Instr) (t : State) :
    (afterOperation i t).port.request = none ∨ (afterOperation i t).port.request = t.port.request := by
  unfold afterOperation
  split
  · exact .inr rfl
  · split
    · exact .inr rfl
    · exact .inl rfl

@[simp] theorem afterOperation_masked (i : Instr) (t : State) : (afterOperation i t).irq.masked = t.irq.masked := by
  unfold afterOperation
  split
  · rfl
  · split <;> rfl

/-- The handler performs its service step next or is at its end; no operation brings it about to begin again
(R247). -/
theorem afterOperation_handlerOp {i : Instr} {t : State} (h : (afterOperation i t).irq.inIsr = true) :
    (afterOperation i t).irq.op = none ∨ (afterOperation i t).irq.op = some serviceWord := by
  cases context : t.irq.inIsr with
  | true =>
    rw [afterOperation_handler i context]
    simp only [handlerAfter]
    split
    · exact .inr rfl
    · exact .inl rfl
  | false =>
    rw [afterOperation_foreground i context] at h
    split at h <;> simp [context] at h

theorem OneCommand.step_keeps {cw : CommandWord} {s t : State} (c : OneCommand cw s) (h : step s = .next t) :
    OneCommand cw t := by
  rcases step_next h with ⟨i, u, -, he, rfl⟩ | m
  · have frame := exec_frame he
    refine ⟨?_, ?_, fun isr => (afterOperation_handlerOp isr).imp_right .inr, ?_⟩
    · rcases afterOperation_request i u with none | kept
      · exact .inl none
      · rw [kept, frame.req]
        exact c.request
    · rw [afterOperation_masked]
      exact frame.masked c.unmasked
    · rw [afterOperation_env, frame.inbox]
      exact c.listed
  · cases m with
    | leave => exact ⟨c.request, c.unmasked, fun isr => (by cases isr), c.listed⟩
    | entry => exact ⟨c.request, c.unmasked, fun _ => .inr (.inl rfl), c.listed⟩
    | idle _ hi _ m | waiting _ hi _ _ m =>
      obtain ⟨request, masked, inIsr, ⟨listed, hbox⟩, -⟩ := c.input m
      refine ⟨by rw [request]; exact c.request, by rw [masked]; exact c.unmasked, fun isr => ?_, fun i hi => ?_⟩
      · rw [inIsr, hi] at isr
        cases isr
      · exact c.listed i (by rw [hbox]; exact List.mem_append_right listed hi)

-- ---------------------------------------------------------------- from one iteration to the next (R136)

/-- A tick event is about to be counted: it is pending, or the handler begins. -/
def TickDue (s : State) : Prop := s.irq.pending = true ∨ s.irq.inIsr = true ∧ s.irq.op = some advanceWord

/-- What has happened between a wait's begin `w` and a later state `s` of the run: `TICK` has followed the served tick
events, and, unless the wait goes on, a tick event has been served or is due, or a listed input has been taken. -/
structure WaitedSince (w s : State) : Prop where
  ticks : ∃ g, tickCount s.log = tickCount w.log + g ∧ s.tick = w.tick + BitVec.ofNat 32 g
  inbox : s.env.inbox.length ≤ w.env.inbox.length
  progress : tickCount w.log < tickCount s.log ∨ s.env.inbox.length < w.env.inbox.length ∨
    s.port.spinning = true ∨ TickDue s

theorem WaitedSince.refl {w : State} (h : w.port.spinning = true) : WaitedSince w w :=
  ⟨⟨0, rfl, by simp⟩, Nat.le_refl _, .inr (.inr (.inl h))⟩

/-- The ticks of a step of the run: `tickFollowsServedEvents` where no reset is listed (R123). -/
theorem OneCommand.step_ticks {cw : CommandWord} {s t : State} (c : OneCommand cw s) (h : step s = .next t) :
    (t.tick = s.tick ∧ tickCount t.log = tickCount s.log) ∨
      (t.tick = s.tick + 1 ∧ tickCount t.log = tickCount s.log + 1) := by
  rcases tickFollowsServedEvents s t h with kept | served | ⟨-, -, reset⟩
  · exact .inl kept
  · exact .inr served
  · exact absurd reset c.noReset

/-- An operation is performed in the foreground only when no wait goes on and no tick event is due (R248). -/
theorem not_due_of_foreground {s : State} {i : Instr} (h : nextAction s = .perform i) (hi : s.irq.inIsr = false)
    (hm : s.irq.masked = false) : s.port.spinning = false ∧ ¬ TickDue s := by
  have pending : s.irq.pending ≠ true := fun hp => by
    rw [nextAction_of_pending hi hp hm] at h
    cases h
  refine ⟨?_, ?_⟩
  · cases nextAction_perform h with
    | handler _ isr => rw [hi] at isr; cases isr
    | host _ _ spinning | inner _ _ spinning | frame _ _ spinning => exact spinning
  · rintro (hp | ⟨isr, -⟩)
    · exact pending hp
    · rw [hi] at isr
      cases isr

/-- The handler's operation counts the tick event that is due, or it is the service step and none is (R247). -/
theorem handlerOperation_progress {cw : CommandWord} {s u : State} {i : Instr} (c : OneCommand cw s)
    (isr : s.irq.inIsr = true) (h : nextAction s = .perform i) (he : exec i s = .next u) :
    tickCount u.log = tickCount s.log + 1 ∨
      (TickDue s → TickDue (afterOperation i u)) ∧ (afterOperation i u).port.spinning = s.port.spinning := by
  cases nextAction_perform h with
  | host _ fg | inner _ fg | frame _ fg => rw [isr] at fg; cases fg
  | handler word _ ho hd =>
    have frame := exec_frame he
    obtain ⟨-, -, -, -, -, irq, -, spinning⟩ := frame.isrKeeps isr
    rw [afterOperation_handler i (frame.inIsr.trans isr)]
    rcases c.handlerOp isr with atEnd | begins | services
    · rw [atEnd] at ho
      cases ho
    · obtain rfl := Option.some.inj (begins.symm.trans ho)
      obtain rfl := Except.ok.inj (decodeCw_advanceWord.symm.trans hd)
      obtain ⟨-, rfl⟩ := exec_next he
      exact .inl (by simp)
    · refine .inr ⟨?_, spinning⟩
      rintro (pending | ⟨-, begins⟩)
      · exact .inl ((congrArg Interrupt.pending irq).trans pending)
      · rw [services] at begins
        exact absurd begins (by decide)

theorem WaitedSince.step_keeps {cw : CommandWord} {w s t : State} (k : WaitedSince w s) (c : OneCommand cw s)
    (h : step s = .next t) : WaitedSince w t := by
  obtain ⟨⟨g, count, tick⟩, inbox, progress⟩ := k
  have ticks : ∃ g, tickCount t.log = tickCount w.log + g ∧ t.tick = w.tick + BitVec.ofNat 32 g := by
    rcases c.step_ticks h with ⟨tick', count'⟩ | ⟨tick', count'⟩
    · exact ⟨g, count'.trans count, tick'.trans tick⟩
    · exact ⟨g + 1, by omega, by rw [tick', tick, BitVec.add_assoc, BitVec.ofNat_add]; rfl⟩
  have monotone : tickCount s.log ≤ tickCount t.log := by
    rcases c.step_ticks h with ⟨-, count'⟩ | ⟨-, count'⟩ <;> omega
  rcases step_next h with ⟨i, u, hn, he, rfl⟩ | m
  · have inbox' : (afterOperation i u).env.inbox = s.env.inbox := by rw [afterOperation_env, (exec_frame he).inbox]
    refine ⟨ticks, inbox' ▸ inbox, ?_⟩
    rw [inbox']
    cases context : s.irq.inIsr with
    | false =>
      obtain ⟨spinning, notDue⟩ := not_due_of_foreground hn context c.unmasked
      rcases progress with served | taken | waits | due
      · exact .inl (served.trans_le monotone)
      · exact .inr (.inl taken)
      · rw [spinning] at waits
        cases waits
      · exact absurd due notDue
    | true =>
      rcases handlerOperation_progress c context hn he with counted | ⟨due, spinning⟩
      · rw [afterOperation_log, counted, count]
        exact .inl (by omega)
      · rw [spinning]
        exact progress.imp (·.trans_le monotone) (.imp id (.imp id due))
  · cases m with
    | leave _ ho =>
      refine ⟨ticks, inbox, progress.imp id (.imp id (.imp id ?_))⟩
      rintro (pending | ⟨-, begins⟩)
      · exact .inl pending
      · rw [ho] at begins
        cases begins
    | entry => exact ⟨ticks, inbox, .inr (.inr (.inr (.inr ⟨rfl, rfl⟩)))⟩
    | idle _ _ _ m | waiting _ _ _ _ m =>
      obtain ⟨-, -, -, ⟨listed, hbox⟩, moved⟩ := c.input m
      have shorter : t.env.inbox.length ≤ s.env.inbox.length := by simp [hbox]
      refine ⟨ticks, shorter.trans inbox, ?_⟩
      rcases moved with pending | taken
      · exact .inr (.inr (.inr (.inl pending)))
      · exact .inr (.inl (taken.trans_le inbox))

theorem OneCommand.waitedSince {cw : CommandWord} {w s : State} (c : OneCommand cw w) (hw : w.port.spinning = true)
    (r : Reaches w s) : OneCommand cw s ∧ WaitedSince w s :=
  r.keeps (P := fun t => OneCommand cw t ∧ WaitedSince w t)
    (fun h stepped => ⟨h.1.step_keeps stepped, h.2.step_keeps h.1 stepped⟩) ⟨c, .refl hw⟩

-- ---------------------------------------------------------------- the ticks still to go (R133, R137)

/-- How many ticks a Deadline lies ahead; 0 when it is reached (R133). -/
def ticksToGo (now x : Tick) : Nat := if reached now x then 0 else (x - now).toNat

/-- Fewer than `2^31` ticks never jump over the half range in which the Deadline is reached (R137, R140). -/
theorem ticksToGo_add {now x : Tick} {g : Nat} (h : reached now x = false) (hg : g < 2147483648) :
    ticksToGo (now + BitVec.ofNat 32 g) x = ticksToGo now x - g := by
  have ahead := mt (reached_iff now x).mpr (Bool.eq_false_iff.mp h)
  rw [ticksToGo, ticksToGo, if_neg (Bool.eq_false_iff.mp h)]
  split
  · rename_i later
    rw [reached_iff] at later
    bv_omega
  · rename_i later
    rw [reached_iff] at later
    bv_omega

theorem ticksToGo_pos {now x : Tick} (h : reached now x = false) : 0 < ticksToGo now x := by
  have ahead := mt (reached_iff now x).mpr (Bool.eq_false_iff.mp h)
  rw [ticksToGo, if_neg (Bool.eq_false_iff.mp h)]
  bv_omega

-- ---------------------------------------------------------------- the run's end (R137, R263)

/-- An iteration in such a run is the command's, in the foreground. -/
theorem OneCommand.at_iteration {cw : CommandWord} {x : Tick} {s : State} (c : OneCommand cw s)
    (h : nextAction s = .perform (.blockUntil x)) :
    s.irq.inIsr = false ∧ s.port.request = some (.host cw) := by
  have noOther {r : Request} (hr : s.port.request = some r) : r = .host cw := by
    rcases c.request with none | command
    · rw [none] at hr
      cases hr
    · exact Option.some.inj (hr.symm.trans command)
  cases nextAction_perform h with
  | handler word isr ho hd =>
    rcases c.handlerOp isr with op | op | op
    · rw [op] at ho
      cases ho
    · obtain rfl := Option.some.inj (op.symm.trans ho)
      cases decodeCw_advanceWord.symm.trans hd
    · obtain rfl := Option.some.inj (op.symm.trans ho)
      cases decodeCw_serviceWord.symm.trans hd
  | host word fg _ hr => exact ⟨fg, by rw [hr, noOther hr]⟩
  | inner word _ _ hr => cases noOther hr
  | frame word _ _ hr => cases noOther hr

theorem commandsOf_ticks_iterations {inbox : List Input} (h : ∀ i ∈ inbox, i = .tick ∨ i = .iterate) :
    commandsOf inbox = [] := by
  rw [commandsOf, List.filterMap_eq_nil_iff]
  intro i hi
  rcases h i hi with rfl | rfl <;> rfl

theorem commandsOf_one (cw : CommandWord) {before after : List Input} (hb : ∀ i ∈ before, i = .tick ∨ i = .iterate)
    (ha : ∀ i ∈ after, i = .tick ∨ i = .iterate) : commandsOf (before ++ .command cw :: after) = [cw] :=
  calc commandsOf (before ++ .command cw :: after)
    _ = commandsOf before ++ cw :: commandsOf after := List.filterMap_append
    _ = [cw] := by rw [commandsOf_ticks_iterations hb, commandsOf_ticks_iterations ha, List.nil_append]

/-- The command is complete and its Deadline reached. -/
def CompleteAt (x : Tick) (t : State) : Prop :=
  AtEnd t ∧ t.port.done = true ∧ t.port.res = 0 ∧ reached t.tick x = true

theorem OneCommand.completes {cw : CommandWord} {x : Tick} {s : State} (c : OneCommand cw s)
    (h : nextAction s = .perform (.blockUntil x)) (hx : reached s.tick x = true) :
    ∃ t, Reaches s t ∧ CompleteAt x t := by
  obtain ⟨fg, -⟩ := c.at_iteration h
  have context : (finish 0 (critical (fun t => t) s)).irq.inIsr = false := fg
  have stepped := step_of_perform h (exec_blockUntil_reached fg hx)
  rw [afterOperation_foreground _ context] at stepped
  exact ⟨_, .single stepped, ⟨fg, rfl, commandsOf_ticks_iterations c.listed⟩, rfl, rfl, hx⟩

/-- An iteration that finds its Deadline ahead begins a wait, at the same tick (R136). -/
theorem OneCommand.waits {cw : CommandWord} {x : Tick} {s : State} (c : OneCommand cw s)
    (h : nextAction s = .perform (.blockUntil x)) (hx : reached s.tick x = false) :
    ∃ w, step s = .next w ∧ w.port.spinning = true ∧ w.port.request = some (.host cw) ∧ w.tick = s.tick ∧
      w.env.inbox = s.env.inbox := by
  obtain ⟨fg, request⟩ := c.at_iteration h
  have context : (keepWaiting (critical (fun t => t) s)).irq.inIsr = false := fg
  have stepped := step_of_perform h (exec_blockUntil_ahead fg hx)
  rw [afterOperation_foreground _ context] at stepped
  exact ⟨_, stepped, rfl, request, rfl, rfl⟩

/-- R137's premise, of the states that a run from `s` reaches: the next iteration comes before `2^31` more tick events
are served. -/
def IteratesInTime (x : Tick) (cw : CommandWord) (s : State) : Prop :=
  ∀ u, Reaches s u → u.port.request = some (.host cw) →
    ∃ v, Reaches u v ∧ nextAction v = .perform (.blockUntil x) ∧ tickCount v.log < tickCount u.log + 2147483648

theorem IteratesInTime.later {x : Tick} {cw : CommandWord} {s t : State} (p : IteratesInTime x cw s)
    (r : Reaches s t) : IteratesInTime x cw t :=
  fun u ru => p u (r.trans ru)

/-- From one iteration to the next the ticks still to go and the inputs still listed never grow, and one of them
falls: a wait ends only by a tick event or by a listed input. -/
theorem OneCommand.next_iteration {cw : CommandWord} {x : Tick} {s : State} (c : OneCommand cw s)
    (h : nextAction s = .perform (.blockUntil x)) (hx : reached s.tick x = false) (p : IteratesInTime x cw s) :
    ∃ v, Reaches s v ∧ OneCommand cw v ∧ nextAction v = .perform (.blockUntil x) ∧
      ticksToGo v.tick x + v.env.inbox.length < ticksToGo s.tick x + s.env.inbox.length := by
  obtain ⟨w, stepped, spinning, request, tick, inbox⟩ := c.waits h hx
  obtain ⟨v, onward, iteration, inTime⟩ := p w (.single stepped) request
  obtain ⟨one, since⟩ := (c.step_keeps stepped).waitedSince spinning onward
  refine ⟨v, onward.head stepped, one, iteration, ?_⟩
  obtain ⟨⟨g, count, later⟩, shorter, progress⟩ := since
  have toGo : ticksToGo v.tick x = ticksToGo s.tick x - g := by
    rw [later, tick]
    exact ticksToGo_add hx (by omega)
  have positive := ticksToGo_pos hx
  have moved : 0 < g ∨ v.env.inbox.length < w.env.inbox.length := by
    obtain ⟨notWaiting, notDue⟩ := not_due_of_foreground iteration (one.at_iteration iteration).1 one.unmasked
    rcases progress with served | taken | waiting | due
    · exact .inl (by omega)
    · exact .inr taken
    · rw [notWaiting] at waiting
      cases waiting
    · exact absurd due notDue
  rw [inbox] at shorter moved
  omega

/-- The induction over the iterations, on the ticks still to go and the inputs still listed. -/
theorem OneCommand.ends {cw : CommandWord} {x : Tick} {s : State} (c : OneCommand cw s)
    (h : nextAction s = .perform (.blockUntil x)) (p : IteratesInTime x cw s) :
    ∃ t, Reaches s t ∧ CompleteAt x t := by
  induction n : ticksToGo s.tick x + s.env.inbox.length using Nat.strong_induction_on generalizing s with
  | h n ih =>
    cases hx : reached s.tick x with
    | true => exact c.completes h hx
    | false =>
      obtain ⟨v, onward, one, iteration, fewer⟩ := c.next_iteration h hx p
      obtain ⟨t, ending, complete⟩ := ih _ (by omega) one iteration (p.later onward) rfl
      exact ⟨t, onward.trans ending, complete⟩

/-- Settles O12: the command comes to be requested (`command_presented`), R137's premise gives a first iteration, and
from one iteration to the next fewer ticks or inputs are left (`OneCommand.ends`). -/
theorem blockUntilTerminates : Obligations.BlockUntilTerminates := by
  intro x cw s before after _ request foreground unmasked listed plain premise
  have inTime : IteratesInTime x cw s := by
    rintro u ⟨n, hn⟩ hr
    obtain ⟨m, v, hm, iteration⟩ := premise n u hn hr
    exact ⟨v, ⟨m, hm⟩, iteration⟩
  obtain ⟨hb, ha⟩ := List.forall_mem_append.mp plain
  obtain ⟨u, start, one, requested⟩ := command_presented hb ha foreground request unmasked listed
  obtain ⟨v, toFirst, iteration, -⟩ := inTime u start requested
  have oneAtFirst := toFirst.keeps (P := OneCommand cw) OneCommand.step_keeps one
  have atFirst := start.trans toFirst
  obtain ⟨t, ending, atEnd, done, res, deadline⟩ := oneAtFirst.ends iteration (inTime.later atFirst)
  refine ⟨t, ⟨request, ?_, fun i hi => ?_, atFirst.trans ending, atEnd⟩, done, res,
    (reached_iff_toInt _ _).mp deadline⟩
  · rw [listed, commandsOf_one cw hb ha]
  · rw [listed, List.mem_append, List.mem_cons] at hi
    rcases hi with hi | rfl | hi
    · rcases hb i hi with rfl | rfl <;> simp
    · simp
    · rcases ha i hi with rfl | rfl <;> simp

end Sys2Proof.Machine
end

section
/-! SUPPORT. Proofs for the family of the serial transport: what its operations refuse, the start condition, the bit and
byte exchanges, the two transactions, the checksum and the two block operations. -/

namespace Sys2Proof.Machine

-- ---------------------------------------------------------------- refusals (R151, R157, R158, R160, R255)

theorem linkRefusal_ready {s : State} (hbusy : s.sst.busy = false) (hsclk : s.sst.sclk = true) :
    linkRefusal s = none := by
  simp [linkRefusal, hbusy, hsclk]

theorem linkRefusal_busy {s : State} (hbusy : s.sst.busy = true) : linkRefusal s = some .transportBusy :=
  if_pos hbusy

theorem linkRefusal_lowClock {s : State} (hbusy : s.sst.busy = false) (hsclk : s.sst.sclk = false) :
    linkRefusal s = some .lineNotIdle := by
  simp [linkRefusal, hbusy, hsclk]

theorem exec_startCond_of_none {s : State} (hisr : s.irq.inIsr = false) (h : linkRefusal s = none) :
    exec .startCond s = .next (startCondition s) := by
  rw [exec, execStartCond, foregroundOnly_foreground _ hisr, h]

theorem exec_startCond_of_some {s : State} {r : Refusal} (hisr : s.irq.inIsr = false) (h : linkRefusal s = some r) :
    exec .startCond s = .refused r := by
  rw [exec, execStartCond, foregroundOnly_foreground _ hisr, h]

/-- The start condition of an idle link is one falling edge of the clock, which the IC does not take (R151, R66). -/
theorem startCondition_of_idle {s : State} (hsclk : s.sst.sclk = true) :
    startCondition s = { s with sst := { s.sst with busy := true, sclk := false }, log := .sclk false :: s.log } := by
  simp [startCondition, driveSclk, hsclk]

/-- Settles O13: what the link answers to a start condition (`linkRefusal`), and the one edge it makes
(`startCondition_of_idle`). -/
theorem startConditionLowersClock : Obligations.StartConditionLowersClock := by
  intro s
  refine ⟨fun ⟨hisr, hbusy, hsclk⟩ => ?_, fun hisr hbusy => ?_, fun hisr hbusy hsclk => ?_, fun hisr => ?_⟩
  · rw [exec_startCond_of_none hisr (linkRefusal_ready hbusy hsclk), startCondition_of_idle hsclk]
  · exact exec_startCond_of_some hisr (linkRefusal_busy hbusy)
  · exact exec_startCond_of_some hisr (linkRefusal_lowClock hbusy hsclk)
  · exact foregroundOnly_handler _ hisr

section
variable {first last : Byte} {s : State} (k : Host.Outcome State Fault Refusal)

theorem onBlockLink_ready (hisr : s.irq.inIsr = false) (hbusy : s.sst.busy = false) (hlast : last.toNat ≤ 0x6F)
    (hsclk : first.toNat ≤ last.toNat → s.sst.sclk = true) : onBlockLink first last s k = k := by
  have idle : ¬(first.toNat ≤ last.toNat ∧ s.sst.sclk = false) := fun ⟨hle, hlow⟩ => by simp [hsclk hle] at hlow
  rw [onBlockLink, foregroundOnly_foreground _ hisr, Config.devAddrMax, if_pos hlast, if_neg (by simp [hbusy]),
    if_neg idle]

theorem onBlockLink_handler (hisr : s.irq.inIsr = true) : onBlockLink first last s k = .refused .contextForbidden :=
  foregroundOnly_handler _ hisr

theorem onBlockLink_outOfRange (hisr : s.irq.inIsr = false) (hlast : 0x6F < last.toNat) :
    onBlockLink first last s k = .refused .addrOutOfRange := by
  rw [onBlockLink, foregroundOnly_foreground _ hisr, Config.devAddrMax, if_neg (Nat.not_le.mpr hlast)]

theorem onBlockLink_busy (hisr : s.irq.inIsr = false) (hlast : last.toNat ≤ 0x6F) (hbusy : s.sst.busy = true) :
    onBlockLink first last s k = .refused .transportBusy := by
  rw [onBlockLink, foregroundOnly_foreground _ hisr, Config.devAddrMax, if_pos hlast, if_pos hbusy]

end

/-- Settles O24: the transactions stand behind `onIdleLink`, the block operations behind `onBlockLink`, and all of the
transport behind `foregroundOnly`. -/
theorem transportRefusesMisuse : Obligations.TransportRefusesMisuse := by
  intro addr first last data o s
  refine ⟨fun hisr haddr => ?_, fun hisr hlast => ?_, fun hisr hbusy haddr hlast => ?_, fun hisr => ?_⟩
  · exact ⟨onIdleLink_outOfRange _ hisr haddr, onIdleLink_outOfRange _ hisr haddr⟩
  · exact ⟨onBlockLink_outOfRange _ hisr hlast, onBlockLink_outOfRange _ hisr hlast⟩
  · exact ⟨onIdleLink_busy _ hisr haddr hbusy, onIdleLink_busy _ hisr haddr hbusy,
      onBlockLink_busy _ hisr hlast hbusy, onBlockLink_busy _ hisr hlast hbusy⟩
  · exact ⟨onIdleLink_handler _ _ hisr, onIdleLink_handler _ _ hisr, onBlockLink_handler _ hisr,
      onBlockLink_handler _ hisr, foregroundOnly_handler _ hisr, foregroundOnly_handler _ hisr,
      foregroundOnly_handler _ hisr⟩

-- ---------------------------------------------------------------- the bit and the byte exchange (R152, R153)

theorem exec_exchangeBit_foreground (o : Bool) {s : State} (h : s.irq.inIsr = false) :
    exec (.exchangeBit o) s =
      .next (giveInner ((BitVec.ofBool (exchangeBitOp o s).1).zeroExtend 32) (exchangeBitOp o s).2) :=
  foregroundOnly_foreground _ h

theorem exec_exchangeByte_foreground (o : Byte) {s : State} (h : s.irq.inIsr = false) :
    exec (.exchangeByte o) s =
      .next (giveInner ((exchangeByteOp o s).1.zeroExtend 32) (exchangeByteOp o s).2) :=
  foregroundOnly_foreground _ h

theorem zeroExtend_ofBool (b : Bool) : (BitVec.ofBool b).zeroExtend 32 = if b then 1 else 0 := by
  cases b <;> rfl

/-- Settles O14: `exchangeBitOp_spec` has the lines and the frame, `exchangeBitOp_log` the events. -/
theorem exchangeBitIsOnePeriod : Obligations.ExchangeBitIsOnePeriod := by
  intro o s hisr
  obtain ⟨frame, lines⟩ := exchangeBitOp_spec o s
  refine ⟨(exchangeBitOp o s).1, _, exec_exchangeBit_foreground o hisr, lines, ?_, ?_,
    giveInner_eq_of_linkFrame rfl frame, fun oracle => ⟨exchangeBitOp_ic oracle, fun b rest listed =>
      exchangeBitOp_oracle oracle listed⟩⟩
  · rw [giveInner_port, frame.port, zeroExtend_ofBool]
  · rw [giveInner_log, exchangeBitOp_log]
    simp

/-- Settles O15: `exchangeByteOp_spec` has the lines and the frame, `exchangeByteOp_wire` the samples and the events. -/
theorem exchangeByteIsMsbFirst : Obligations.ExchangeByteIsMsbFirst := by
  intro o s hisr
  obtain ⟨frame, lines⟩ := exchangeByteOp_spec o s
  obtain ⟨ins, length, hears, received, log⟩ := exchangeByteOp_wire o s
  refine ⟨_, ins, exec_exchangeByte_foreground o hisr, length, ?_, log, ?_, giveInner_eq_of_linkFrame rfl frame,
    hears.congr rfl rfl⟩
  · rw [giveInner_sst, lines, received]
  · rw [giveInner_port, frame.port, received]

-- ---------------------------------------------------------------- the two transactions (R154, R155, R161, R162)

theorem exec_writeTransaction_ready {addr : Byte} (data : Half) {s : State} (ready : LinkReady s)
    (haddr : addr.toNat ≤ 0x6F) :
    exec (.writeTransaction addr data) s = .next (finish 0 (transact (writeFrameOf addr data) s).2) :=
  onIdleLink_ready _ ready haddr

theorem exec_readTransaction_ready {addr : Byte} {s : State} (ready : LinkReady s) (haddr : addr.toNat ≤ 0x6F) :
    exec (.readTransaction addr) s =
      .next (finish ((transact (readFrameOf addr s.board.dummyByte) s).1.zeroExtend 32)
        (transact (readFrameOf addr s.board.dummyByte) s).2) :=
  onIdleLink_ready _ ready haddr

theorem finish_port_of_eq (v : BitVec 32) {s t : State} (h : t.port = s.port) : (finish v t).port = doneWith s v := by
  rw [finish_port, h, doneWith]

/-- Where an operation keeps everything outside the link (`LinkFrame.eq`), giving its result to the host writes the
interface and no more (R80, R97). -/
theorem finish_eq_of_keeps {s t u : State} {v : BitVec 32} (hu : u = finish v t)
    (h : t = { s with sst := t.sst, log := t.log, ic := t.ic, env := t.env }) :
    u = { s with sst := u.sst, port := u.port, log := u.log, ic := u.ic, env := u.env } := by
  subst hu
  exact congrArg (fun w : State => { w with port := (finish v t).port }) h

/-- The same for a frame, where the IC is as it was. -/
theorem finish_eq_of_ic (v : BitVec 32) {s t : State} (h : LinkFrame s t) (ic : t.ic = s.ic) :
    finish v t =
      { s with
        sst := (finish v t).sst, port := (finish v t).port, log := (finish v t).log, env := (finish v t).env } := by
  have keeps := finish_eq_of_keeps (rfl : finish v t = finish v t) h.eq
  rwa [finish_ic, ic] at keeps

/-- A transaction against the oracle with its 24 answers listed: the waveform with these answers, and the value in the
last 16 of them (R66, R99, R162). -/
theorem transact_oracle (f : FrameWord) {s : State} {ins rest : List Bool} (hsclk : s.sst.sclk = true)
    (oracle : s.ic = .oracle) (listed : s.env.sdi = ins ++ rest) (length : ins.length = 24) :
    (transact f s).1 = halfOfBits (ins.drop 8) ∧
      (transact f s).2.log = (waveform s.sst.sdo ((frameBits f).zip ins)).reverse ++ s.log ∧
      (transact f s).2.ic = s.ic ∧ (transact f s).2.env = { s.env with sdi := rest } := by
  obtain ⟨heard, heardLength, hears, value, log⟩ := transact_wire f s hsclk
  obtain ⟨rfl, ic, env⟩ := hears ins rest oracle listed (length.trans heardLength.symm)
  exact ⟨value, log, ic.trans oracle.symm, env⟩

theorem getLsbD_writeFrameOf_zero (addr : Byte) (data : Half) :
    (writeFrameOf addr data).getLsbD 0 = data.getLsbD 0 := by
  rw [writeFrameOf, frameOf_getLsbD, if_pos (by decide)]
  simp [lo8]

theorem getLsbD_readFrameOf_zero (addr dummy : Byte) : (readFrameOf addr dummy).getLsbD 0 = dummy.getLsbD 0 := by
  rw [readFrameOf, frameOf_getLsbD, if_pos (by decide)]

/-- Settles O16: a write transaction is `transact` of its frame (`writeFrameOf_eq`). -/
theorem writeTransactionWaveform : Obligations.WriteTransactionWaveform := by
  intro addr data s ins rest ready haddr oracle listed length
  obtain ⟨frame, lines⟩ := transact_spec (writeFrameOf addr data) s
  obtain ⟨-, log, ic, env⟩ := transact_oracle (writeFrameOf addr data) ready.2.2 oracle listed length
  refine ⟨_, exec_writeTransaction_ready data ready haddr, ?_, finish_port_of_eq 0 frame.port, ?_, ?_, ?_,
    (finish_env _ _).trans env, ?_⟩
  · rw [finish_log, log, writeFrameOf_eq]
  · rw [finish_sst, lines]
  · rw [finish_sst, lines]
  · rw [finish_sst, lines, getLsbD_writeFrameOf_zero]
  · exact finish_eq_of_ic 0 frame ic

/-- Settles O17: a read transaction is `transact` of its frame, the read address and the dummy byte twice. -/
theorem readTransactionWaveform : Obligations.ReadTransactionWaveform := by
  intro addr s ins rest ready haddr oracle listed length
  obtain ⟨frame, lines⟩ := transact_spec (readFrameOf addr s.board.dummyByte) s
  obtain ⟨value, log, ic, env⟩ :=
    transact_oracle (readFrameOf addr s.board.dummyByte) ready.2.2 oracle listed length
  refine ⟨_, exec_readTransaction_ready ready haddr, (finish_log _ _).trans log, ?_, ?_, ?_, ?_,
    (finish_env _ _).trans env, ?_⟩
  · rw [finish_port_of_eq _ frame.port, value]
  · rw [finish_sst, lines]
  · rw [finish_sst, lines]
  · rw [finish_sst, lines, getLsbD_readFrameOf_zero]
  · exact finish_eq_of_ic _ frame ic

/-- A transaction that has raised `DONE` leaves the link idle and everything outside it as it was (R161, R27). -/
theorem finish_transact_keeps (f : FrameWord) (s : State) (v : BitVec 32) {w : State}
    (hw : w = finish v (transact f s).2) :
    w.sst.sclk = true ∧ w.sst.busy = false ∧ w.sst.buf = s.sst.buf ∧ w.sst.cksum = s.sst.cksum ∧
      (∀ a, memRead w.nvm a = memRead s.nvm a) ∧
      w = { s with sst := w.sst, port := w.port, log := w.log, ic := w.ic, env := w.env } := by
  obtain ⟨frame, lines⟩ := transact_spec f s
  have sst := (congrArg State.sst hw).trans ((finish_sst v _).trans lines)
  have nvm : w.nvm = s.nvm := by rw [hw, finish_nvm, frame.nvm]
  exact ⟨by rw [sst], by rw [sst], by rw [sst], by rw [sst], fun a => by rw [nvm], finish_eq_of_keeps hw frame.eq⟩

/-- Settles O18: both are transactions that raise `DONE` (`finish_transact_keeps`). -/
theorem transactionsAlwaysComplete : Obligations.TransactionsAlwaysComplete := by
  intro addr data s ready haddr
  refine ⟨_, _, exec_writeTransaction_ready data ready haddr, finish_port_of_eq 0 (transact_spec _ s).1.port,
    exec_readTransaction_ready ready haddr, ⟨_, finish_port_of_eq _ (transact_spec _ s).1.port⟩, ?_⟩
  rintro w (hw | hw)
  · exact finish_transact_keeps _ s _ hw
  · exact finish_transact_keeps _ s _ hw

-- ---------------------------------------------------------------- the checksum (R156)

theorem lo8_ckStep (c v : Half) : lo8 (ckStep c v) = lo8 c + hi8 v + lo8 v := BitVec.extractLsb'_append_eq_right

theorem hi8_ckStep (c v : Half) : hi8 (ckStep c v) = hi8 c ^^^ hi8 v ^^^ lo8 v := BitVec.extractLsb'_append_eq_left

theorem toNat_lo8_ckStep (c v : Half) :
    (lo8 (ckStep c v)).toNat = ((lo8 c).toNat + (hi8 v).toNat + (lo8 v).toNat) % 256 := by
  simp [lo8_ckStep, BitVec.toNat_add]

/-- The sum and XOR law from any checksum on (R156). -/
theorem foldl_ckStep (vs : List Half) (c : Half) :
    (lo8 (vs.foldl ckStep c)).toNat =
        ((lo8 c).toNat + (vs.map fun v => (hi8 v).toNat + (lo8 v).toNat).sum) % 256 ∧
      hi8 (vs.foldl ckStep c) = vs.foldl (fun x v => x ^^^ hi8 v ^^^ lo8 v) (hi8 c) := by
  induction vs generalizing c with
  | nil => exact ⟨(Nat.mod_eq_of_lt (lo8 c).isLt).symm, rfl⟩
  | cons v vs ih =>
    obtain ⟨sum, xor⟩ := ih (ckStep c v)
    refine ⟨?_, by rw [List.foldl_cons, xor, hi8_ckStep, List.foldl_cons]⟩
    rw [List.foldl_cons, sum, toNat_lo8_ckStep, Nat.mod_add_mod, List.map_cons, List.sum_cons]
    simp only [Nat.add_assoc]

/-- Two values may be added in either order (R156). -/
theorem ckStep_right_comm (c v w : Half) : ckStep (ckStep c v) w = ckStep (ckStep c w) v := by
  have xor : hi8 (ckStep c v) ^^^ hi8 w ^^^ lo8 w = hi8 (ckStep c w) ^^^ hi8 v ^^^ lo8 v := by
    rw [hi8_ckStep, hi8_ckStep]
    ac_rfl
  have sum : lo8 (ckStep c v) + hi8 w + lo8 w = lo8 (ckStep c w) + hi8 v + lo8 v := by
    rw [lo8_ckStep, lo8_ckStep]
    ac_rfl
  exact congrArg₂ (· ++ ·) xor sum

/-- Settles O20: the two bytes of a checksum are a sum and an XOR (`foldl_ckStep`), so the order of the values does not
count (`ckStep_right_comm`). -/
theorem checksumIsSumAndXor : Obligations.ChecksumIsSumAndXor := by
  refine ⟨fun c v => ⟨toNat_lo8_ckStep c v, hi8_ckStep c v⟩, fun vs v => List.foldl_append, fun vs => ?_,
    fun vs ws perm => ?_, rfl, rfl⟩
  · obtain ⟨sum, xor⟩ := foldl_ckStep vs 0
    refine ⟨sum.trans ?_, xor⟩
    rw [show (lo8 0).toNat = 0 from rfl, Nat.zero_add]
    rfl
  · exact perm.foldl_eq' (fun v _ w _ c => ckStep_right_comm c v w) 0

-- ---------------------------------------------------------------- the block operations (R157, R158, R161, R101)

theorem exec_writeBlock_ready {first last : Byte} {s : State} (hisr : s.irq.inIsr = false)
    (hbusy : s.sst.busy = false) (hlast : last.toNat ≤ 0x6F) (hsclk : first.toNat ≤ last.toNat → s.sst.sclk = true) :
    exec (.writeBlock first last) s =
      .next (finish ((writeBlockOp first last s).sst.cksum.zeroExtend 32) (writeBlockOp first last s)) :=
  onBlockLink_ready _ hisr hbusy hlast hsclk

theorem exec_readBlock_ready {first last : Byte} {s : State} (hisr : s.irq.inIsr = false)
    (hbusy : s.sst.busy = false) (hlast : last.toNat ≤ 0x6F) (hsclk : first.toNat ≤ last.toNat → s.sst.sclk = true) :
    exec (.readBlock first last) s =
      .next (finish ((readBlockOp first last s).sst.cksum.zeroExtend 32) (readBlockOp first last s)) :=
  onBlockLink_ready _ hisr hbusy hlast hsclk

theorem rangeLength_pos_iff {first last : Byte} : 0 < rangeLength first last ↔ first.toNat ≤ last.toNat := by
  unfold rangeLength
  omega

theorem rangeLength_eq_zero_iff {first last : Byte} : rangeLength first last = 0 ↔ last.toNat < first.toNat := by
  unfold rangeLength
  omega

theorem lt_rangeLength_iff {first last : Byte} {k : Nat} :
    k < rangeLength first last ↔ first.toNat + k ≤ last.toNat := by
  unfold rangeLength
  omega

theorem rangeLength_le {first last : Byte} (hlast : last.toNat ≤ 0x6F) : rangeLength first last ≤ 112 := by
  unfold rangeLength
  omega

/-- The addresses of a range that is not empty lie inside `DEV` with its last one (R61). -/
theorem add_rangeLength_le {first last : Byte} (hlast : last.toNat ≤ 0x6F) (h : first.toNat ≤ last.toNat) :
    first.toNat + rangeLength first last ≤ 112 := by
  unfold rangeLength
  omega

section
variable (first last : Byte) (s : State)

theorem writeBlockOp_cksum :
    (writeBlockOp first last s).sst.cksum = checksumOf (bufPrefix s (rangeLength first last)) := by
  obtain ⟨-, cksum, -⟩ := writeRange_spec (rangeLength first last) first 0 (clearChecksum s)
  rw [writeBlockOp, cksum, ← List.range_eq_range']
  rfl

theorem writeBlockOp_empty {first last : Byte} (h : last.toNat < first.toNat) :
    writeBlockOp first last s = clearChecksum s := by
  rw [writeBlockOp, rangeLength_eq_zero_iff.mpr h, writeRange]

/-- A block write leaves the link as free and the clock as high as it found them (R161). -/
theorem writeBlockOp_lines (hbusy : s.sst.busy = false) (hsclk : first.toNat ≤ last.toNat → s.sst.sclk = true) :
    (writeBlockOp first last s).sst.busy = false ∧ (writeBlockOp first last s).sst.sclk = s.sst.sclk := by
  by_cases h : first.toNat ≤ last.toNat
  · obtain ⟨-, -, -, lines⟩ := writeRange_spec (rangeLength first last) first 0 (clearChecksum s)
    obtain ⟨sclk, busy⟩ := lines (rangeLength_pos_iff.mpr h)
    exact ⟨busy, sclk.trans (hsclk h).symm⟩
  · rw [writeBlockOp_empty s (Nat.not_le.mp h)]
    exact ⟨hbusy, rfl⟩

/-- The frames of a block write, and what is heard meanwhile (R157, R162). -/
theorem writeBlockOp_wire (hsclk : first.toNat ≤ last.toNat → s.sst.sclk = true) :
    ∃ answers, FrameAnswers (rangeLength first last) answers ∧ Hears s (writeBlockOp first last s) answers.flatten ∧
      (writeBlockOp first last s).log = (blockWaves s.sst.sdo
        ((writeFrames first (rangeLength first last) s.sst.buf).zip answers)).reverse ++ s.log := by
  obtain ⟨answers, count, hears, log⟩ := writeRange_wire (rangeLength first last) first 0 (clearChecksum s)
    fun h => hsclk (rangeLength_pos_iff.mp h)
  have cleared : Hears s (clearChecksum s) [] := Hears.of_eq rfl rfl
  exact ⟨answers, count, cleared.trans hears, by rw [← writeFramesFrom_zero]; exact log⟩

end

/-- Settles O21: one lemma for each part of what a block write does, over `writeBlockOp`. -/
theorem writeBlockReturnsChecksum : Obligations.WriteBlockReturnsChecksum := by
  intro first last s hisr hbusy hlast hsclk
  have frame := writeBlockOp_frame first last s
  have cksum := writeBlockOp_cksum first last s
  obtain ⟨busy, sclk⟩ := writeBlockOp_lines first last s hbusy hsclk
  obtain ⟨answers, count, hears, log⟩ := writeBlockOp_wire first last s hsclk
  refine ⟨_, answers, exec_writeBlock_ready hisr hbusy hlast hsclk, ?_, cksum, count, hears.congr rfl rfl, log,
    frame.buf, busy, sclk, fun a => ?_, finish_eq_of_keeps rfl frame.eq, fun empty => ?_⟩
  · rw [finish_port_of_eq _ frame.port, cksum]
    rfl
  · rw [finish_nvm, frame.nvm]
  · rw [writeBlockOp_empty s empty]
    rfl

/-- The values a block read receives (R158). -/
def readValues (first last : Byte) (s : State) : List Half :=
  (readRange (rangeLength first last) first (clearChecksum s)).1

section
variable (first last : Byte) (s : State)

theorem readValues_length : (readValues first last s).length = rangeLength first last := by
  obtain ⟨-, length, -⟩ := readRange_spec (rangeLength first last) first (clearChecksum s)
  exact length

theorem readBlockOp_cksum : (readBlockOp first last s).sst.cksum = checksumOf (readValues first last s) := by
  obtain ⟨-, -, cksum, -⟩ := readRange_spec (rangeLength first last) first (clearChecksum s)
  exact cksum

theorem readBlockOp_empty {first last : Byte} (h : last.toNat < first.toNat) :
    readBlockOp first last s = clearChecksum s := by
  rw [readBlockOp, rangeLength_eq_zero_iff.mpr h, readRange]
  rfl

/-- A block read keeps everything outside the link (R80). -/
theorem readBlockOp_eq :
    readBlockOp first last s =
      { s with
        sst := (readBlockOp first last s).sst
        log := (readBlockOp first last s).log
        ic := (readBlockOp first last s).ic
        env := (readBlockOp first last s).env } :=
  congrArg (fun t : State => { t with sst := (readBlockOp first last s).sst }) (readBlockOp_frame first last s).eq

/-- A block read leaves the link as free and the clock as high as it found them (R161). -/
theorem readBlockOp_lines (hbusy : s.sst.busy = false) (hsclk : first.toNat ≤ last.toNat → s.sst.sclk = true) :
    (readBlockOp first last s).sst.busy = false ∧ (readBlockOp first last s).sst.sclk = s.sst.sclk := by
  by_cases h : first.toNat ≤ last.toNat
  · obtain ⟨-, -, -, -, lines⟩ := readRange_spec (rangeLength first last) first (clearChecksum s)
    obtain ⟨sclk, busy⟩ := lines (rangeLength_pos_iff.mpr h)
    exact ⟨busy, sclk.trans (hsclk h).symm⟩
  · rw [readBlockOp_empty s (Nat.not_le.mp h)]
    exact ⟨hbusy, rfl⟩

/-- The frames of a block read, and its values in what is heard meanwhile (R158, R162). -/
theorem readBlockOp_wire (hsclk : first.toNat ≤ last.toNat → s.sst.sclk = true) :
    ∃ answers, FrameAnswers (rangeLength first last) answers ∧ Hears s (readBlockOp first last s) answers.flatten ∧
      readValues first last s = answers.map (fun a => halfOfBits (a.drop 8)) ∧
      (readBlockOp first last s).log = (blockWaves s.sst.sdo
        ((readFrames first (rangeLength first last) s.board.dummyByte).zip answers)).reverse ++ s.log := by
  obtain ⟨answers, count, hears, values, log, -⟩ := readRange_wire (rangeLength first last) first (clearChecksum s)
    fun h => hsclk (rangeLength_pos_iff.mp h)
  have cleared : Hears s (clearChecksum s) [] := Hears.of_eq rfl rfl
  exact ⟨answers, count, (cleared.trans hears).congr rfl rfl, values, log⟩

/-- `BUF` after a block read: the values received, then the elements as they were (R158). -/
theorem bufAt_readBlockOp {last : Byte} (hlast : last.toNat ≤ 0x6F) (k : Nat) :
    bufAt (readBlockOp first last s).sst.buf k =
      if k < rangeLength first last then (readValues first last s).getD k 0 else bufAt s.sst.buf k := by
  have length := readValues_length first last s
  obtain ⟨frame, -⟩ := readRange_spec (rangeLength first last) first (clearChecksum s)
  have stored := bufAt_storeBuf 0 (readValues first last s) s.sst.buf
    (by rw [length, Nat.zero_add]; exact rangeLength_le hlast) k
  rw [length] at stored
  have buf : (readBlockOp first last s).sst.buf = storeBuf 0 (readValues first last s) s.sst.buf :=
    congrArg (storeBuf 0 _) frame.buf
  simpa [buf] using stored

theorem bufPrefix_readBlockOp {last : Byte} (hlast : last.toNat ≤ 0x6F) :
    bufPrefix (readBlockOp first last s) (rangeLength first last) = readValues first last s := by
  apply List.ext_getElem
  · simp [bufPrefix, readValues_length]
  · intro k hk hv
    rw [readValues_length] at hv
    simp [bufPrefix, bufAt_readBlockOp first s hlast, hv, readValues_length]

end

/-- Under `DevIdeal` the values of a block read are the registers of its range (R158, R66). -/
theorem readValues_ideal {first last : Byte} {s : State} {dev : Vector Half 112} {sh : FrameWord}
    (hlast : last.toNat ≤ 0x6F) (ideal : s.ic = .ideal dev sh 0) :
    readValues first last s = (List.range (rangeLength first last)).map fun k => dev.getD (first.toNat + k) 0 := by
  by_cases h : first.toNat ≤ last.toNat
  · obtain ⟨values, -⟩ := readRange_ideal (rangeLength first last) first (clearChecksum s) dev sh ideal
      (add_rangeLength_le hlast h)
    rw [readValues, values, List.range'_eq_map_range, List.map_map]
    rfl
  · rw [readValues, rangeLength_eq_zero_iff.mpr (Nat.not_le.mp h)]
    rfl

/-- Settles O22: one lemma for each part of what a block read does, over `readBlockOp` and its `readValues`. -/
theorem readBlockFillsBuffer : Obligations.ReadBlockFillsBuffer := by
  intro first last s hisr hbusy hlast hsclk
  have port : (readBlockOp first last s).port = s.port := (readBlockOp_frame first last s).port
  have nvm : (readBlockOp first last s).nvm = s.nvm := (readBlockOp_frame first last s).nvm
  have cksum := readBlockOp_cksum first last s
  obtain ⟨busy, sclk⟩ := readBlockOp_lines first last s hbusy hsclk
  obtain ⟨answers, count, hears, values, log⟩ := readBlockOp_wire first last s hsclk
  refine ⟨_, answers, exec_readBlock_ready hisr hbusy hlast hsclk, count, hears.congr rfl rfl, log,
    (bufPrefix_readBlockOp first s hlast).trans values, fun dev sh ideal k hk => ?_, ?_, cksum.trans (by rw [values]),
    fun k hk => ?_, busy, sclk, fun a => ?_, finish_eq_of_keeps rfl (readBlockOp_eq first last s), fun empty => ?_⟩
  · have inRange := lt_rangeLength_iff.mpr hk
    rw [finish_sst, bufAt_readBlockOp first s hlast, if_pos inRange, readValues_ideal hlast ideal]
    simp [inRange]
  · rw [finish_port_of_eq _ port, cksum, values]
  · rw [finish_sst, bufAt_readBlockOp first s hlast]
    exact if_neg (Nat.not_lt.mpr hk)
  · rw [finish_nvm, nvm]
  · rw [readBlockOp_empty s empty]
    rfl

/-- Under `DevIdeal` a block write leaves the values of `BUF` in the registers of its range (R157, R66). -/
theorem writeBlockOp_ideal {first last : Byte} {s : State} {dev : Vector Half 112} {sh : FrameWord}
    (hlast : last.toNat ≤ 0x6F) (ideal : s.ic = .ideal dev sh 0) :
    ∃ dev' sh', (writeBlockOp first last s).ic = .ideal dev' sh' 0 ∧
      (List.range (rangeLength first last)).map (fun k => dev'.getD (first.toNat + k) 0) =
        bufPrefix s (rangeLength first last) := by
  by_cases h : first.toNat ≤ last.toNat
  · obtain ⟨dev', sh', ic, values, -⟩ := writeRange_ideal (rangeLength first last) first 0 (clearChecksum s) dev sh
      ideal (add_rangeLength_le hlast h)
    refine ⟨dev', sh', ic, List.map_congr_left fun k hk => ?_⟩
    rw [values k (List.mem_range.mp hk), Nat.zero_add]
    rfl
  · have empty := Nat.not_le.mp h
    exact ⟨dev, sh, by rw [writeBlockOp_empty s empty]; exact ideal, by rw [rangeLength_eq_zero_iff.mpr empty]; rfl⟩

/-- Settles O23: the registers hold what the block write found in `BUF` (`writeBlockOp_ideal`), and the block read
receives the registers (`readValues_ideal`). -/
theorem blockRoundTripUnderDevIdeal : Obligations.BlockRoundTripUnderDevIdeal := by
  rintro first last s dev sh ⟨hisr, hbusy, hsclk⟩ hlast ideal
  obtain ⟨dev', sh', ic, written⟩ := writeBlockOp_ideal hlast ideal
  refine ⟨_, exec_writeBlock_ready hisr hbusy hlast fun _ => hsclk, ?_⟩
  rintro u ⟨uisr, ubusy, usclk⟩ uic
  have received : readValues first last u = bufPrefix s (rangeLength first last) :=
    (readValues_ideal hlast (uic.trans ic)).trans written
  refine ⟨_, exec_readBlock_ready uisr ubusy hlast fun _ => usclk, ?_,
    (bufPrefix_readBlockOp first u hlast).trans received⟩
  rw [finish_port, finish_port, readBlockOp_cksum, received, writeBlockOp_cksum]

end Sys2Proof.Machine
end


section
/-! SUPPORT. Proofs for one button of the Button Pipeline: the debounce step and the events fired over a sequence of
samples. -/

namespace Sys2Proof.Machine

-- ---------------------------------------------------------------- one debounce step (R185, R186)

theorem isActive_eq_decide (a r : Bool) : isActive a r = decide (r = a) := beq_eq_decide r a

/-- Settles O26, row by row: the state, whether the last level was active, and whether the sample is. -/
theorem debounceFollowsTable : Obligations.DebounceFollowsTable := by
  intro a d raw
  rw [debounce, isActive_eq_decide, isActive_eq_decide]
  cases d.st <;> cases decide (d.last = a) <;> cases decide (raw = a) <;> rfl

/-- The kind of the next event of a button: `press'd` while it awaits a press (R186, R188). -/
def nextKind : Debounce → Bool
  | .awaitPress => false
  | .awaitRelease => true

/-- A debounce step fires nothing and stays in its state, or fires the state's event and goes to the other state
(R186). -/
theorem debounce_fires (a : Bool) (d : Descriptor) (r : Bool) :
    ((debounce a d r).2 = none ∧ (debounce a d r).1.st = d.st) ∨
      ((debounce a d r).2 = some (eventWord (nextKind d.st) d.id) ∧
        nextKind (debounce a d r).1.st = !nextKind d.st) := by
  obtain ⟨loc, mask, id, st, last⟩ := d
  cases st with
  | awaitPress | awaitRelease =>
    simp only [debounce]
    split
    · exact .inr ⟨rfl, rfl⟩
    · exact .inl ⟨rfl, rfl⟩

section
variable {a r : Bool} {d : Descriptor} (press : d.st = .awaitPress)
include press

/-- R186, rows 1 and 3. -/
theorem debounce_awaitPress_inactive (sample : r ≠ a) : debounce a d r = ({ d with last := r }, none) := by
  simp [debounce, isActive, press, sample]

/-- R186, row 2. -/
theorem debounce_awaitPress_press'd (last : d.last ≠ a) (sample : r = a) :
    debounce a d r = ({ d with st := .awaitRelease, last := r }, some (eventWord false d.id)) := by
  simp [debounce, isActive, press, last, sample]

/-- R186, row 4: a button held since before its first step stays as it is (R189). -/
theorem debounce_awaitPress_held (last : d.last = a) (sample : r = a) : debounce a d r = (d, none) := by
  obtain ⟨loc, mask, id, st, level⟩ := d
  obtain rfl : st = .awaitPress := press
  obtain rfl : level = a := last
  simp [debounce, sample]

end

-- ---------------------------------------------------------------- the events of one button (R188, R189)

@[simp] theorem firedKinds_nil (a : Bool) (d : Descriptor) : firedKinds a d [] = [] := rfl

theorem firedKinds_cons_of_none {a r : Bool} {d : Descriptor} (rs : List Bool) (h : (debounce a d r).2 = none) :
    firedKinds a d (r :: rs) = firedKinds a (debounce a d r).1 rs := by
  rw [firedKinds, h]
  rfl

/-- Bit 8 of an event word is its kind (R100). -/
theorem eventWord_kind (released : Bool) (id : Byte) : (eventWord released id).getLsbD 8 = released := by
  rw [eventWord, BitVec.getLsbD_append]
  cases released <;> rfl

theorem firedKinds_cons_of_some {a r k : Bool} {d : Descriptor} {id : Byte} (rs : List Bool)
    (h : (debounce a d r).2 = some (eventWord k id)) :
    firedKinds a d (r :: rs) = k :: firedKinds a (debounce a d r).1 rs := by
  rw [firedKinds, h]
  exact congrArg (· :: _) (eventWord_kind k id)

theorem firedKinds_alternate (a : Bool) (d : Descriptor) (samples : List Bool) :
    alternates (nextKind d.st) (firedKinds a d samples) = true := by
  induction samples generalizing d with
  | nil => rfl
  | cons r rs ih =>
    have rest := ih (debounce a d r).1
    rcases debounce_fires a d r with ⟨quiet, st⟩ | ⟨fired, st⟩
    · rwa [firedKinds_cons_of_none rs quiet, ← st]
    · rw [firedKinds_cons_of_some rs fired, alternates, beq_self_eq_true, Bool.true_and, ← st]
      exact rest

/-- Once a button's state follows its level it does so after every further step (R36). -/
theorem StateMatchesLevel.step {a : Bool} {d : Descriptor} (h : StateMatchesLevel a d) (r : Bool) :
    StateMatchesLevel a (debounce a d r).1 :=
  (debounce_matches_iff a d r h.mp).mpr fun ⟨press, last, _⟩ => by
    rw [h.mpr last] at press
    cases press

theorem StateMatchesLevel.steps {a : Bool} {d : Descriptor} (h : StateMatchesLevel a d) (samples : List Bool) :
    StateMatchesLevel a (serviced a d samples) := by
  induction samples generalizing d with
  | nil => exact h
  | cons r rs ih => exact ih (h.step r)

/-- A button that awaits a press follows its level once its initial level or any sample was inactive (R36, R189). -/
theorem serviced_matches_of_inactive {a : Bool} {d : Descriptor} {samples : List Bool} (press : d.st = .awaitPress)
    (inactive : ∃ r ∈ d.last :: samples, r ≠ a) : StateMatchesLevel a (serviced a d samples) := by
  induction samples with
  | nil =>
    obtain ⟨r, hr, hne⟩ := inactive
    obtain rfl := List.mem_singleton.mp hr
    exact ⟨fun release => by simp [serviced, press] at release, fun last => absurd last hne⟩
  | cons r rs ih =>
    by_cases held : d.last = a ∧ r = a
    · obtain ⟨last, sample⟩ := held
      have step : serviced a d (r :: rs) = serviced a d rs :=
        congrArg (fun e => serviced a e.1 rs) (debounce_awaitPress_held press last sample)
      rw [step]
      refine ih ?_
      simpa [last, sample] using inactive
    · have step := (debounce_matches_iff a d r fun release => by simp [press] at release).mpr fun h => held h.2
      exact step.steps rs

theorem serviced_of_held {a : Bool} {d : Descriptor} {samples : List Bool} (press : d.st = .awaitPress)
    (active : ∀ r ∈ d.last :: samples, r = a) :
    serviced a d samples = d ∧ firedKinds a d samples = [] := by
  induction samples with
  | nil => exact ⟨rfl, rfl⟩
  | cons r rs ih =>
    simp only [List.forall_mem_cons] at active ih
    obtain ⟨last, sample, rest⟩ := active
    have held := debounce_awaitPress_held press last sample
    rw [firedKinds_cons_of_none rs (by rw [held]), held]
    obtain ⟨same, quiet⟩ := ih ⟨last, rest⟩
    exact ⟨(congrArg (fun e => serviced a e.1 rs) held).trans same, quiet⟩

/-- Settles O29, by induction over the samples. -/
theorem buttonEventsAlternate : Obligations.ButtonEventsAlternate := by
  intro a d samples press
  have alternate := firedKinds_alternate a d samples
  rw [press] at alternate
  exact ⟨alternate, serviced_matches_of_inactive press, serviced_of_held press⟩

/-- Settles O30: with an inactive first sample the step forgets the last level; with an active one the last level says
whether the button is press'd now or was held before. -/
theorem initialLevelMattersOnlyWhenActive : Obligations.InitialLevelMattersOnlyWhenActive := by
  intro a d e r samples press he
  have press' : e.st = .awaitPress := by rw [he]; exact press
  refine ⟨fun inactive => ?_, fun sample last => ?_, fun sample last => ?_⟩
  · have step := debounce_awaitPress_inactive press inactive
    have step' := debounce_awaitPress_inactive press' inactive
    rw [firedKinds_cons_of_none _ (by rw [step]), firedKinds_cons_of_none _ (by rw [step']), step, step', he]
  · rw [firedKinds_cons_of_some _ (by rw [debounce_awaitPress_press'd press last sample])]
    rfl
  · have held := debounce_awaitPress_held press last sample
    have skip (rs : List Bool) : firedKinds a d (r :: rs) = firedKinds a d rs := by
      rw [firedKinds_cons_of_none _ (by rw [held]), held]
    have release := debounce_awaitPress_inactive press (Bool.not_ne_self a)
    have again := debounce_awaitPress_press'd (d := { d with last := !a }) press (Bool.not_ne_self a) rfl
    refine ⟨skip [], ?_, ?_⟩
    · rw [skip, firedKinds_cons_of_none _ (by rw [release]), firedKinds_nil]
    · rw [skip, firedKinds_cons_of_none _ (by rw [release]), release, firedKinds_cons_of_some _ (by rw [again]),
        firedKinds_nil]

end Sys2Proof.Machine
end


section
/-! SUPPORT. Proofs for the Event Queue: the ring as a first-in first-out list of at most seven events. -/

namespace Sys2Proof.Machine

-- ---------------------------------------------------------------- the ring as a list (R190, R193)

theorem Queue.live_length (q : Queue) : q.live.length = q.count := by
  simp [Queue.live]

theorem Queue.count_le (q : Queue) : q.count ≤ 7 := Nat.le_of_lt_succ (q.head - q.tail).isLt

theorem Queue.count_eq_zero_iff (q : Queue) : q.count = 0 ↔ q.head = q.tail := by
  rw [Queue.count]
  bv_omega

theorem Queue.count_eq_seven_iff (q : Queue) : q.count = 7 ↔ q.head + 1 = q.tail := by
  rw [Queue.count]
  bv_omega

theorem Queue.live_eq_nil_iff (q : Queue) : q.live = [] ↔ q.head = q.tail := by
  rw [← List.length_eq_zero_iff, q.live_length, q.count_eq_zero_iff]

/-- The place `HEAD` is as far behind `TAIL` as there are events (R38). -/
theorem Queue.tail_add_count (q : Queue) : q.tail + BitVec.ofNat 3 q.count = q.head := by
  rw [Queue.count, BitVec.ofNat_toNat, BitVec.setWidth_eq]
  bv_omega

/-- No live event stands at `HEAD`. -/
theorem Queue.live_place_ne_head (q : Queue) {k : Nat} (hk : k < q.count) : q.tail + BitVec.ofNat 3 k ≠ q.head := by
  rw [Queue.count] at hk
  bv_omega

/-- A push onto a queue with room appends its event (R191, R194). -/
theorem pushEvent_live {ev : EventWord} {s : State} (room : s.evq.head + 1 ≠ s.evq.tail) :
    (pushEvent ev s).evq.live = s.evq.live ++ [ev] := by
  have count : (pushEvent ev s).evq.count = s.evq.count + 1 := by
    rw [pushEvent_room room]
    simp only [Queue.count]
    bv_omega
  rw [Queue.live, count, pushEvent_room room, List.range_succ, List.map_append, List.map_singleton]
  simp only [s.evq.tail_add_count, slotAt_setSlot, if_pos]
  refine congrArg (· ++ [ev]) (List.map_congr_left fun k hk => ?_)
  exact if_neg (s.evq.live_place_ne_head (List.mem_range.mp hk))

/-- The oldest event stands at `TAIL`, and without it the queue is the one with `TAIL` advanced (R190). -/
theorem Queue.live_eq_cons {q : Queue} (h : q.head ≠ q.tail) :
    q.live = slotAt q.slot q.tail :: Queue.live { q with tail := q.tail + 1 } := by
  have count : q.count = Queue.count { q with tail := q.tail + 1 } + 1 := by
    simp only [Queue.count]
    bv_omega
  rw [Queue.live, count, List.range_succ_eq_map, List.map_cons, List.map_map]
  refine congrArg₂ List.cons (by simp) (List.map_congr_left fun k _ => ?_)
  simp only [Function.comp_apply]
  rw [Nat.succ_eq_add_one, Nat.add_comm, BitVec.ofNat_add, ← BitVec.add_assoc]
  rfl

theorem Queue.isEmpty_iff (q : Queue) : q.isEmpty = true ↔ q.head = q.tail := beq_iff_eq

theorem popEvent_empty {s : State} (h : s.evq.head = s.evq.tail) : popEvent s = s := by
  rw [popEvent, if_pos (s.evq.isEmpty_iff.mpr h)]

theorem popEvent_oldest {s : State} (h : s.evq.head ≠ s.evq.tail) :
    popEvent s = { s with evq := { s.evq with tail := s.evq.tail + 1 } } := by
  rw [popEvent, if_neg (s.evq.isEmpty_iff.not.mpr h)]

/-- A pop takes the oldest event, if there is one (R193, R194). -/
theorem popEvent_live (s : State) : (popEvent s).evq.live = s.evq.live.drop 1 := by
  by_cases h : s.evq.head = s.evq.tail
  · rw [popEvent_empty h, s.evq.live_eq_nil_iff.mpr h, List.drop_nil]
  · rw [popEvent_oldest h, Queue.live_eq_cons h, List.drop_one, List.tail_cons]

theorem Queue.eq_slotAt_of_head?_live {q : Queue} {e : EventWord} (h : q.live.head? = some e) :
    e = slotAt q.slot q.tail := by
  by_cases empty : q.head = q.tail
  · rw [q.live_eq_nil_iff.mpr empty] at h
    cases h
  · rw [Queue.live_eq_cons empty] at h
    exact (Option.some.inj h).symm

/-- A queue of seven events is full (R190). -/
theorem Queue.live_length_eq_seven_iff (q : Queue) : q.live.length = 7 ↔ q.head + 1 = q.tail := by
  rw [q.live_length, q.count_eq_seven_iff]

theorem Queue.live_length_lt_seven_iff (q : Queue) : q.live.length < 7 ↔ q.head + 1 ≠ q.tail := by
  rw [Ne, ← q.live_length_eq_seven_iff, q.live_length]
  exact ⟨Nat.ne_of_lt, Nat.lt_of_le_of_ne q.count_le⟩

/-- Settles O33: a push appends (`pushEvent_live`), a pop takes the oldest (`popEvent_live`), which stands at
`TAIL`. -/
theorem queueIsBoundedFifo : Obligations.QueueIsBoundedFifo := by
  intro ev s
  refine ⟨s.evq.live_eq_nil_iff, s.evq.live_length.trans_le s.evq.count_le, s.evq.live_length_eq_seven_iff,
    fun room => pushEvent_live (s.evq.live_length_lt_seven_iff.mp room), fun seven => ?_, popEvent_live s,
    fun e => Queue.eq_slotAt_of_head?_live⟩
  rw [pushEvent_full (s.evq.live_length_eq_seven_iff.mp seven)]

-- ---------------------------------------------------------------- sequences of pushes (R194)

theorem pushAll_cons (ev : EventWord) (evs : List EventWord) (s : State) :
    pushAll (ev :: evs) s = pushAll evs (pushEvent ev s) := rfl

theorem pushAll_append (evs more : List EventWord) (s : State) :
    pushAll (evs ++ more) s = pushAll more (pushAll evs s) :=
  List.foldl_append

theorem pushEvent_env (ev : EventWord) (s : State) : (pushEvent ev s).env = s.env := by
  unfold pushEvent
  split <;> rfl

theorem pushAll_env (evs : List EventWord) (s : State) : (pushAll evs s).env = s.env := by
  induction evs generalizing s with
  | nil => rfl
  | cons ev evs ih => rw [pushAll_cons, ih, pushEvent_env]

/-- What pushes with no pop in between do to a queue that holds at most seven events: the first that find room are
appended, the others are dropped in order (R191, R194). -/
theorem pushAll_spec (evs : List EventWord) (s : State) :
    (pushAll evs s).evq.live = s.evq.live ++ evs.take (7 - s.evq.live.length) ∧
      (pushAll evs s).log = ((evs.drop (7 - s.evq.live.length)).map Obs.drop).reverse ++ s.log := by
  induction evs generalizing s with
  | nil => simp [pushAll]
  | cons ev evs ih =>
    obtain ⟨live, log⟩ := ih (pushEvent ev s)
    by_cases full : s.evq.head + 1 = s.evq.tail
    · have seven := s.evq.live_length_eq_seven_iff.mpr full
      have kept : (pushEvent ev s).evq = s.evq := by rw [pushEvent_full full]
      have dropped : (pushEvent ev s).log = .drop ev :: s.log := by rw [pushEvent_full full]
      rw [kept, seven] at live log
      rw [pushAll_cons, live, log, dropped, seven]
      simp
    · have room := s.evq.live_length_lt_seven_iff.mpr full
      have appended := pushEvent_live (ev := ev) full
      have kept : (pushEvent ev s).log = s.log := by rw [pushEvent_room full]
      have left : 7 - s.evq.live.length = 7 - (pushEvent ev s).evq.live.length + 1 := by
        rw [appended, List.length_append, List.length_singleton]
        omega
      rw [pushAll_cons, live, log, kept, left, appended]
      simp

/-- Settles O34, by what pushes do to a queue of any length (`pushAll_spec`). -/
theorem overflowKeepsOldestSeven : Obligations.OverflowKeepsOldestSeven := by
  intro evs s empty
  have spec := pushAll_spec evs s
  rwa [s.evq.live_eq_nil_iff.mpr empty] at spec

end Sys2Proof.Machine
end


section
/-! SUPPORT. Proofs for the operations of the Button Pipeline and the Event Queue: push, poll, registration and the
service step. -/

namespace Sys2Proof.Machine

-- ---------------------------------------------------------------- the queue's operations (R191, R193, R255)

theorem exec_push_handler {ev : EventWord} {s : State} (h : s.irq.inIsr = true) :
    exec (.push ev) s = .next (pushEvent ev s) :=
  interruptOnly_handler _ h

/-- Settles O31, by the two branches of the push. -/
theorem pushKeepsOrDropsEvent : Obligations.PushKeepsOrDropsEvent := by
  intro ev s
  refine ⟨fun handler full => ?_, fun handler room => ?_, interruptOnly_foreground _⟩
  · rw [exec_push_handler handler, pushEvent_full full]
  · refine ⟨setSlot s.evq.slot s.evq.head ev, ?_, ?_, fun c other => ?_⟩
    · rw [exec_push_handler handler, pushEvent_room room]
    · rw [slotAt_setSlot, if_pos rfl]
    · rw [slotAt_setSlot, if_neg other]

theorem pollResult_empty {q : Queue} (h : q.head = q.tail) : pollResult q = 0 :=
  if_pos (q.isEmpty_iff.mpr h)

theorem pollResult_oldest {q : Queue} (h : q.head ≠ q.tail) :
    pollResult q = (1#1 ++ slotAt q.slot q.tail).zeroExtend 32 :=
  if_neg (q.isEmpty_iff.not.mpr h)

/-- `POLL_EVENT` leaves its result, the pop and the trace of its critical section (R193, R97, R249). -/
theorem exec_pollEvent_foreground {s : State} (h : s.irq.inIsr = false) :
    exec .pollEvent s = .next
      { s with
        evq := (popEvent s).evq
        port := doneWith s (pollResult s.evq)
        irq := afterSection s
        env := envAfterSection s } := by
  rw [exec, execPollEvent, foregroundOnly_foreground _ h, critical_popEvent]
  rfl

/-- Settles O32, by the two cases of the pop and of the result word. -/
theorem pollEventPopsOldest : Obligations.PollEventPopsOldest := by
  intro s
  refine ⟨fun foreground empty => ?_, fun foreground filled => ?_, foregroundOnly_handler _⟩
  · rw [exec_pollEvent_foreground foreground, popEvent_empty empty, pollResult_empty empty]
  · rw [exec_pollEvent_foreground foreground, popEvent_oldest filled, pollResult_oldest filled]

-- ---------------------------------------------------------------- registration (R181, R196)

theorem exec_registerButton_room {loc mask id : Byte} {s : State} (h : s.irq.inIsr = false)
    (room : s.btn.length < s.board.maxButtons) :
    exec (.registerButton loc mask id) s = .next (finish 0 (critical (appendButton loc mask id) s)) :=
  (foregroundOnly_foreground _ h).trans (if_pos ((hasRoom_iff _ _).mpr room))

theorem exec_registerButton_full {loc mask id : Byte} {s : State} (h : s.irq.inIsr = false)
    (full : s.board.maxButtons ≤ s.btn.length) :
    exec (.registerButton loc mask id) s = .refused .storeFull :=
  (foregroundOnly_foreground _ h).trans (if_neg ((hasRoom_iff _ _).not.mpr (Nat.not_lt.mpr full)))

/-- Settles O25, by the guards of the operation; its critical section is `critical_appendButton`. -/
theorem registerButtonAppendsDescriptor : Obligations.RegisterButtonAppendsDescriptor := by
  intro loc mask id s
  refine ⟨fun foreground room => ⟨Config.btnInitLast s.env.draws, ?_⟩, exec_registerButton_full,
    foregroundOnly_handler _⟩
  rw [exec_registerButton_room foreground room, critical_appendButton]
  rfl

-- ---------------------------------------------------------------- the service step (R183, R185, R251)

/-- The frame as one equation between states. -/
theorem ProducerFrame.eq {s t : State} (h : ProducerFrame s t) :
    t = { s with evq := t.evq, log := t.log, env := t.env } := by
  obtain ⟨tick, sst, btn, cal, nvm, irq, port, ic, board, -, -, -, -, -⟩ := h
  cases s; cases t; simp_all

/-- `SERVICE` writes the descriptors, the queue, the history and the answers left, and nothing else (R21, R185). -/
theorem serviceStep_eq (s : State) :
    serviceStep s = { s with
      btn := (serviceStep s).btn
      evq := (serviceStep s).evq
      log := (serviceStep s).log
      env := (serviceStep s).env } :=
  congrArg (fun t : State => { t with btn := (serviceStep s).btn }) (serviceList_spec s.btn s).1.eq

theorem exec_service_handler {s : State} (h : s.irq.inIsr = true) : exec .service s = .next (serviceStep s) :=
  interruptOnly_handler _ h

/-- Settles O28, by what the service step leaves alone and `debounce_matches_iff` at every descriptor. -/
theorem serviceCompletesAndKeepsRest : Obligations.ServiceCompletesAndKeepsRest := by
  refine fun s => ⟨fun handler => ?_, interruptOnly_foreground _⟩
  obtain ⟨frame, identified⟩ := serviceList_spec s.btn s
  refine ⟨serviceStep s, exec_service_handler handler, identified, fun k d e hd he releaseActive => ?_, frame.tail,
    fun a => congrArg (memRead · a) frame.nvm, serviceStep_eq s⟩
  have step : e = (debounce s.board.activeLevel d e.last).1 := serviceList_getElem? s.btn s k hd he
  have matching := debounce_matches_iff s.board.activeLevel d e.last releaseActive
  rwa [← step] at matching

/-- A descriptor's debounce step on the levels of its input register (R183, R185). -/
def stepOn (activeLevel : Bool) (d : Descriptor) (levels : Byte) : Descriptor × Option EventWord :=
  debounce activeLevel d (decide (levels &&& d.mask ≠ 0#8))

/-- The events that descriptors fire on their registers' levels, in registration order (R185, R251). -/
def eventsOn (activeLevel : Bool) (ds : List Descriptor) (levels : List Byte) : List EventWord :=
  (List.zipWith (fun d v => (stepOn activeLevel d v).2) ds levels).filterMap id

theorem eventsOn_cons (a : Bool) (d : Descriptor) (ds : List Descriptor) (v : Byte) (vs : List Byte) :
    eventsOn a (d :: ds) (v :: vs) = (stepOn a d v).2.toList ++ eventsOn a ds vs := by
  cases h : (stepOn a d v).2 <;> simp [eventsOn, h]

theorem pushFired_eq_pushAll (ev : Option EventWord) (s : State) : pushFired ev s = pushAll ev.toList s := by
  cases ev <;> rfl

/-- The state with the answers of the input registers replaced (R64). -/
def withAnswers (inp : List Byte) (s : State) : State := { s with env := { s.env with inp := inp } }

theorem pushEvent_withAnswers (ev : EventWord) (inp : List Byte) (s : State) :
    pushEvent ev (withAnswers inp s) = withAnswers inp (pushEvent ev s) := by
  by_cases full : s.evq.head + 1 = s.evq.tail
  · rw [pushEvent_full full]
    exact pushEvent_full full
  · rw [pushEvent_room full]
    exact pushEvent_room full

/-- Pushes do not look at the answers. -/
theorem pushAll_withAnswers (evs : List EventWord) (inp : List Byte) (s : State) :
    pushAll evs (withAnswers inp s) = withAnswers inp (pushAll evs s) := by
  induction evs generalizing s with
  | nil => rfl
  | cons ev evs ih => rw [pushAll_cons, pushEvent_withAnswers, ih, pushAll_cons]

theorem rawLevel_eq_decide (levels mask : Byte) : rawLevel levels mask = decide (levels &&& mask ≠ 0#8) := by
  simp [rawLevel, bne, beq_eq_decide]

theorem readInput_listed {loc v : Byte} {s : State} {rest : List Byte} (h : s.env.inp = v :: rest) :
    readInput loc s = (v, withAnswers rest s) := by
  simp [readInput, h, withAnswers]

/-- One descriptor's service step with a listed answer (R64, R185). -/
theorem serviceOne_listed {v : Byte} {rest : List Byte} {s : State} (d : Descriptor) (h : s.env.inp = v :: rest) :
    serviceOne d s = ((stepOn s.board.activeLevel d v).1,
      withAnswers rest (pushAll (stepOn s.board.activeLevel d v).2.toList s)) := by
  rw [serviceOne, readInput_listed h, pushFired_eq_pushAll, pushAll_withAnswers, rawLevel_eq_decide]
  rfl

/-- The service step over descriptors with one listed answer for each (R185, R251). -/
theorem serviceList_listed (ds : List Descriptor) (s : State) (levels rest : List Byte)
    (answers : s.env.inp = levels ++ rest) (length : levels.length = ds.length) :
    serviceList ds s = (List.zipWith (fun d v => (stepOn s.board.activeLevel d v).1) ds levels,
      withAnswers rest (pushAll (eventsOn s.board.activeLevel ds levels) s)) := by
  induction ds generalizing s levels with
  | nil =>
    obtain rfl := List.length_eq_zero_iff.mp length
    obtain rfl : s.env.inp = rest := answers
    rfl
  | cons d ds ih =>
    obtain ⟨v, vs, rfl⟩ := List.exists_cons_of_length_eq_add_one length
    have first := serviceOne_listed d answers
    have others := ih (serviceOne d s).2 vs (by rw [first]; rfl) (Nat.succ.inj length)
    rw [serviceOne_board, first, pushAll_withAnswers, ← pushAll_append, ← eventsOn_cons] at others
    rw [serviceList, first]
    simp only [others]
    rfl

/-- Settles O27: the service step's descriptors, pushes and answers left are those of `serviceList_listed`. -/
theorem serviceStepsEveryButton : Obligations.ServiceStepsEveryButton := by
  intro s levels rest handler answers length
  have step := serviceList_listed s.btn s levels rest answers length
  refine ⟨serviceStep s, exec_service_handler handler, congrArg Prod.fst step, ?_,
    (congrArg (fun r => r.2.env) step).trans ?_, serviceStep_eq s⟩
  · rintro fired rfl
    exact ⟨congrArg (fun r => r.2.evq) step, congrArg (fun r => r.2.log) step⟩
  · exact congrArg (fun env : Env => { env with inp := rest }) (pushAll_env _ s)

end Sys2Proof.Machine
end


section
/-! SUPPORT. Proofs for the family of the Calibration Store: what its operations refuse, the check word, the field
operations and the persisting, the load of a valid and of an invalid image, and the record writes of every operation. -/

namespace Sys2Proof.Machine

-- ---------------------------------------------------------------- refusals (R222, R255)

section
variable {offset : Byte} {s : State} (k : Host.Outcome State Fault Refusal)

theorem onLoadedStore_ready (hisr : s.irq.inIsr = false) (hloaded : s.cal.loaded = true) : onLoadedStore s k = k :=
  (foregroundOnly_foreground _ hisr).trans (if_pos hloaded)

theorem onLoadedStore_notLoaded (hisr : s.irq.inIsr = false) (hloaded : s.cal.loaded = false) :
    onLoadedStore s k = .refused .notLoaded :=
  (foregroundOnly_foreground _ hisr).trans (if_neg (Bool.eq_false_iff.mp hloaded))

theorem onStoreField_ready (hisr : s.irq.inIsr = false) (hloaded : s.cal.loaded = true) (hoffset : offset.toNat ≤ 20) :
    onStoreField offset s k = k :=
  (onLoadedStore_ready _ hisr hloaded).trans (if_pos hoffset)

theorem onStoreField_badOffset (hisr : s.irq.inIsr = false) (hloaded : s.cal.loaded = true)
    (hoffset : 20 < offset.toNat) : onStoreField offset s k = .refused .badOffset :=
  (onLoadedStore_ready _ hisr hloaded).trans (if_neg (Nat.not_le.mpr hoffset))

end

theorem exec_calLoad_busy {s : State} (hisr : s.irq.inIsr = false) (hbusy : s.sst.busy = true) :
    exec .calLoad s = .refused .transportBusy :=
  (foregroundOnly_foreground _ hisr).trans (if_pos hbusy)

/-- Settles O42: the field operations stand behind `onStoreField`, these and the persisting behind `onLoadedStore`, and
all of the unit behind `foregroundOnly`. -/
theorem storeRefusesMisuse : Obligations.StoreRefusesMisuse := by
  intro offset value n s
  refine ⟨fun hisr hloaded => ?_, fun hisr hloaded hoffset => ?_, exec_calLoad_busy, fun hisr => ?_⟩
  · exact ⟨onLoadedStore_notLoaded _ hisr hloaded, onLoadedStore_notLoaded _ hisr hloaded,
      onLoadedStore_notLoaded _ hisr hloaded⟩
  · exact ⟨onStoreField_badOffset _ hisr hloaded hoffset, onStoreField_badOffset _ hisr hloaded hoffset⟩
  · exact ⟨foregroundOnly_handler _ hisr, foregroundOnly_handler _ hisr, foregroundOnly_handler _ hisr,
      foregroundOnly_handler _ hisr, foregroundOnly_handler _ hisr⟩

-- ---------------------------------------------------------------- the check word (R211)

theorem exec_crc16_foreground (n : Half) {s : State} (hisr : s.irq.inIsr = false) :
    exec (.crc16 n) s =
      .next (giveInner ((crcOfWork n s).zeroExtend 32) (if n.toNat ≤ Config.recBytes then s else drawn s)) :=
  foregroundOnly_foreground _ hisr

theorem take_recordBytes (r : CalRecord) : (recordBytes r).take 44 = recordBody r :=
  List.take_left' (recordBody_length r)

/-- The count the rule names covers every field before the CRC (R211, R102). -/
theorem crcOfWork_fortyFour (s : State) : crcOfWork 44 s = crcOf s.board.crc (recordBody s.cal.work) := by
  rw [← take_recordBytes]
  rfl

/-- Settles O35, by the string `CRC16` takes at the rule's count (`crcOfWork_fortyFour`); the values are closed. -/
theorem crc16ComputesCheckWord : Obligations.Crc16ComputesCheckWord := by
  refine ⟨fun s hisr => ?_, fun n s hisr => ⟨_, exec_crc16_foreground n hisr, ?_⟩,
    fun _ _ => foregroundOnly_handler _, rfl, by decide +kernel, by decide +kernel⟩
  · rw [exec_crc16_foreground 44 hisr, crcOfWork_fortyFour]
    rfl
  · by_cases h : n.toNat ≤ Config.recBytes
    · rw [if_pos h]
      rfl
    · rw [if_neg h]
      rfl

-- ---------------------------------------------------------------- the fields (R216, R217)

theorem exec_calReadField_ready {offset : Byte} {s : State} (hisr : s.irq.inIsr = false)
    (hloaded : s.cal.loaded = true) (hoffset : offset.toNat ≤ 20) :
    exec (.calReadField offset) s = .next (finish ((getField s.cal.work offset.toNat).zeroExtend 32) s) :=
  onStoreField_ready _ hisr hloaded hoffset

theorem getField_meter (r : CalRecord) {f : Nat} (h : f ≤ 10) : getField r f = r.meter[f] := by
  simp [getField, Vector.getD, h, Nat.lt_succ_of_le h]

theorem getField_meas (r : CalRecord) {f : Nat} (h : 11 ≤ f ∧ f ≤ 20) : getField r f = r.meas[f - 11] := by
  simp [getField, Vector.getD, Nat.not_le.mpr h.1, show f - 11 < 10 by omega]

/-- Settles O39, by the two ranges of the offset. -/
theorem calReadFieldGivesValue : Obligations.CalReadFieldGivesValue := by
  intro offset s hisr hloaded
  refine ⟨fun meter => ?_, fun meas => ?_⟩
  · rw [exec_calReadField_ready hisr hloaded (by omega), getField_meter _ meter]
    rfl
  · rw [exec_calReadField_ready hisr hloaded meas.2, getField_meas _ meas]
    rfl

theorem exec_calUpdateField_ready {offset : Byte} (value : Half) {s : State} (hisr : s.irq.inIsr = false)
    (hloaded : s.cal.loaded = true) (hoffset : offset.toNat ≤ 20) :
    exec (.calUpdateField offset value) s =
      .next (finish 0 (sealAndStore (setWork (setField s.cal.work offset.toNat value) s))) :=
  onStoreField_ready _ hisr hloaded hoffset

/-- Settles O40: the fields are those of `getField_setField`, and `sealAndStore_spec` has the record write. -/
theorem calUpdateFieldSealsAndStores : Obligations.CalUpdateFieldSealsAndStores := by
  intro offset value s hisr hloaded hoffset wf
  obtain ⟨image, -, outside, log⟩ := sealAndStore_spec (setWork (setField s.cal.work offset.toNat value) s) wf
  refine ⟨_, exec_calUpdateField_ready value hisr hloaded hoffset, ?_, fun f _ other => ?_, ?_, hloaded, rfl, image,
    outside, log, rfl, rfl⟩
  · exact (getField_setField _ _ _ _ hoffset).trans (if_pos rfl)
  · exact (getField_setField _ _ _ _ hoffset).trans (if_neg other.symm)
  · exact setField_sig _ _ _

-- ---------------------------------------------------------------- persisting (R218, R219)

theorem exec_calPersist_ready {s : State} (hisr : s.irq.inIsr = false) (hloaded : s.cal.loaded = true) :
    exec .calPersist s = .next (finish 0 (sealAndStore s)) :=
  onLoadedStore_ready _ hisr hloaded

theorem sealRecord_of_sealed {c : Config.CrcChoice} {r : CalRecord} (h : r.crc = crcOf c (recordBody r)) :
    sealRecord c r = r := by
  rw [sealRecord, ← h]

theorem getElem?_nvmImage (s : State) {k : Nat} (h : k < 46) :
    (nvmImage s)[k]? = some (memRead s.nvm (s.board.nvmBase + k)) := by
  simp [nvmImage, memReadList, Config.recBytes, h]

/-- The same record image and the same bytes outside it are the same storage. -/
theorem memRead_eq_of_nvmImage {s t : State} (board : t.board = s.board) (image : nvmImage t = nvmImage s)
    (outside : ∀ a, (a < s.board.nvmBase ∨ s.board.nvmBase + 46 ≤ a) → memRead t.nvm a = memRead s.nvm a) (a : Nat) :
    memRead t.nvm a = memRead s.nvm a := by
  by_cases h : s.board.nvmBase ≤ a ∧ a < s.board.nvmBase + 46
  · obtain ⟨k, rfl⟩ := Nat.exists_eq_add_of_le h.1
    have hk : k < 46 := by omega
    have same := congrArg (·[k]?) image
    simpa [getElem?_nvmImage _ hk, board] using same
  · exact outside a (by omega)

/-- Settles O41: the record write is `sealAndStore_spec`'s; one of a sealed and stored working copy puts back the image
that stands there (`memRead_eq_of_nvmImage`). -/
theorem calPersistSealsAndStores : Obligations.CalPersistSealsAndStores := by
  intro s hisr hloaded wf
  obtain ⟨image, -, outside, log⟩ := sealAndStore_spec s wf
  refine ⟨_, exec_calPersist_ready hisr hloaded, rfl, image, outside, log, rfl, rfl, fun isSealed isStored => ?_⟩
  have cal : (sealAndStore s).cal = s.cal := by rw [sealAndStore_cal, sealRecord_of_sealed isSealed]
  refine ⟨cal, memRead_eq_of_nvmImage rfl (image.trans ?_) outside⟩
  rw [cal, isStored]

-- ---------------------------------------------------------------- the load of a valid image (R212, R213, R215)

/-- `valid` of the record that storage holds, said of its image (R213, R102). -/
theorem validRecord_recordOf_nvmImage (s : State) :
    validRecord s.board.crc (recordOf (nvmImage s)) = true ↔
      (recordOf (nvmImage s)).sig = 0x55AA#16 ∧
        crcOf s.board.crc ((nvmImage s).take 44) = (recordOf (nvmImage s)).crc := by
  obtain ⟨-, body⟩ := recordBytes_recordOf (nvmImage s) (nvmImage_length s)
  rw [validRecord_iff, body]
  rfl

theorem exec_calLoad_valid {s : State} (hisr : s.irq.inIsr = false) (hbusy : s.sst.busy = false)
    (valid : validRecord s.board.crc (recordOf (nvmImage s)) = true) :
    exec .calLoad s = .next (finish 0 (markLoaded (setWork (recordOf (nvmImage s)) s))) :=
  (foregroundOnly_foreground _ hisr).trans ((if_neg (Bool.eq_false_iff.mp hbusy)).trans (if_pos valid))

/-- Settles O36: the working copy is the record whose bytes are the image (`recordBytes_recordOf`). -/
theorem calLoadTakesValidRecord : Obligations.CalLoadTakesValidRecord := by
  intro s hisr hbusy sig crc
  obtain ⟨bytes, -⟩ := recordBytes_recordOf (nvmImage s) (nvmImage_length s)
  exact ⟨_, bytes, exec_calLoad_valid hisr hbusy ((validRecord_recordOf_nvmImage s).mpr ⟨sig, crc⟩)⟩

-- ---------------------------------------------------------------- the load of an invalid image (R212 to R215, R219)

/-- The state in which `CAL_LOAD` begins its defaulting: `WORK` holds the image of storage (R212). -/
def withImage (s : State) : State := setWork (recordOf (nvmImage s)) s

theorem exec_calLoad_invalid {s : State} (ready : LinkReady s)
    (invalid : (recordOf (nvmImage s)).sig ≠ 0x55AA#16 ∨
      crcOf s.board.crc ((nvmImage s).take 44) ≠ (recordOf (nvmImage s)).crc) :
    exec .calLoad s = .next (finish 0 (markLoaded (defaultRecord (withImage s)))) := by
  obtain ⟨hisr, hbusy, hsclk⟩ := ready
  have notValid : ¬validRecord s.board.crc (recordOf (nvmImage s)) = true := by
    rw [validRecord_recordOf_nvmImage]
    exact not_and_or.mpr invalid
  rw [exec, execCalLoad, foregroundOnly_foreground _ hisr, if_neg (Bool.eq_false_iff.mp hbusy)]
  exact (if_neg notValid).trans (if_pos hsclk)

section
variable (s : State)

/-- Defaulting leaves the interface and `BUF` as they were and the link idle, and makes one record write
(R214, R219). -/
theorem defaultRecord_lines :
    (defaultRecord s).port = s.port ∧ (defaultRecord s).sst.sclk = true ∧ (defaultRecord s).sst.busy = false ∧
      (defaultRecord s).sst.buf = s.sst.buf ∧ writeCount (defaultRecord s).log = writeCount s.log + 1 := by
  obtain ⟨d, u, frame, -, eq, sclk, busy⟩ := defaultRecord_frame s
  rw [eq]
  exact ⟨frame.port, sclk, busy, frame.buf, (writeCount_nvmWrite _ _ _).trans (congrArg (· + 1) frame.writes)⟩

/-- Defaulting leaves a sealed record with the signature, and storage holds it (R214, R219). -/
theorem defaultRecord_stores (wf : Memory.wf s.nvm) :
    (defaultRecord s).cal.work.sig = 0x55AA#16 ∧
      (defaultRecord s).cal.work.crc = crcOf s.board.crc (recordBody (defaultRecord s).cal.work) ∧
      nvmImage (defaultRecord s) = recordBytes (defaultRecord s).cal.work ∧
      ∀ a, (a < s.board.nvmBase ∨ s.board.nvmBase + 46 ≤ a) →
        memRead (defaultRecord s).nvm a = memRead s.nvm a := by
  obtain ⟨d, u, frame, sig, eq, -⟩ := defaultRecord_frame s
  obtain ⟨image, -, outside, -⟩ := sealAndStore_spec (setWork d u) (by rw [setWork_nvm, frame.nvm]; exact wf)
  rw [setWork_board, setWork_nvm, frame.board, frame.nvm] at outside
  rw [eq]
  refine ⟨sig, ?_, image, outside⟩
  rw [← frame.board]
  rfl

/-- Defaulting keeps everything outside the link, the store and storage (R80). -/
theorem defaultRecord_eq :
    defaultRecord s =
      { s with
        sst := (defaultRecord s).sst
        cal := (defaultRecord s).cal
        nvm := (defaultRecord s).nvm
        log := (defaultRecord s).log
        ic := (defaultRecord s).ic
        env := (defaultRecord s).env } := by
  obtain ⟨d, u, frame, -, eq, -⟩ := defaultRecord_frame s
  rw [eq]
  exact congrArg (fun w : State =>
    { w with
      cal := (sealAndStore (setWork d u)).cal
      nvm := (sealAndStore (setWork d u)).nvm
      log := (sealAndStore (setWork d u)).log }) frame.eq

end

/-- Settles O37: the frames and the fields are those of `defaultRecord_wire`, and one lemma has each other part of what
the defaulting does. -/
theorem calLoadRecoversInvalidRecord : Obligations.CalLoadRecoversInvalidRecord := by
  intro s ready wf invalid
  obtain ⟨answers, count, hears, log, received, forced⟩ := defaultRecord_wire (withImage s) ready.2.2
  obtain ⟨port, sclk, busy, buf, writes⟩ := defaultRecord_lines (withImage s)
  obtain ⟨sig, crc, image, outside⟩ := defaultRecord_stores (withImage s) wf
  have keeps := defaultRecord_eq (withImage s)
  have run := exec_calLoad_invalid ready invalid
  generalize defaultRecord (withImage s) = defaulted at *
  refine ⟨_, answers, run, count, hears.congr rfl rfl, log, received, forced, rfl, sig, crc, image, writes,
    finish_port_of_eq 0 port, sclk, busy, buf, outside, ?_⟩
  exact congrArg (fun w : State => { w with cal := (markLoaded defaulted).cal, port := (finish 0 defaulted).port })
    keeps

-- ---------------------------------------------------------------- the defaults under DevIdeal (R214, R66)

/-- The first read-block of the defaulting: the meter range (R214). -/
def meterRead (s : State) : List Half × State :=
  readRange 11 (BitVec.ofNat 8 s.board.meterFirst.val) (clearChecksum s)

theorem meterRead_length (s : State) : (meterRead s).1.length = 11 := by
  obtain ⟨-, length, -⟩ := readRange_spec 11 (BitVec.ofNat 8 s.board.meterFirst.val) (clearChecksum s)
  exact length

/-- The second read-block of the defaulting: the measurement range (R214). -/
def measRead (s : State) : List Half × State :=
  readRange 10 (BitVec.ofNat 8 s.board.measFirst.val) (clearChecksum (meterRead s).2)

theorem defaultRecord_work (s : State) :
    (defaultRecord s).cal.work = sealRecord (measRead s).2.board.crc
      (defaultedRecord s.board.forced (meterRead s).1 (measRead s).1 s.cal.work.crc) := by
  simp only [defaultRecord, sealAndStore_cal, setWork_cal, setWork_board, meterRead, measRead]

theorem getField_sealRecord (c : Config.CrcChoice) (r : CalRecord) (f : Nat) :
    getField (sealRecord c r) f = getField r f := rfl

theorem getField_defaultRecord {s : State} {f : Fin 21} (h : ∀ p ∈ s.board.forced, p.1 ≠ f) :
    getField (defaultRecord s).cal.work f.val = ((meterRead s).1 ++ (measRead s).1).getD f.val 0 := by
  rw [defaultRecord_work, getField_sealRecord, getField_defaultedRecord _ _ _ _ f (meterRead_length s) h]

section
variable {s : State} {dev : Vector Half 112} {sh : FrameWord} (ideal : s.ic = .ideal dev sh 0)
include ideal

/-- Under `DevIdeal` the meter read receives the registers of its range and changes none (R66). -/
theorem meterRead_ideal :
    (meterRead s).1 = (List.range' s.board.meterFirst.val 11).map (fun a => dev.getD a 0) ∧
      ∃ w, (meterRead s).2.ic = .ideal dev w 0 := by
  have first : (BitVec.ofNat 8 s.board.meterFirst.val).toNat = s.board.meterFirst.val := by simp; omega
  have read := readRange_ideal 11 (BitVec.ofNat 8 s.board.meterFirst.val) (clearChecksum s) dev sh ideal (by omega)
  rwa [first] at read

/-- Under `DevIdeal` the measurement read, after the meter read, receives the registers of its range (R66). -/
theorem measRead_ideal :
    (measRead s).1 = (List.range' s.board.measFirst.val 10).map (fun a => dev.getD a 0) := by
  have first : (BitVec.ofNat 8 s.board.measFirst.val).toNat = s.board.measFirst.val := by simp; omega
  obtain ⟨-, w, ic⟩ := meterRead_ideal ideal
  obtain ⟨values, -⟩ := readRange_ideal 10 (BitVec.ofNat 8 s.board.measFirst.val) (clearChecksum (meterRead s).2) dev w
    ((clearChecksum_ic _).trans ic) (by omega)
  rwa [first] at values

theorem getD_reads_ideal (f : Fin 21) :
    ((meterRead s).1 ++ (measRead s).1).getD f.val 0 =
      if f.val ≤ 10 then dev.getD (s.board.meterFirst.val + f.val) 0
      else dev.getD (s.board.measFirst.val + (f.val - 11)) 0 := by
  rw [(meterRead_ideal ideal).1, measRead_ideal ideal, List.getD_eq_getElem?_getD]
  by_cases meter : f.val ≤ 10
  · rw [List.getElem?_append_left (by simp; omega), if_pos meter]
    simp [Nat.lt_succ_of_le meter]
  · rw [List.getElem?_append_right (by simp; omega), if_neg meter]
    simp [show f.val - 11 < 10 by omega]

end

/-- Settles O38: what the two reads receive under `DevIdeal` (`getD_reads_ideal`), and `FORCED` as without it. -/
theorem calLoadDefaultsComeFromDevice : Obligations.CalLoadDefaultsComeFromDevice := by
  intro s dev sh ready ideal invalid
  obtain ⟨-, -, -, -, -, forced⟩ := defaultRecord_wire (withImage s) ready.2.2
  refine ⟨_, exec_calLoad_invalid ready invalid, fun f free => ?_, forced⟩
  have field := getField_defaultRecord (s := withImage s) free
  exact field.trans (getD_reads_ideal (s := withImage s) ideal f)

-- ---------------------------------------------------------------- the record writes of every operation (R221)

/-- Settles O43, by the two ways an operation meets storage (`exec_frame`): no record write, or one. -/
theorem durableWritesAreCounted : Obligations.DurableWritesAreCounted := by
  intro i s t h
  rcases (exec_frame h).writes with ⟨count, nvm, -, notUpdate, notPersist, valid⟩ | ⟨_, _, count, -, -, -, writer⟩
  · refine ⟨?_, fun _ a => by rw [nvm]⟩
    rw [count]
    cases i with
    | calUpdateField offset value => exact absurd rfl (notUpdate offset value)
    | calPersist => exact absurd rfl notPersist
    | calLoad => simp [valid]
    | _ => rfl
  · refine ⟨?_, fun same => absurd same (by omega)⟩
    rw [count]
    rcases writer with ⟨_, _, rfl⟩ | rfl | ⟨rfl, invalid⟩
    · rfl
    · rfl
    · simp [invalid]

end Sys2Proof.Machine
end

section
/-! SUPPORT. Proofs for the family of the exceptions: the interrupt's entry, its handler's whole run and its return,
which context may perform which operation, and that none faults. -/

namespace Sys2Proof.Machine

-- ---------------------------------------------------------------- entry and return (R248, R252, R253)

theorem advanceWord_eq : advanceWord = 0x80000000000000#56 := rfl

theorem step_of_pending {s : State} (foreground : s.irq.inIsr = false) (pending : s.irq.pending = true)
    (unmasked : s.irq.masked = false) : step s = .next (enterIsr s) :=
  step_of_moved (nextAction_of_pending foreground pending unmasked)

theorem step_of_handlerEnd {s : State} (handler : s.irq.inIsr = true) (atEnd : s.irq.op = none) :
    step s = .next (leaveIsr s) :=
  step_of_moved (nextAction_of_handlerEnd handler atEnd)

/-- At the handler's end the return clears `IN_ISR` alone (R253, log 5). -/
theorem leaveIsr_of_handlerEnd {s : State} (atEnd : s.irq.op = none) :
    leaveIsr s = { s with irq := { s.irq with inIsr := false } } := by
  rw [leaveIsr, ← atEnd]

/-- Settles O47, by the two moves of the interrupt logic (`step_of_pending`, `step_of_handlerEnd`). -/
theorem interruptEntryAndReturn : Obligations.InterruptEntryAndReturn := by
  refine fun s => ⟨fun foreground pending unmasked => ?_, fun handler atEnd => ?_⟩
  · rw [← advanceWord_eq]
    exact step_of_pending foreground pending unmasked
  · rw [← leaveIsr_of_handlerEnd atEnd]
    exact step_of_handlerEnd handler atEnd

-- ---------------------------------------------------------------- the handler's run (R106, R184, R247)

theorem run_succ_of_step {s t : State} (h : step s = .next t) (n : Nat) :
    Host.Core.run core (n + 1) s = Host.Core.run core n t := by
  have first : core.step s = .next t := h
  simp only [Host.Core.run, first]

theorem step_of_advanceWord {s : State} (handler : s.irq.inIsr = true) (begins : s.irq.op = some advanceWord) :
    step s = .next (handlerAfter .advance (advanceTick s)) :=
  step_of_handlerWord handler begins decodeCw_advanceWord (interruptOnly_handler _ handler)

theorem step_of_serviceWord {s : State} (handler : s.irq.inIsr = true) (services : s.irq.op = some serviceWord) :
    step s = .next (handlerAfter .service (serviceStep s)) :=
  step_of_handlerWord handler services decodeCw_serviceWord (exec_service_handler handler)

theorem run_handlerEnd {s : State} (handler : s.irq.inIsr = true) (atEnd : s.irq.op = none) :
    Host.Core.run core 1 s = .next (leaveIsr s) :=
  run_succ_of_step (step_of_handlerEnd handler atEnd) 0

/-- The handler's last two steps where its service step is due: the return forgets the handler's progress (log 5). -/
theorem run_serviceWord {s : State} (handler : s.irq.inIsr = true) (services : s.irq.op = some serviceWord) :
    Host.Core.run core 2 s = .next (leaveIsr (serviceStep s)) := by
  have stillHandler : (serviceStep s).irq.inIsr = true := by
    obtain ⟨-, -, -, -, irq, -⟩ := serviceStep_spec s
    rw [irq, handler]
  exact (run_succ_of_step (step_of_serviceWord handler services) 1).trans (run_handlerEnd stillHandler rfl)

/-- The service step does not look at the handler's progress (`serviceStep_irq`), and the return forgets it. -/
theorem leaveIsr_serviceStep_handlerAfter (i : Instr) (s : State) :
    leaveIsr (serviceStep (handlerAfter i s)) = leaveIsr (serviceStep s) := by
  obtain ⟨-, -, -, -, irq, -⟩ := serviceStep_spec s
  rw [handlerAfter, serviceStep_irq, leaveIsr, leaveIsr, irq]

theorem timerIsr_of_due {s : State} (due : serviceDue (s.tick + 1) = true) :
    timerIsr s = leaveIsr (serviceStep (advanceTick (enterIsr s))) :=
  congrArg leaveIsr (if_pos due)

theorem timerIsr_of_not_due {s : State} (notDue : serviceDue (s.tick + 1) ≠ true) :
    timerIsr s = leaveIsr (advanceTick (enterIsr s)) :=
  congrArg leaveIsr (if_neg notDue)

/-- What `TIMER_ISR` does whether or not its service step is due (R80, R247). -/
theorem timerIsr_frame (s : State) :
    (timerIsr s).tick = s.tick + 1 ∧
      (timerIsr s).irq = { s.irq with pending := false, inIsr := false, op := none } ∧
      (timerIsr s).port = s.port ∧ (timerIsr s).sst = s.sst ∧ (timerIsr s).cal = s.cal ∧
      (timerIsr s).nvm = s.nvm := by
  by_cases due : serviceDue (s.tick + 1) = true
  · obtain ⟨tick, sst, cal, nvm, irq, port, -⟩ := serviceStep_spec (advanceTick (enterIsr s))
    rw [timerIsr_of_due due]
    exact ⟨tick, congrArg (fun q : Interrupt => { q with inIsr := false, op := none }) irq, port, sst, cal, nvm⟩
  · rw [timerIsr_of_not_due due]
    exact ⟨rfl, rfl, rfl, rfl, rfl, rfl⟩

section
variable {s : State} (foreground : s.irq.inIsr = false) (pending : s.irq.pending = true)
  (unmasked : s.irq.masked = false)
include foreground pending unmasked

/-- The handler's first two steps: the entry and `ADVANCE`. -/
theorem run_handler_advance (n : Nat) :
    Host.Core.run core (n + 2) s = Host.Core.run core n (handlerAfter .advance (advanceTick (enterIsr s))) := by
  rw [run_succ_of_step (step_of_pending foreground pending unmasked)]
  exact run_succ_of_step (step_of_advanceWord rfl rfl) n

theorem run_timerIsr_of_due (due : serviceDue (s.tick + 1) = true) :
    Host.Core.run core 4 s = .next (timerIsr s) := by
  rw [timerIsr_of_due due, ← leaveIsr_serviceStep_handlerAfter .advance]
  exact (run_handler_advance foreground pending unmasked 2).trans (run_serviceWord rfl (if_pos ⟨rfl, due⟩))

theorem run_timerIsr_of_not_due (notDue : serviceDue (s.tick + 1) ≠ true) :
    Host.Core.run core 3 s = .next (timerIsr s) := by
  rw [timerIsr_of_not_due notDue]
  exact (run_handler_advance foreground pending unmasked 1).trans
    (run_handlerEnd rfl (if_neg fun h => notDue h.2))

end

/-- Settles O48: the run ends in `timerIsr`, with and without its service step (`run_timerIsr_of_due`,
`run_timerIsr_of_not_due`), and `timerIsr_frame` has the rest. -/
theorem handlerRunsTimerIsr : Obligations.HandlerRunsTimerIsr := by
  intro s foreground pending unmasked
  obtain ⟨tick, irq, port, sst, cal, nvm⟩ := timerIsr_frame s
  refine ⟨timerIsr s, ?_, rfl, tick, congrArg Interrupt.inIsr irq, congrArg Interrupt.pending irq, port, sst, cal,
    fun a => by rw [nvm], fun notDue => ?_⟩
  · simp only [← serviceDue_iff]
    split
    · exact run_timerIsr_of_due foreground pending unmasked ‹_›
    · exact run_timerIsr_of_not_due foreground pending unmasked ‹_›
  · rw [timerIsr_of_not_due (mt (serviceDue_iff _).mp notDue)]
    exact ⟨rfl, rfl⟩

-- ---------------------------------------------------------------- a tick event inside a section (R249, R122)

/-- The word of `SNAPSHOT` (R94). -/
theorem decodeCw_snapshotWord : decodeCw 0x00000000000000#56 = .ok .snapshot :=
  decodeCw_mkCw (o := 0) (a := 0) (b := 0) rfl

/-- A requested `SNAPSHOT` leaves its result, the trace of its critical section, and no request (R97, R122). -/
theorem step_of_snapshotRequest {s : State} (foreground : s.irq.inIsr = false) (idle : s.irq.pending = false)
    (request : s.port.request = some (.host 0x00000000000000#56)) (turn : s.port.spinning = false) :
    step s = .next
      { s with
        port := { doneWith s s.tick with request := none }
        irq := afterSection s
        env := envAfterSection s } := by
  have fetched : Fetched s .snapshot := .host _ foreground turn request decodeCw_snapshotWord rfl
  rw [step_of_fetched fetched (fun _ => .inl idle) (execSnapshot_foreground foreground), finish_critical_read,
    afterOperation_foreground]
  · rfl
  · exact foreground

/-- Settles O49: the section's trace has the tick event pending, so it is served next (`step_of_pending`). -/
theorem tickInsideSnapshotIsDelayed : Obligations.TickInsideSnapshotIsDelayed := by
  intro s foreground idle _ request turn midTick
  have arrived : (s.irq.pending || s.env.midTick) = true := by rw [midTick, Bool.or_true]
  exact ⟨_, _, _, step_of_snapshotRequest foreground idle request turn, rfl, rfl, rfl,
    step_of_pending foreground arrived rfl, rfl, step_of_advanceWord rfl rfl, rfl, rfl⟩

-- ---------------------------------------------------------------- contexts and faults (R240, R255)

/-- The table of contexts: whether an operation may be performed in the handler (`inIsr`) or the foreground (R255);
the wire frames, which it leaves out, are the foreground's. -/
def mayPerform (inIsr : Bool) : Instr → Bool
  | .snapshot => true
  | .advance | .service | .push _ => inIsr
  | _ => !inIsr

/-- The outcome is no fault and no refusal for the context. -/
def PastContext : Host.Outcome State Fault Refusal → Prop
  | .next _ => True
  | .refused r => r ≠ .contextForbidden
  | .fault _ => False

theorem PastContext.ite {c : Prop} [Decidable c] {k l : Host.Outcome State Fault Refusal} (hk : PastContext k)
    (hl : PastContext l) : PastContext (if c then k else l) := by
  split
  · exact hk
  · exact hl

theorem linkRefusal_ne_contextForbidden {s : State} {r : Refusal} (h : linkRefusal s = some r) :
    r ≠ .contextForbidden := by
  rintro rfl
  unfold linkRefusal at h
  split at h
  · cases h
  · split at h <;> cases h

/-- Everything an operation answers stands behind the table of contexts: where it says "no" the operation is refused,
and elsewhere it neither faults nor is refused for its context. -/
def BehindTable (i : Instr) (s : State) (o : Host.Outcome State Fault Refusal) : Prop :=
  ∃ k, PastContext k ∧ o = if mayPerform s.irq.inIsr i then k else .refused .contextForbidden

section
variable {i : Instr} {s : State} {k : Host.Outcome State Fault Refusal}

theorem foregroundOnly_behindTable (hi : ∀ c, mayPerform c i = !c) (hk : PastContext k) :
    BehindTable i s (foregroundOnly s k) := by
  refine ⟨k, hk, ?_⟩
  rw [hi]
  cases context : s.irq.inIsr with
  | true => exact foregroundOnly_handler k context
  | false => exact foregroundOnly_foreground k context

theorem interruptOnly_behindTable (hi : ∀ c, mayPerform c i = c) (hk : PastContext k) :
    BehindTable i s (interruptOnly s k) := by
  refine ⟨k, hk, ?_⟩
  rw [hi]
  rfl

theorem onIdleLink_behindTable {addr : Nat} (hi : ∀ c, mayPerform c i = !c) (hk : PastContext k) :
    BehindTable i s (onIdleLink addr s k) := by
  refine foregroundOnly_behindTable hi (.ite ?_ nofun)
  split
  · exact hk
  · exact linkRefusal_ne_contextForbidden ‹_›

theorem onBlockLink_behindTable {first last : Byte} (hi : ∀ c, mayPerform c i = !c) (hk : PastContext k) :
    BehindTable i s (onBlockLink first last s k) :=
  foregroundOnly_behindTable hi (.ite (.ite nofun (.ite nofun hk)) nofun)

theorem onLoadedStore_behindTable (hi : ∀ c, mayPerform c i = !c) (hk : PastContext k) :
    BehindTable i s (onLoadedStore s k) :=
  foregroundOnly_behindTable hi (.ite hk nofun)

theorem onStoreField_behindTable {offset : Byte} (hi : ∀ c, mayPerform c i = !c) (hk : PastContext k) :
    BehindTable i s (onStoreField offset s k) :=
  onLoadedStore_behindTable hi (.ite hk nofun)

end

theorem execSnapshot_next (s : State) : ∃ t, execSnapshot s = .next t := by
  cases context : s.irq.inIsr with
  | true => exact ⟨_, execSnapshot_handler context⟩
  | false => exact ⟨_, execSnapshot_foreground context⟩

/-- What an operation can answer in each context, operation by operation. -/
theorem exec_behindTable (i : Instr) (s : State) : BehindTable i s (exec i s) := by
  cases i with
  | snapshot =>
    obtain ⟨t, completes⟩ := execSnapshot_next s
    exact ⟨.next t, trivial, completes⟩
  | computeDeadline | isExpired | pollEvent | exchangeBit | exchangeByte | crc16 =>
    exact foregroundOnly_behindTable (fun _ => rfl) trivial
  | blockUntil | formatElapsed => exact foregroundOnly_behindTable (fun _ => rfl) (.ite trivial trivial)
  | registerButton => exact foregroundOnly_behindTable (fun _ => rfl) (.ite trivial nofun)
  | calLoad => exact foregroundOnly_behindTable (fun _ => rfl) (.ite nofun (.ite trivial (.ite trivial nofun)))
  | startCond =>
    refine foregroundOnly_behindTable (fun _ => rfl) ?_
    split
    · trivial
    · exact linkRefusal_ne_contextForbidden ‹_›
  | writeTransaction | readTransaction | frameWrite | frameRead =>
    exact onIdleLink_behindTable (fun _ => rfl) trivial
  | writeBlock | readBlock => exact onBlockLink_behindTable (fun _ => rfl) trivial
  | calReadField | calUpdateField => exact onStoreField_behindTable (fun _ => rfl) trivial
  | calPersist => exact onLoadedStore_behindTable (fun _ => rfl) trivial
  | push | advance | service => exact interruptOnly_behindTable (fun _ => rfl) trivial

/-- An operation is refused for its context exactly where the table says "no" (R255). -/
theorem exec_eq_contextForbidden_iff (i : Instr) (s : State) :
    exec i s = .refused .contextForbidden ↔ mayPerform s.irq.inIsr i = false := by
  obtain ⟨k, past, answer⟩ := exec_behindTable i s
  rw [answer]
  cases mayPerform s.irq.inIsr i with
  | true =>
    refine ⟨fun h => ?_, nofun⟩
    rw [show k = .refused .contextForbidden from h] at past
    exact absurd rfl past
  | false => exact ⟨fun _ => rfl, fun _ => rfl⟩

theorem mayPerform_handler_iff (i : Instr) :
    mayPerform true i = false ↔ i ≠ .snapshot ∧ i ≠ .advance ∧ i ≠ .service ∧ ∀ ev, i ≠ .push ev := by
  cases i <;> simp [mayPerform]

theorem mayPerform_foreground_iff (i : Instr) :
    mayPerform false i = false ↔ i = .advance ∨ i = .service ∨ ∃ ev, i = .push ev := by
  cases i <;> simp [mayPerform]

/-- Settles O44, by the table as a function (`mayPerform`), whose "no" is exactly the refusal
(`exec_eq_contextForbidden_iff`). -/
theorem contextsAreSeparated : Obligations.ContextsAreSeparated := by
  refine fun i s _ => ⟨fun handler => ?_, fun foreground => ?_, fun handler => ⟨_, execSnapshot_handler handler, rfl⟩⟩
  · rw [exec_eq_contextForbidden_iff, handler, mayPerform_handler_iff]
  · rw [exec_eq_contextForbidden_iff, foreground, mayPerform_foreground_iff]

/-- Settles O46, by what an operation can answer in each context (`exec_behindTable`). -/
theorem noOperationFaults : Obligations.NoOperationFaults := by
  intro i s r faults
  obtain ⟨k, past, answer⟩ := exec_behindTable i s
  rw [answer] at faults
  split at faults
  · rw [faults] at past
    exact past
  · cases faults

end Sys2Proof.Machine
end

section
/-! SUPPORT. Proofs for the family of the reset and the machine's invariant: what a reset and a loss of power leave, and
`Inv` as one predicate for each part of the state, each kept by the operations and by the moves of a step. -/

namespace Sys2Proof.Machine

-- ---------------------------------------------------------------- the block after a reset (R270, R271)

/-- Every element of the block and of the interface has its reset value, the unspecified ones from draw `n`. -/
structure AfterReset (n : Nat) (t : State) : Prop where
  tick : t.tick = 0
  sst : t.sst = Transport.afterReset n
  btn : t.btn = []
  evq : t.evq = Queue.afterReset n
  cal : t.cal = CalStore.afterReset n
  irq : t.irq = Interrupt.afterReset
  port : t.port = Port.afterReset

theorem afterReset_reset : AfterReset 0 State.reset := ⟨rfl, rfl, rfl, rfl, rfl, rfl, rfl⟩

theorem afterReset_resetBlock (s : State) : AfterReset s.env.draws (resetBlock s) :=
  ⟨rfl, rfl, rfl, rfl, rfl, rfl, rfl⟩

theorem afterReset_powerLost (image : Vector Byte 46) (s : State) :
    AfterReset s.env.draws (powerLost image s) :=
  ⟨rfl, rfl, rfl, rfl, rfl, rfl, rfl⟩

theorem AfterReset.hasResetValues {n : Nat} {t : State} (h : AfterReset n t) : HasResetValues t := by
  obtain ⟨tick, sst, btn, evq, cal, irq, -⟩ := h
  simp [HasResetValues, State.nbtn, tick, sst, btn, evq, cal, irq, Transport.afterReset, Queue.afterReset,
    CalStore.afterReset, Interrupt.afterReset]

/-- Settles O56: the first reset is a reset like any other. -/
theorem resetLeavesSpecValues : Obligations.ResetLeavesSpecValues :=
  afterReset_reset.hasResetValues

-- ---------------------------------------------------------------- a later reset, a loss of power (R270, R42, R82)

theorem consume_inbox {s : State} {i : Input} {rest : List Input} (h : s.env.inbox = i :: rest) :
    (consume s).env.inbox = rest := by
  simp [h]

theorem takeInput_reset {s : State} {rest : List Input} (h : s.env.inbox = .reset :: rest) :
    takeInput s = .moved (resetBlock (consume s)) := by
  simp [takeInput, h]

theorem takeInput_powerLoss_idle {s : State} {image : Vector Byte 46} {rest : List Input}
    (h : s.env.inbox = .powerLoss image :: rest) (idle : s.port.request = none) :
    takeInput s = .moved (powerLost image (consume s)) := by
  simp [takeInput, h, idle]

theorem takeInput_powerLoss_busy {s : State} {image : Vector Byte 46} {rest : List Input}
    (h : s.env.inbox = .powerLoss image :: rest) (busy : s.port.request.isSome = true) :
    takeInput s = .moved (resetBlock (consume s)) := by
  simp [takeInput, h, busy]

/-- Between operations and while one waits, the outside acts next (R248, R136; log 5). -/
theorem nextAction_of_outside {s : State} (foreground : s.irq.inIsr = false) (quiet : s.irq.pending = false)
    (free : s.port.request = none ∨ s.port.spinning = true) : nextAction s = takeInput s := by
  rcases free with idle | waits
  · exact nextAction_of_idle foreground quiet idle
  · exact nextAction_of_waiting foreground quiet waits

/-- The image is in the record's place (R62, R82). -/
theorem nvmImage_powerLost (image : Vector Byte 46) {s : State} (wf : Memory.wf s.nvm) :
    nvmImage (powerLost image s) = image.toList := by
  have written := memReadList_memWriteList wf s.board.nvmBase image.toList
  rwa [Vector.length_toList] at written

theorem memRead_powerLost (image : Vector Byte 46) {s : State} (wf : Memory.wf s.nvm) {a : Nat}
    (outside : a < s.board.nvmBase ∨ s.board.nvmBase + 46 ≤ a) :
    memRead (powerLost image s).nvm a = memRead s.nvm a := by
  have written := memRead_memWriteList wf s.board.nvmBase a image.toList
  rwa [Vector.length_toList, if_neg (by omega)] at written

/-- Settles O57, by the input the step takes: `resetBlock` leaves storage alone, `powerLost` writes the image over the
record. -/
theorem resetKeepsDurableRecord : Obligations.ResetKeepsDurableRecord := by
  intro s rest foreground quiet free
  have outside := nextAction_of_outside foreground quiet free
  have values := (afterReset_resetBlock (consume s)).hasResetValues
  refine ⟨fun listed => ?_, fun image listed idle wf => ?_, fun image listed busy => ?_⟩
  · exact ⟨_, step_of_moved (outside.trans (takeInput_reset listed)), values, consume_inbox listed, rfl, fun _ => rfl⟩
  · exact ⟨_, step_of_moved (outside.trans (takeInput_powerLoss_idle listed idle)),
      (afterReset_powerLost image (consume s)).hasResetValues, consume_inbox listed, rfl,
      nvmImage_powerLost image wf, fun _ => memRead_powerLost image wf⟩
  · exact ⟨_, step_of_moved (outside.trans (takeInput_powerLoss_busy listed busy)), values, consume_inbox listed, rfl,
      fun _ => rfl⟩

-- ---------------------------------------------------------------- the parts of the invariant (R275)

/-- The clauses of `Inv` on the link: clock high, no transaction (R27, R30). -/
structure LinkIdle (link : Transport) : Prop where
  clockIdle : link.sclk = true
  linkFree : link.busy = false

/-- The clauses of `Inv` on the descriptors (R34, R36). -/
structure ButtonsInv (board : Config.Board) (btn : List Descriptor) : Prop where
  storeFits : btn.length ≤ board.maxButtons
  releaseActive : ∀ d ∈ btn, d.st = .awaitRelease → isActive board.activeLevel d.last = true

/-- The clauses of `Inv` on storage and the working copy (R220). -/
structure StoreInv (board : Config.Board) (nvm : Memory) (cal : CalStore) : Prop where
  memoryForm : Memory.wf nvm
  storeSealed : cal.loaded = true →
    validRecord board.crc cal.work = true ∧ memReadList nvm board.nvmBase Config.recBytes = recordBytes cal.work

/-- The clauses of `Inv` on the interrupt state (R44, R249, R250). -/
structure IrqInv (irq : Interrupt) : Prop where
  unmasked : irq.masked = false
  handlerOp : if irq.inIsr then
      irq.pending = false ∧ (irq.op = none ∨ irq.op = some advanceWord ∨ irq.op = some serviceWord)
    else irq.op = none

/-- The clauses of `Inv` on the interface (R97). -/
structure PortInv (port : Port) : Prop where
  hostRequests : port.request = none ∨ ∃ cw, port.request = some (.host cw)
  waitsInOperation : port.spinning = true → port.request.isSome = true
  doneLow : port.request.isSome = true → port.done = false

/-- `Inv` by the parts of the state, so that a part a step leaves alone keeps its clauses. -/
structure InvParts (s : State) : Prop where
  link : LinkIdle s.sst
  buttons : ButtonsInv s.board s.btn
  store : StoreInv s.board s.nvm s.cal
  irq : IrqInv s.irq
  port : PortInv s.port

theorem inv_iff_parts (s : State) : Inv s ↔ InvParts s := by
  constructor
  · rintro ⟨form, fits, clock, free, unmasked, op, host, waits, done, sealed, release⟩
    exact ⟨⟨clock, free⟩, ⟨fits, release⟩, ⟨form, sealed⟩, ⟨unmasked, op⟩, ⟨host, waits, done⟩⟩
  · rintro ⟨⟨clock, free⟩, ⟨fits, release⟩, ⟨form, sealed⟩, ⟨unmasked, op⟩, ⟨host, waits, done⟩⟩
    exact ⟨form, fits, clock, free, unmasked, op, host, waits, done, sealed, release⟩

theorem IrqInv.foreground {irq : Interrupt} (unmasked : irq.masked = false) (foreground : irq.inIsr = false)
    (op : irq.op = none) : IrqInv irq :=
  ⟨unmasked, by rw [foreground]; exact op⟩

theorem IrqInv.handler {irq : Interrupt} (unmasked : irq.masked = false) (handler : irq.inIsr = true)
    (quiet : irq.pending = false) (op : irq.op = none ∨ irq.op = some advanceWord ∨ irq.op = some serviceWord) :
    IrqInv irq :=
  ⟨unmasked, by rw [handler]; exact ⟨quiet, op⟩⟩

theorem IrqInv.op_of_foreground {irq : Interrupt} (h : IrqInv irq) (foreground : irq.inIsr = false) :
    irq.op = none := by
  simpa [foreground] using h.handlerOp

theorem IrqInv.quiet_of_handler {irq : Interrupt} (h : IrqInv irq) (handler : irq.inIsr = true) :
    irq.pending = false := by
  have op := h.handlerOp
  rw [if_pos handler] at op
  exact op.1

/-- An interface with nothing requested and nothing waiting. -/
theorem PortInv.idle {port : Port} (request : port.request = none) (spinning : port.spinning = false) :
    PortInv port :=
  ⟨.inl request, by simp [spinning], by simp [request]⟩

/-- An interface with a command of the host in progress. -/
theorem PortInv.inProgress {port : Port} {cw : CommandWord} (request : port.request = some (.host cw))
    (low : port.done = false) : PortInv port :=
  ⟨.inr ⟨cw, request⟩, fun _ => by rw [request]; rfl, fun _ => low⟩

/-- Only the request, the wait and `DONE` matter. -/
theorem PortInv.congr {p q : Port} (h : PortInv p) (request : q.request = p.request)
    (spinning : q.spinning = true → p.spinning = true) (done : q.done = p.done) : PortInv q := by
  obtain ⟨host, waits, low⟩ := h
  exact ⟨by rwa [request], fun w => by rw [request]; exact waits (spinning w), by rwa [request, done]⟩

/-- A store that is not loaded has only its memory's form to keep (R220). -/
theorem StoreInv.notLoaded {board : Config.Board} {nvm : Memory} {cal : CalStore} (form : Memory.wf nvm)
    (h : cal.loaded = false) : StoreInv board nvm cal :=
  ⟨form, by simp [h]⟩

theorem AfterReset.invParts {n : Nat} {t : State} (h : AfterReset n t) (form : Memory.wf t.nvm) : InvParts t := by
  obtain ⟨-, sst, btn, -, cal, irq, port⟩ := h
  exact
    { link := by rw [sst]; exact ⟨rfl, rfl⟩
      buttons := by rw [btn]; exact ⟨Nat.zero_le _, by simp⟩
      store := .notLoaded form (by rw [cal]; rfl)
      irq := by rw [irq]; exact .foreground rfl rfl rfl
      port := by rw [port]; exact .idle rfl rfl }

/-- Settles O60: storage is empty at the first reset. -/
theorem resetMeetsInvariant : Obligations.ResetMeetsInvariant :=
  (inv_iff_parts _).mpr (afterReset_reset.invParts ⟨.nil, by simp [State.reset]⟩)

-- ---------------------------------------------------------------- operations keep the store and the buttons

/-- A valid image taken as the working copy is the record's image (R212, R102). -/
theorem StoreInv.ofImage {s : State} (form : Memory.wf s.nvm)
    (valid : validRecord s.board.crc (recordOf (nvmImage s)) = true) :
    StoreInv s.board s.nvm ⟨recordOf (nvmImage s), true⟩ :=
  ⟨form, fun _ => ⟨valid, (recordBytes_recordOf _ (nvmImage_length s)).1.symm⟩⟩

/-- A sealed record with the signature, written to storage, is there and valid (R213, R219). -/
theorem StoreInv.ofRecordWrite {board : Config.Board} {nvm : Memory} {r : CalRecord} (loaded : Bool)
    (form : Memory.wf nvm) (sig : r.sig = Config.signature) :
    StoreInv board (memWriteList nvm board.nvmBase (recordBytes (sealRecord board.crc r)))
      ⟨sealRecord board.crc r, loaded⟩ := by
  have written := memReadList_memWriteList form board.nvmBase (recordBytes (sealRecord board.crc r))
  rw [recordBytes_length] at written
  exact ⟨memWriteList_wf _ _ form, fun _ => ⟨validRecord_sealRecord _ r sig, written⟩⟩

/-- The record an operation writes has the signature: it is the defaulting's, or the loaded store's (R214, R220). -/
theorem exec_keeps_store {i : Instr} {s t : State} (h : StoreInv s.board s.nvm s.cal) (he : exec i s = .next t) :
    StoreInv t.board t.nvm t.cal := by
  have frame := exec_frame he
  rw [frame.board]
  rcases frame.writes with ⟨-, nvm, cal, -⟩ | ⟨r, loaded, -, nvm, cal, sig, -⟩
  · rw [nvm]
    rcases cal with cal | ⟨-, valid, cal⟩
    · rw [cal]; exact h
    · rw [cal]; exact .ofImage h.memoryForm valid
  · have signature : r.sig = Config.signature := by
      rcases sig with sig | ⟨sig, wasLoaded⟩
      · exact sig
      · exact sig.trans ((validRecord_iff _ _).mp (h.storeSealed wasLoaded).1).1
    rw [nvm, cal]
    exact .ofRecordWrite loaded h.memoryForm signature

/-- A descriptor is appended only where one fits, and awaits its press; else the descriptors take debounce steps, or
stay as they are (R181, R185). -/
theorem exec_keeps_buttons {i : Instr} {s t : State} (h : ButtonsInv s.board s.btn) (he : exec i s = .next t) :
    ButtonsInv t.board t.btn := by
  have frame := exec_frame he
  rw [frame.board]
  rcases frame.btn with same | ⟨d, press, appended, room⟩ | serviced
  · rw [same]; exact h
  · rw [appended]
    refine ⟨by rw [List.length_append]; exact room, fun e he awaits => ?_⟩
    rcases List.mem_append.mp he with old | new
    · exact h.releaseActive e old awaits
    · obtain rfl := List.mem_singleton.mp new
      simp [press] at awaits
  · rw [serviced]
    exact ⟨(serviceList_length _ _).trans_le h.storeFits, serviceList_releaseActive _ _ h.releaseActive⟩

-- ---------------------------------------------------------------- a performed operation, in each context

/-- In the handler an operation leaves the link and the interface alone, and the handler goes on with `SERVICE` or to its
end (R247, R255). -/
theorem InvParts.afterHandler {i : Instr} {s t : State} (h : InvParts s) (handler : s.irq.inIsr = true)
    (he : exec i s = .next t) : InvParts (afterOperation i t) := by
  have frame := exec_frame he
  obtain ⟨sst, -, -, -, -, irq, done, spinning⟩ := frame.isrKeeps handler
  rw [afterOperation_handler i (frame.inIsr.trans handler)]
  have next : (handlerAfter i t).irq.op = none ∨ (handlerAfter i t).irq.op = some advanceWord ∨
      (handlerAfter i t).irq.op = some serviceWord := by
    by_cases due : i = .advance ∧ serviceDue t.tick = true
    · exact .inr (.inr (if_pos due))
    · exact .inl (if_neg due)
  have buttons := exec_keeps_buttons h.buttons he
  have store := exec_keeps_store h.store he
  exact
    { link := by rw [handlerAfter_sst, sst]; exact h.link
      buttons := buttons
      store := store
      irq := .handler (frame.masked h.irq.unmasked) (frame.inIsr.trans handler)
        ((congrArg Interrupt.pending irq).trans (h.irq.quiet_of_handler handler)) next
      port := h.port.congr frame.req (fun w => spinning.symm.trans w) done }

/-- A command of the host leaves the link idle; it is then complete, or it is a `BLOCK_UNTIL` that waits with `DONE` low
(R27, R97, R136). -/
theorem InvParts.afterCommand {i : Instr} {s t : State} {cw : CommandWord} (h : InvParts s)
    (foreground : s.irq.inIsr = false) (begins : s.port.spinning = false) (request : s.port.request = some (.host cw))
    (cls : i.opClass = .foreground) (he : exec i s = .next t) : InvParts (afterOperation i t) := by
  have frame := exec_frame he
  obtain ⟨clock, free, waits⟩ := exec_foreground_lines he cls h.link.clockIdle h.link.linkFree
  have buttons := exec_keeps_buttons h.buttons he
  have store := exec_keeps_store h.store he
  have irq : IrqInv t.irq := .foreground (frame.masked h.irq.unmasked) (frame.inIsr.trans foreground)
    (frame.op.trans (h.irq.op_of_foreground foreground))
  rw [afterOperation_foreground i (frame.inIsr.trans foreground)]
  cases spinning : t.port.spinning with
  | true =>
    have req : t.port.request = some (.host cw) := frame.req.trans request
    have low : t.port.done = false := (waits spinning).resolve_left (by simp [begins])
    exact ⟨⟨clock, free⟩, buttons, store, irq, .inProgress req low⟩
  | false => exact ⟨⟨clock, free⟩, buttons, store, irq, .idle rfl spinning⟩

/-- The operation performed is the handler's or a command of the host: no other request is in progress. -/
theorem InvParts.afterPerform {i : Instr} {s t : State} (h : InvParts s) (fetched : Fetched s i)
    (he : exec i s = .next t) : InvParts (afterOperation i t) := by
  have onlyHost : ∀ r, s.port.request = some r → ∃ cw, r = .host cw := by
    intro r hr
    simpa [hr] using h.port.hostRequests
  cases fetched with
  | handler cw handler => exact h.afterHandler handler he
  | host cw foreground begins request _ cls => exact h.afterCommand foreground begins request cls he
  | inner cw _ _ request => simpa using onlyHost _ request
  | frame f _ _ request => simpa using onlyHost _ request

-- ---------------------------------------------------------------- the moves

/-- A wait may end by the draw, and none begins (R136; log 3). -/
theorem InvParts.afterDraw {s : State} (h : InvParts s) : InvParts (drawIteration s) := by
  obtain ⟨link, buttons, store, irq, port⟩ := h
  unfold drawIteration
  split
  · rename_i waits
    exact ⟨link, buttons, store, irq, port.congr rfl (fun _ => waits) rfl⟩
  · exact ⟨link, buttons, store, irq, port⟩

/-- In the foreground a tick event may become pending (R248). -/
theorem InvParts.afterTick {s : State} (h : InvParts s) (foreground : s.irq.inIsr = false) :
    InvParts (tickArrives s) := by
  obtain ⟨link, buttons, store, irq, port⟩ := h
  exact ⟨link, buttons, store, .foreground irq.unmasked foreground (irq.op_of_foreground foreground), port⟩

/-- Inputs are taken in the foreground. -/
theorem InputMove.keeps_parts {s t : State} (m : InputMove s t) (h : InvParts s) (foreground : s.irq.inIsr = false) :
    InvParts t := by
  have form := m.keeps_wf h.store.memoryForm
  have ⟨link, buttons, store, irq, port⟩ := h
  cases m with
  | timer => exact h.afterDraw.afterTick ((congrArg Interrupt.inIsr (drawIteration_irq s)).trans foreground)
  | tick =>
    have consumed : InvParts (consume s) := ⟨link, buttons, store, irq, port⟩
    exact consumed.afterTick foreground
  | midTick => exact ⟨link, buttons, store, irq, port⟩
  | iterate => exact ⟨link, buttons, store, irq, port.congr rfl (fun w => by cases w) rfl⟩
  | command cw => exact ⟨link, buttons, store, irq, .inProgress rfl rfl⟩
  | bufWrite => exact ⟨⟨link.clockIdle, link.linkFree⟩, buttons, store, irq, port⟩
  | reset => exact (afterReset_resetBlock _).invParts form
  | powerLoss image => exact (afterReset_powerLost image _).invParts form

theorem Moves.keeps_parts {s t : State} (m : Moves s t) (h : InvParts s) : InvParts t := by
  cases m with
  | leave => exact ⟨h.link, h.buttons, h.store, .foreground h.irq.unmasked rfl rfl, h.port⟩
  | entry => exact ⟨h.link, h.buttons, h.store, .handler h.irq.unmasked rfl rfl (.inr (.inl rfl)), h.port⟩
  | idle _ foreground _ input | waiting _ foreground _ _ input => exact input.keeps_parts h foreground

/-- Settles O59, by the two kinds of step (`step_next`): an operation performed, and a move without one. -/
theorem stepKeepsInvariant : Obligations.StepKeepsInvariant := by
  intro s t h hstep
  have parts := (inv_iff_parts s).mp h
  refine (inv_iff_parts t).mpr ?_
  rcases step_next hstep with ⟨i, u, performs, he, rfl⟩ | move
  · exact parts.afterPerform (nextAction_perform performs) he
  · exact move.keeps_parts parts

end Sys2Proof.Machine
end
